-- ==== Sys2Proof/Word.lean ====
section
/-! DEFINITION. The words of the machine: 00_scope.md R8 (`XLEN = 32`), 20_memory.md R102 (access widths). -/

namespace Sys2Proof

/-- One byte of memory. -/
abbrev Byte := BitVec 8

/-- A 16-bit value: the 16-bit view of a FIFO port (30_encoding.md R156). -/
abbrev Half16 := BitVec 16

/-- A 32-bit address or register (00_scope.md R8). -/
abbrev Word := BitVec 32

/-- A DMA channel number. The bound 32 is 00_scope.md R9's; the channels that exist are those below `CH`. -/
abbrev Chan := Fin 32

end Sys2Proof
end

