-- ==== Sys2Proof/Config.lean ====
section
/-! DEFINITION. What a platform fixes: the parameters of 00_scope.md R8 to R12, and the free values of the spec. -/

namespace Sys2Proof

namespace Config

/-- `MAX_UNITS` (00_scope.md R10). -/
abbrev maxUnits : Nat := 1024

/-- `SECTION`, the bytes of one FIFO-SRAM section (00_scope.md R10). -/
abbrev sectionBytes : Nat := 256

/-- `BLKSEC(b)`, the sections of FIFO-SRAM block `b` (00_scope.md R10). -/
def blockSections (b : Fin 3) : Nat := if b.val = 2 then 128 else 256

/-- `NFCH`, the FIFO channels of a block (00_scope.md R10). -/
abbrev fifoChannels : Nat := 4

/-- The bytes of a word (00_scope.md R8). -/
abbrev wordBytes : Nat := 4

/-- `DESC_WORDS` (00_scope.md R12). -/
abbrev descWords : Nat := 4

/-- `DESC_BYTES` (00_scope.md R12). -/
abbrev descBytes : Nat := 16

/-- The bytes of the DMA register block (30_encoding.md R144). -/
abbrev dmaBlockBytes : Nat := 64

/-- The bytes of one FIFO channel's register group (30_encoding.md R150). -/
abbrev fifoGroupBytes : Nat := 64

/-- The free value of the spec, "a draw (any value)" (20_memory.md R96, 44_fifo_ring.md R323, R324, R337): the `n`-th
drawn byte. It has no body, so nothing can be proved of any value of it. Assumption log 3, DESIGN CHOICE of form, safe. -/
opaque draw : Nat → Byte

end Config

/-- `ARB_TIE` (00_scope.md R11, 41_channel_engine.md R213): the tie-break among channels of equal priority. -/
inductive ArbTie where
  /-- The spec's default: the lowest channel index. -/
  | lowest
  /-- Any choice: taken from a draw, so that no claim can depend on it (assumption log 28). -/
  | drawn
  deriving DecidableEq, Repr

/-- What one accepted request buys: the two values of the parameter U4 (93_implementation_defined.md;
41_channel_engine.md R228). Assumption log 12. -/
inductive RequestBuys where
  /-- One arbitration period: the spec's value (41_channel_engine.md R226, 42_ping_pong.md R252). -/
  | period
  /-- The whole cycle: the other reading, in which the channel requests itself after a period that leaves units. -/
  | cycle
  deriving DecidableEq, Repr

/-- A range of addresses, `base` to `base + size - 1`. -/
structure Region where
  base : Nat
  size : Nat
  deriving DecidableEq, Repr

/-- What `Mapped(a)` answers (20_memory.md R92). -/
inductive MapKind where
  | ram
  | dmaReg
  | fifoReg
  | nothing
  deriving DecidableEq, Repr

/-- A FIFO channel `(b, f)` (00_scope.md R10). -/
structure FifoId where
  blk : Fin 3
  chan : Fin 4
  deriving DecidableEq, Repr

/-- The OPEN parameters of 00_scope.md R9, R10, R11 and the parameter U4 of 93_implementation_defined.md, as plain data
held in the state and changed by no step, so that a statement about every state is a statement about every platform.
Assumption log 1. -/
structure Platform where
  /-- `CH`, the number of DMA channels (R9). -/
  ch : Nat
  /-- `NBLK`, the number of FIFO blocks, 3 unless a variant lowers it (R10). -/
  nblk : Nat
  /-- `DMA_BASE` (R11). -/
  dmaBase : Word
  /-- `FIFO_BASE` (R11). -/
  fifoBase : Word
  /-- Where `Mapped` answers `ram` (R11). -/
  ram : List Region
  /-- Where `Protected` answers true (R11). -/
  prot : List Region
  /-- `ARB_TIE` (R11). -/
  arbTie : ArbTie
  /-- `Movers` (R11, 44_fifo_ring.md R343): the FIFO channels assigned to each mover. -/
  movers : List (List FifoId)
  /-- What a request buys of a `BASIC` cycle (U4 of 93_implementation_defined.md, 41_channel_engine.md R228). -/
  basicBuys : RequestBuys
  /-- What a request buys of a `PINGPONG` cycle, the same decision (42_ping_pong.md R252), held on its own. Log 12. -/
  pingpongBuys : RequestBuys
  deriving DecidableEq, Repr

namespace Platform

/-- The parameters are within the bounds the spec gives them: `1 <= CH <= 32` (R9), `NBLK <= 3` (R10), register blocks
at 4-byte-aligned addresses (30_encoding.md R144) that do not overlap. -/
def wf (p : Platform) : Bool :=
  decide (1 ≤ p.ch) && decide (p.ch ≤ 32) && decide (p.nblk ≤ 3)
  && decide (p.dmaBase.toNat % 4 = 0) && decide (p.fifoBase.toNat % 4 = 0)
  && decide (Config.dmaBlockBytes ≤ (p.fifoBase - p.dmaBase).toNat)
  && decide (p.nblk * Config.fifoChannels * Config.fifoGroupBytes ≤ (p.dmaBase - p.fifoBase).toNat)

/-- The example parameters of 95_test_vectors.md, and the spec's value of U4: what `State.reset` holds. Assumption log 1,
DESIGN CHOICE. -/
def sample : Platform :=
  { ch := 32, nblk := 3, dmaBase := 0x40001000#32, fifoBase := 0x40002000#32,
    ram := [⟨0x20000000, 0x10000⟩], prot := [], arbTie := .lowest, movers := [],
    basicBuys := .period, pingpongBuys := .period }

end Platform

end Sys2Proof
end

