-- ==== Sys2Proof/Syntax.lean ====
section
/-! DEFINITION. The instructions: one constructor for each row of spec/opcode_table.json (30_encoding.md R160), the
descriptor's operands (R130 to R140), and the host accesses a register instruction is made of (00_scope.md R17). -/

namespace Sys2Proof

/-- The two halves of the descriptor table (00_scope.md R20, 10_state.md R37). -/
inductive Half where
  | primary
  | alternate
  deriving DecidableEq, Repr

/-- `wid` codes (30_encoding.md R135). -/
inductive WidthCode where
  | byte1
  | byte2
  | byte4
  | reserved
  deriving DecidableEq, Repr

/-- `sinc` and `dinc` codes (30_encoding.md R136); `stay` is the source's `none`. -/
inductive IncCode where
  | inc1
  | inc2
  | inc4
  | stay
  deriving DecidableEq, Repr

/-- The operands of a descriptor (30_encoding.md R132, R133). Reserved bits and word 3 are ignored (R140) and are no
operands (assumption log 36). -/
structure Desc where
  /-- word 0, `source_end_address` -/
  srcEnd : Word
  /-- word 1, `dest_end_address` -/
  dstEnd : Word
  /-- `transfer_count_minus_one` -/
  nm1 : BitVec 10
  /-- `arbitration_power` -/
  rpow : BitVec 4
  /-- `unit_width` -/
  wid : WidthCode
  /-- `source_increment` -/
  sinc : IncCode
  /-- `dest_increment` -/
  dinc : IncCode
  deriving DecidableEq, Repr

/-- The instructions of spec/opcode_table.json, one constructor a row, in the table's order. `v` is the value written,
`id` the FIFO channel whose register group is accessed. -/
inductive Instr where
  /-- `STOP` (R218). -/
  | stop (d : Desc)
  /-- `BASIC` (R226). -/
  | basic (d : Desc)
  /-- `AUTOREQ` (R227). -/
  | autoreq (d : Desc)
  /-- `PINGPONG` (R251). -/
  | pingpong (d : Desc)
  /-- `SGPRI` (R272). -/
  | sgpri (d : Desc)
  /-- `SGALT` (R274). -/
  | sgalt (d : Desc)
  /-- `RSVD6` (R218). -/
  | rsvd6 (d : Desc)
  /-- `RSVD7` (R218). -/
  | rsvd7 (d : Desc)
  /-- `DMA_BASE_PTR.W` (R200). -/
  | dmaBasePtrW (v : Word)
  /-- `DMA_BASE_PTR.R` (R200). -/
  | dmaBasePtrR
  /-- `DMA_ALT_BASE_PTR.R` (R201). -/
  | dmaAltBasePtrR
  /-- `DMA_ALT_BASE_PTR.W` (R201). -/
  | dmaAltBasePtrW (v : Word)
  /-- `DMA_EN_SET.W` (R202). -/
  | dmaEnSetW (v : Word)
  /-- `DMA_EN_SET.R` (R202). -/
  | dmaEnSetR
  /-- `DMA_EN_STAT.W` (R205). -/
  | dmaEnStatW (v : Word)
  /-- `DMA_EN_STAT.R` (R205). -/
  | dmaEnStatR
  /-- `DMA_SWUNMASK_SET.W` (R203). -/
  | dmaSwunmaskSetW (v : Word)
  /-- `DMA_SWUNMASK_SET.R` (R203). -/
  | dmaSwunmaskSetR
  /-- `DMA_SWUNMASK_CLR.W` (R203). -/
  | dmaSwunmaskClrW (v : Word)
  /-- `DMA_SWUNMASK_CLR.R` (R203). -/
  | dmaSwunmaskClrR
  /-- `DMA_PRI_SET.W` (R204). -/
  | dmaPriSetW (v : Word)
  /-- `DMA_PRI_SET.R` (R204). -/
  | dmaPriSetR
  /-- `DMA_PRI_CLR.W` (R204). -/
  | dmaPriClrW (v : Word)
  /-- `DMA_PRI_CLR.R` (R204). -/
  | dmaPriClrR
  /-- `DMA_ALT_SET.W` (R206). -/
  | dmaAltSetW (v : Word)
  /-- `DMA_ALT_SET.R` (R206). -/
  | dmaAltSetR
  /-- `DMA_ALT_CLR.W` (R206). -/
  | dmaAltClrW (v : Word)
  /-- `DMA_ALT_CLR.R` (R206). -/
  | dmaAltClrR
  /-- `DMA_DONE_IEN_SET.W` (R207). -/
  | dmaDoneIenSetW (v : Word)
  /-- `DMA_DONE_IEN_SET.R` (R207). -/
  | dmaDoneIenSetR
  /-- `DMA_DONE_IEN_CLR.W` (R207). -/
  | dmaDoneIenClrW (v : Word)
  /-- `DMA_DONE_IEN_CLR.R` (R207). -/
  | dmaDoneIenClrR
  /-- `DMA_SWREQ.W` (R208). -/
  | dmaSwreqW (v : Word)
  /-- `DMA_SWREQ.R` (R208). -/
  | dmaSwreqR
  /-- `DMA_BUSERR_STAT.W` (R209). -/
  | dmaBuserrStatW (v : Word)
  /-- `DMA_BUSERR_STAT.R` (R209). -/
  | dmaBuserrStatR
  /-- `DMA_INVDESC_STAT.W` (R209). -/
  | dmaInvdescStatW (v : Word)
  /-- `DMA_INVDESC_STAT.R` (R209). -/
  | dmaInvdescStatR
  /-- `DMA_DONE_STAT.W` (R209). -/
  | dmaDoneStatW (v : Word)
  /-- `DMA_DONE_STAT.R` (R209). -/
  | dmaDoneStatR
  /-- `FIFO_INIT.W` (R305). -/
  | fifoInitW (id : FifoId) (v : Word)
  /-- `FIFO_INIT.R` (R306). -/
  | fifoInitR (id : FifoId)
  /-- `FIFO_CTRL.W` (R310). -/
  | fifoCtrlW (id : FifoId) (v : Word)
  /-- `FIFO_CTRL.R` (R310). -/
  | fifoCtrlR (id : FifoId)
  /-- `FIFO_AF_THR.W` (R330). -/
  | fifoAfThrW (id : FifoId) (v : Word)
  /-- `FIFO_AF_THR.R` (R330). -/
  | fifoAfThrR (id : FifoId)
  /-- `FIFO_AE_THR.W` (R330). -/
  | fifoAeThrW (id : FifoId) (v : Word)
  /-- `FIFO_AE_THR.R` (R330). -/
  | fifoAeThrR (id : FifoId)
  /-- `FIFO_DL_LEN.W` (R335). -/
  | fifoDlLenW (id : FifoId) (v : Word)
  /-- `FIFO_DL_LEN.R` (R335). -/
  | fifoDlLenR (id : FifoId)
  /-- `FIFO_RDPTR.W` (R331). -/
  | fifoRdptrW (id : FifoId) (v : Word)
  /-- `FIFO_RDPTR.R` (R331). -/
  | fifoRdptrR (id : FifoId)
  /-- `FIFO_WRPTR.W` (R331). -/
  | fifoWrptrW (id : FifoId) (v : Word)
  /-- `FIFO_WRPTR.R` (R331). -/
  | fifoWrptrR (id : FifoId)
  /-- `FIFO_USED.W` (R327). -/
  | fifoUsedW (id : FifoId) (v : Word)
  /-- `FIFO_USED.R` (R327). -/
  | fifoUsedR (id : FifoId)
  /-- `FIFO_STAT.W` (R332). -/
  | fifoStatW (id : FifoId) (v : Word)
  /-- `FIFO_STAT.R` (R332). -/
  | fifoStatR (id : FifoId)
  /-- `PORTW16` (R320). -/
  | portW16 (id : FifoId) (v : Half16)
  /-- `PORTW32` (R320). -/
  | portW32 (id : FifoId) (v : Word)
  /-- `PORTR16` (R322). -/
  | portR16 (id : FifoId)
  /-- `PORTR32` (R322). -/
  | portR32 (id : FifoId)
  /-- `FIFO_RSVD_28.W` (R161). -/
  | fifoRsvd28W (id : FifoId) (v : Word)
  /-- `FIFO_RSVD_28.R` (R161). -/
  | fifoRsvd28R (id : FifoId)
  /-- `FIFO_RSVD_2C.W` (R161). -/
  | fifoRsvd2cW (id : FifoId) (v : Word)
  /-- `FIFO_RSVD_2C.R` (R161). -/
  | fifoRsvd2cR (id : FifoId)
  /-- `FIFO_RSVD_30.W` (R161). -/
  | fifoRsvd30W (id : FifoId) (v : Word)
  /-- `FIFO_RSVD_30.R` (R161). -/
  | fifoRsvd30R (id : FifoId)
  /-- `FIFO_RSVD_34.W` (R161). -/
  | fifoRsvd34W (id : FifoId) (v : Word)
  /-- `FIFO_RSVD_34.R` (R161). -/
  | fifoRsvd34R (id : FifoId)
  /-- `FIFO_RSVD_38.W` (R161). -/
  | fifoRsvd38W (id : FifoId) (v : Word)
  /-- `FIFO_RSVD_38.R` (R161). -/
  | fifoRsvd38R (id : FifoId)
  /-- `FIFO_RSVD_3C.W` (R161). -/
  | fifoRsvd3cW (id : FifoId) (v : Word)
  /-- `FIFO_RSVD_3C.R` (R161). -/
  | fifoRsvd3cR (id : FifoId)
  deriving DecidableEq, Repr

/-- The host access primitives (00_scope.md R17). `RMW32` is two of them. -/
inductive HostOp where
  | rd32 (a : Word)
  | wr32 (a v : Word)
  | rd16 (a : Word)
  | wr16 (a : Word) (v : Half16)
  | fence
  deriving DecidableEq, Repr

/-- What the decoder is given: the bytes of a descriptor (format `DESC`), or a host access (formats `REGW`, `REGR`,
`PORTW16`, `PORTW32`, `PORTR16`, `PORTR32`; 30_encoding.md R130, R131). -/
inductive Code where
  | desc (bytes : List Byte)
  | access (op : HostOp)
  deriving DecidableEq, Repr

/-- The steps of a mover (44_fifo_ring.md R343): a port access of the correct size. -/
inductive MoverOp where
  | push (id : FifoId) (v : Word)
  | pop (id : FifoId)
  deriving DecidableEq, Repr

/-- The interrupt outputs (10_state.md R47, R58). -/
inductive IrqLine where
  | dma
  | fifo (id : FifoId)
  deriving DecidableEq, Repr

/-- One turn of an agent (00_scope.md R19). The machine's agenda is a list of these (assumption log 2). -/
inductive Turn where
  /-- The host makes an access. -/
  | host (op : HostOp)
  /-- The sequencer takes its next bus access or period end, if it has one. -/
  | seq
  /-- The environment event `HwReq(c)` (10_state.md R33). -/
  | hwReq (c : Chan)
  /-- The `i`-th pending host write becomes visible, if it may (20_memory.md R108). -/
  | drain (i : Nat)
  /-- Mover `m` takes a step (44_fifo_ring.md R343). -/
  | mover (m : Nat) (op : MoverOp)
  /-- The platform delivers an interrupt line to the host's handler, if the line is 1 (60_exceptions.md R378). -/
  | deliver (line : IrqLine)
  /-- The one external reset (70_reset_and_hazards.md R411). -/
  | blockReset
  deriving DecidableEq, Repr

end Sys2Proof
end

