-- ==== Sys2Proof/WellFormed.lean ====
section
/-! DEFINITION. When an instruction can be encoded on a platform. (When a descriptor is one the builder makes is a
question of 40_descriptor_builder.md, in Machine/Builder.lean; when the sequencer may run it is R139, in
Machine/Operands.lean.) -/

namespace Sys2Proof

/-- The FIFO channel whose register group a FIFO instruction accesses. -/
def Instr.fifoId? : Instr → Option FifoId
  | .stop _ => none
  | .basic _ => none
  | .autoreq _ => none
  | .pingpong _ => none
  | .sgpri _ => none
  | .sgalt _ => none
  | .rsvd6 _ => none
  | .rsvd7 _ => none
  | .dmaBasePtrW _ => none
  | .dmaBasePtrR => none
  | .dmaAltBasePtrR => none
  | .dmaAltBasePtrW _ => none
  | .dmaEnSetW _ => none
  | .dmaEnSetR => none
  | .dmaEnStatW _ => none
  | .dmaEnStatR => none
  | .dmaSwunmaskSetW _ => none
  | .dmaSwunmaskSetR => none
  | .dmaSwunmaskClrW _ => none
  | .dmaSwunmaskClrR => none
  | .dmaPriSetW _ => none
  | .dmaPriSetR => none
  | .dmaPriClrW _ => none
  | .dmaPriClrR => none
  | .dmaAltSetW _ => none
  | .dmaAltSetR => none
  | .dmaAltClrW _ => none
  | .dmaAltClrR => none
  | .dmaDoneIenSetW _ => none
  | .dmaDoneIenSetR => none
  | .dmaDoneIenClrW _ => none
  | .dmaDoneIenClrR => none
  | .dmaSwreqW _ => none
  | .dmaSwreqR => none
  | .dmaBuserrStatW _ => none
  | .dmaBuserrStatR => none
  | .dmaInvdescStatW _ => none
  | .dmaInvdescStatR => none
  | .dmaDoneStatW _ => none
  | .dmaDoneStatR => none
  | .fifoInitW id _ => some id
  | .fifoInitR id => some id
  | .fifoCtrlW id _ => some id
  | .fifoCtrlR id => some id
  | .fifoAfThrW id _ => some id
  | .fifoAfThrR id => some id
  | .fifoAeThrW id _ => some id
  | .fifoAeThrR id => some id
  | .fifoDlLenW id _ => some id
  | .fifoDlLenR id => some id
  | .fifoRdptrW id _ => some id
  | .fifoRdptrR id => some id
  | .fifoWrptrW id _ => some id
  | .fifoWrptrR id => some id
  | .fifoUsedW id _ => some id
  | .fifoUsedR id => some id
  | .fifoStatW id _ => some id
  | .fifoStatR id => some id
  | .portW16 id _ => some id
  | .portW32 id _ => some id
  | .portR16 id => some id
  | .portR32 id => some id
  | .fifoRsvd28W id _ => some id
  | .fifoRsvd28R id => some id
  | .fifoRsvd2cW id _ => some id
  | .fifoRsvd2cR id => some id
  | .fifoRsvd30W id _ => some id
  | .fifoRsvd30R id => some id
  | .fifoRsvd34W id _ => some id
  | .fifoRsvd34R id => some id
  | .fifoRsvd38W id _ => some id
  | .fifoRsvd38R id => some id
  | .fifoRsvd3cW id _ => some id
  | .fifoRsvd3cR id => some id

/-- An instruction can be encoded: a FIFO instruction names a block the platform has (00_scope.md R10). Every other
operand fills its field exactly. -/
def Instr.wf (p : Platform) (i : Instr) : Bool :=
  match i.fifoId? with
  | some id => decide (id.blk.val < p.nblk)
  | none => true

end Sys2Proof
end

