-- ==== Sys2Proof/Decode.lean ====
section
/-! DEFINITION. The decoder, total on any bytes and any host access, and the encoder (30_encoding.md). -/

namespace Sys2Proof

/-- Why something is no instruction. -/
inductive DecodeError where
  /-- A descriptor is 16 bytes (30_encoding.md R130). -/
  | descriptorLength
  /-- The access is to no register of the block: RAM, or an address mapped to nothing. -/
  | notARegister
  /-- An unaligned access to a register (20_memory.md R101, U12). -/
  | unalignedRegister
  /-- A 16-bit access to a register other than `FIFO_PORT` (20_memory.md R95, U12). -/
  | halfwordRegister
  /-- `FENCE` is a host step and accesses nothing (20_memory.md R108). -/
  | fenceIsNoAccess
  deriving DecidableEq, Repr

/-! ### The layout the spec fixes by decision (00_scope.md R12): byte order, fields of the control word, registers -/

/-- The two byte orders. -/
inductive ByteOrder where
  | little
  | big
  deriving DecidableEq, Repr

/-- The byte order, of memory and of the FIFO-SRAM alike: little-endian, not switchable (00_scope.md R12, 20_memory.md
R95). -/
def Layout.byteOrder : ByteOrder := .little

/-- Bytes least significant first as they lie at rising addresses, and back. -/
def inByteOrder (bs : List Byte) : List Byte :=
  match Layout.byteOrder with
  | .little => bs
  | .big => bs.reverse

/-- The value of bytes, the first the least significant. -/
def wordOfLow : List Byte → Word
  | [] => 0#32
  | b :: bs => (b.setWidth 32) ||| (wordOfLow bs <<< 8)

/-- The `n` low bytes of a value, the least significant first. -/
def lowBytes (n : Nat) (v : Word) : List Byte :=
  (List.range n).map fun k => (v >>> (8 * k)).setWidth 8

/-- The value bytes at rising addresses stand for (20_memory.md R95). -/
def wordOfBytes (bs : List Byte) : Word := wordOfLow (inByteOrder bs)

/-- The `n` bytes of a value at rising addresses (20_memory.md R95). -/
def bytesOfWord (n : Nat) (v : Word) : List Byte := inByteOrder (lowBytes n v)

/-- The words of a descriptor by their index (30_encoding.md R130). -/
abbrev Layout.srcWord : Nat := 0

/-- The words of a descriptor by their index (30_encoding.md R130). -/
abbrev Layout.dstWord : Nat := 1

/-- The words of a descriptor by their index (30_encoding.md R130). -/
abbrev Layout.controlWord : Nat := 2

/-- The lowest bit of `cyc` in the control word (30_encoding.md R133); the field has 3 bits. -/
abbrev Layout.cycPos : Nat := 0

/-- The lowest bit of `nm1` in the control word (30_encoding.md R133); the field has 10 bits. -/
abbrev Layout.nm1Pos : Nat := 4

/-- The lowest bit of `rpow` in the control word (30_encoding.md R133); the field has 4 bits. -/
abbrev Layout.rpowPos : Nat := 14

/-- The lowest bit of `wid` in the control word (30_encoding.md R133); the field has 2 bits. -/
abbrev Layout.widPos : Nat := 24

/-- The lowest bit of `sinc` in the control word (30_encoding.md R133); the field has 2 bits. -/
abbrev Layout.sincPos : Nat := 26

/-- The lowest bit of `dinc` in the control word (30_encoding.md R133); the field has 2 bits. -/
abbrev Layout.dincPos : Nat := 30

/-- The registers of the DMA block (30_encoding.md R145). -/
inductive DmaRegister where
  | basePtr
  | altBasePtr
  | enSet
  | enStat
  | swunmaskSet
  | swunmaskClr
  | priSet
  | priClr
  | altSet
  | altClr
  | doneIenSet
  | doneIenClr
  | swreq
  | buserrStat
  | invdescStat
  | doneStat
  deriving DecidableEq, Repr

/-- The offset of a register in the DMA block (30_encoding.md R145). -/
def DmaRegister.offset : DmaRegister → Nat
  | .basePtr => 0x00
  | .altBasePtr => 0x04
  | .enSet => 0x08
  | .enStat => 0x0C
  | .swunmaskSet => 0x10
  | .swunmaskClr => 0x14
  | .priSet => 0x18
  | .priClr => 0x1C
  | .altSet => 0x20
  | .altClr => 0x24
  | .doneIenSet => 0x28
  | .doneIenClr => 0x2C
  | .swreq => 0x30
  | .buserrStat => 0x34
  | .invdescStat => 0x38
  | .doneStat => 0x3C

/-- All registers of the DMA block. -/
def dmaRegisters : List DmaRegister :=
  [.basePtr, .altBasePtr, .enSet, .enStat, .swunmaskSet, .swunmaskClr, .priSet, .priClr,
   .altSet, .altClr, .doneIenSet, .doneIenClr, .swreq, .buserrStat, .invdescStat, .doneStat]

/-- The register at an offset of the DMA block. -/
def dmaRegisterAt? (off : Nat) : Option DmaRegister := dmaRegisters.find? fun r => decide (r.offset = off)

/-- The registers of a FIFO channel's group, the reserved offsets among them (30_encoding.md R150). -/
inductive FifoRegister where
  | init
  | ctrl
  | afThr
  | aeThr
  | dlLen
  | rdptr
  | wrptr
  | used
  | stat
  | port
  | rsvd28
  | rsvd2c
  | rsvd30
  | rsvd34
  | rsvd38
  | rsvd3c
  deriving DecidableEq, Repr

/-- The offset of a register in a FIFO channel's group (30_encoding.md R150). -/
def FifoRegister.offset : FifoRegister → Nat
  | .init => 0x00
  | .ctrl => 0x04
  | .afThr => 0x08
  | .aeThr => 0x0C
  | .dlLen => 0x10
  | .rdptr => 0x14
  | .wrptr => 0x18
  | .used => 0x1C
  | .stat => 0x20
  | .port => 0x24
  | .rsvd28 => 0x28
  | .rsvd2c => 0x2C
  | .rsvd30 => 0x30
  | .rsvd34 => 0x34
  | .rsvd38 => 0x38
  | .rsvd3c => 0x3C

/-- All registers of a FIFO channel's group. -/
def fifoRegisters : List FifoRegister :=
  [.init, .ctrl, .afThr, .aeThr, .dlLen, .rdptr, .wrptr, .used, .stat,
   .port, .rsvd28, .rsvd2c, .rsvd30, .rsvd34, .rsvd38, .rsvd3c]

/-- The register at an offset of a FIFO channel's group. -/
def fifoRegisterAt? (off : Nat) : Option FifoRegister := fifoRegisters.find? fun r => decide (r.offset = off)

/-! ### Descriptors -/

/-- `wid` codes (30_encoding.md R135). -/
def WidthCode.ofBits (b : BitVec 2) : WidthCode :=
  if b = 0#2 then .byte1 else if b = 1#2 then .byte2 else if b = 2#2 then .byte4 else .reserved

/-- `wid` codes (30_encoding.md R135). -/
def WidthCode.toBits : WidthCode → BitVec 2
  | .byte1 => 0#2
  | .byte2 => 1#2
  | .byte4 => 2#2
  | .reserved => 3#2

/-- `sinc` and `dinc` codes (30_encoding.md R136). -/
def IncCode.ofBits (b : BitVec 2) : IncCode :=
  if b = 0#2 then .inc1 else if b = 1#2 then .inc2 else if b = 2#2 then .inc4 else .stay

/-- `sinc` and `dinc` codes (30_encoding.md R136). -/
def IncCode.toBits : IncCode → BitVec 2
  | .inc1 => 0#2
  | .inc2 => 1#2
  | .inc4 => 2#2
  | .stay => 3#2

/-- The control word's fields (30_encoding.md R133). -/
def descOfWords (w0 w1 w2 : Word) : Desc :=
  { srcEnd := w0, dstEnd := w1,
    nm1 := w2.extractLsb' Layout.nm1Pos 10, rpow := w2.extractLsb' Layout.rpowPos 4,
    wid := WidthCode.ofBits (w2.extractLsb' Layout.widPos 2),
    sinc := IncCode.ofBits (w2.extractLsb' Layout.sincPos 2),
    dinc := IncCode.ofBits (w2.extractLsb' Layout.dincPos 2) }

/-- The instruction three fetched words hold, selected by the cycle type, control[2:0] (30_encoding.md R134, R160). Every
code is a row of the table, so this decoder refuses nothing. -/
def decodeWords (w0 w1 w2 : Word) : Instr :=
  let d := descOfWords w0 w1 w2
  let cyc := w2.extractLsb' Layout.cycPos 3
  if cyc = 0#3 then .stop d
  else if cyc = 1#3 then .basic d
  else if cyc = 2#3 then .autoreq d
  else if cyc = 3#3 then .pingpong d
  else if cyc = 4#3 then .sgpri d
  else if cyc = 5#3 then .sgalt d
  else if cyc = 6#3 then .rsvd6 d
  else .rsvd7 d

/-- Word `i` of a descriptor's bytes (30_encoding.md R130). -/
def descWord (bytes : List Byte) (i : Nat) : Word :=
  wordOfBytes ((bytes.drop (Config.wordBytes * i)).take Config.wordBytes)

/-- The instruction in the bytes of a descriptor (30_encoding.md R130). Word 3 is ignored (R140). -/
def decodeDesc (bytes : List Byte) : Except DecodeError Instr :=
  if bytes.length = Config.descBytes then
    .ok (decodeWords (descWord bytes Layout.srcWord) (descWord bytes Layout.dstWord) (descWord bytes Layout.controlWord))
  else .error .descriptorLength

/-! ### Register accesses -/

/-- A 32-bit write of a register of the DMA block (30_encoding.md R145). -/
def dmaWriteInstr (r : DmaRegister) (v : Word) : Instr :=
  match r with
  | .basePtr => .dmaBasePtrW v
  | .altBasePtr => .dmaAltBasePtrW v
  | .enSet => .dmaEnSetW v
  | .enStat => .dmaEnStatW v
  | .swunmaskSet => .dmaSwunmaskSetW v
  | .swunmaskClr => .dmaSwunmaskClrW v
  | .priSet => .dmaPriSetW v
  | .priClr => .dmaPriClrW v
  | .altSet => .dmaAltSetW v
  | .altClr => .dmaAltClrW v
  | .doneIenSet => .dmaDoneIenSetW v
  | .doneIenClr => .dmaDoneIenClrW v
  | .swreq => .dmaSwreqW v
  | .buserrStat => .dmaBuserrStatW v
  | .invdescStat => .dmaInvdescStatW v
  | .doneStat => .dmaDoneStatW v

/-- A 32-bit write at an offset of the DMA block. -/
def dmaWriteAt (off : Nat) (v : Word) : Except DecodeError Instr :=
  match dmaRegisterAt? off with
  | some r => .ok (dmaWriteInstr r v)
  | none => .error .unalignedRegister

/-- A 32-bit read of a register of the DMA block (30_encoding.md R145). -/
def dmaReadInstr (r : DmaRegister) : Instr :=
  match r with
  | .basePtr => .dmaBasePtrR
  | .altBasePtr => .dmaAltBasePtrR
  | .enSet => .dmaEnSetR
  | .enStat => .dmaEnStatR
  | .swunmaskSet => .dmaSwunmaskSetR
  | .swunmaskClr => .dmaSwunmaskClrR
  | .priSet => .dmaPriSetR
  | .priClr => .dmaPriClrR
  | .altSet => .dmaAltSetR
  | .altClr => .dmaAltClrR
  | .doneIenSet => .dmaDoneIenSetR
  | .doneIenClr => .dmaDoneIenClrR
  | .swreq => .dmaSwreqR
  | .buserrStat => .dmaBuserrStatR
  | .invdescStat => .dmaInvdescStatR
  | .doneStat => .dmaDoneStatR

/-- A 32-bit read at an offset of the DMA block. -/
def dmaReadAt (off : Nat) : Except DecodeError Instr :=
  match dmaRegisterAt? off with
  | some r => .ok (dmaReadInstr r)
  | none => .error .unalignedRegister

/-- A 32-bit write of a register of a FIFO channel's group (30_encoding.md R150, R156, R161). -/
def fifoWriteInstr (id : FifoId) (r : FifoRegister) (v : Word) : Instr :=
  match r with
  | .init => .fifoInitW id v
  | .ctrl => .fifoCtrlW id v
  | .afThr => .fifoAfThrW id v
  | .aeThr => .fifoAeThrW id v
  | .dlLen => .fifoDlLenW id v
  | .rdptr => .fifoRdptrW id v
  | .wrptr => .fifoWrptrW id v
  | .used => .fifoUsedW id v
  | .stat => .fifoStatW id v
  | .port => .portW32 id v
  | .rsvd28 => .fifoRsvd28W id v
  | .rsvd2c => .fifoRsvd2cW id v
  | .rsvd30 => .fifoRsvd30W id v
  | .rsvd34 => .fifoRsvd34W id v
  | .rsvd38 => .fifoRsvd38W id v
  | .rsvd3c => .fifoRsvd3cW id v

/-- A 32-bit write at an offset of a FIFO channel's group. -/
def fifoWriteAt (id : FifoId) (off : Nat) (v : Word) : Except DecodeError Instr :=
  match fifoRegisterAt? off with
  | some r => .ok (fifoWriteInstr id r v)
  | none => .error .unalignedRegister

/-- A 32-bit read of a register of a FIFO channel's group (30_encoding.md R150, R156, R161). -/
def fifoReadInstr (id : FifoId) (r : FifoRegister) : Instr :=
  match r with
  | .init => .fifoInitR id
  | .ctrl => .fifoCtrlR id
  | .afThr => .fifoAfThrR id
  | .aeThr => .fifoAeThrR id
  | .dlLen => .fifoDlLenR id
  | .rdptr => .fifoRdptrR id
  | .wrptr => .fifoWrptrR id
  | .used => .fifoUsedR id
  | .stat => .fifoStatR id
  | .port => .portR32 id
  | .rsvd28 => .fifoRsvd28R id
  | .rsvd2c => .fifoRsvd2cR id
  | .rsvd30 => .fifoRsvd30R id
  | .rsvd34 => .fifoRsvd34R id
  | .rsvd38 => .fifoRsvd38R id
  | .rsvd3c => .fifoRsvd3cR id

/-- A 32-bit read at an offset of a FIFO channel's group. -/
def fifoReadAt (id : FifoId) (off : Nat) : Except DecodeError Instr :=
  match fifoRegisterAt? off with
  | some r => .ok (fifoReadInstr id r)
  | none => .error .unalignedRegister

/-- A 16-bit access at an offset of a FIFO channel's group: only `FIFO_PORT` has a 16-bit view (30_encoding.md R156,
20_memory.md R95, U12). -/
def fifoHalfAt (off : Nat) (i : Instr) : Except DecodeError Instr :=
  if off = FifoRegister.port.offset then .ok i else if off % 2 = 0 then .error .halfwordRegister else .error .unalignedRegister

/-- The offset of an address in the DMA block (30_encoding.md R144). -/
def Platform.dmaOffset? (p : Platform) (a : Word) : Option Nat :=
  let d := (a - p.dmaBase).toNat
  if d < Config.dmaBlockBytes then some d else none

/-- The FIFO channel and the offset in its group of an address in the FIFO register block (30_encoding.md R150). -/
def Platform.fifoOffset? (p : Platform) (a : Word) : Option (FifoId × Nat) :=
  let d := (a - p.fifoBase).toNat
  if d < p.nblk * Config.fifoChannels * Config.fifoGroupBytes then
    some (⟨Fin.ofNat 3 (d / Config.fifoGroupBytes / Config.fifoChannels), Fin.ofNat 4 (d / Config.fifoGroupBytes)⟩,
      d % Config.fifoGroupBytes)
  else none

/-- A 32-bit host write to a register (30_encoding.md R131). -/
def decodeWrite32 (p : Platform) (a v : Word) : Except DecodeError Instr :=
  match p.dmaOffset? a with
  | some off => dmaWriteAt off v
  | none =>
    match p.fifoOffset? a with
    | some (id, off) => fifoWriteAt id off v
    | none => .error .notARegister

/-- A 32-bit host read of a register (30_encoding.md R131). -/
def decodeRead32 (p : Platform) (a : Word) : Except DecodeError Instr :=
  match p.dmaOffset? a with
  | some off => dmaReadAt off
  | none =>
    match p.fifoOffset? a with
    | some (id, off) => fifoReadAt id off
    | none => .error .notARegister

/-- A 16-bit host access to a register: `i` builds the instruction of the 16-bit port view (30_encoding.md R156). -/
def decode16 (p : Platform) (a : Word) (i : FifoId → Instr) : Except DecodeError Instr :=
  match p.dmaOffset? a with
  | some off => if off % 2 = 0 then .error .halfwordRegister else .error .unalignedRegister
  | none =>
    match p.fifoOffset? a with
    | some (id, off) => fifoHalfAt off (i id)
    | none => .error .notARegister

/-- The instruction a host access makes (00_scope.md R17, 30_encoding.md R131). -/
def decodeAccess (p : Platform) (op : HostOp) : Except DecodeError Instr :=
  match op with
  | .wr32 a v => decodeWrite32 p a v
  | .rd32 a => decodeRead32 p a
  | .wr16 a v => decode16 p a (fun id => .portW16 id v)
  | .rd16 a => decode16 p a .portR16
  | .fence => .error .fenceIsNoAccess

/-- The decoder. -/
def decode (p : Platform) (c : Code) : Except DecodeError Instr :=
  match c with
  | .desc bytes => decodeDesc bytes
  | .access op => decodeAccess p op

/-- The control word of a descriptor (30_encoding.md R133): reserved bits are written 0 (R140). -/
def controlWord (cyc : BitVec 3) (d : Desc) : Word :=
  cyc.setWidth 32 <<< Layout.cycPos ||| d.nm1.setWidth 32 <<< Layout.nm1Pos ||| d.rpow.setWidth 32 <<< Layout.rpowPos |||
  d.wid.toBits.setWidth 32 <<< Layout.widPos ||| d.sinc.toBits.setWidth 32 <<< Layout.sincPos |||
  d.dinc.toBits.setWidth 32 <<< Layout.dincPos

/-- The four words of a descriptor (30_encoding.md R130). -/
def wordsOfDesc (cyc : BitVec 3) (d : Desc) : List Word := [d.srcEnd, d.dstEnd, controlWord cyc d, 0#32]

/-- The 16 bytes of a descriptor, each word little-endian (30_encoding.md R130). -/
def encodeDesc (cyc : BitVec 3) (d : Desc) : Code := .desc ((wordsOfDesc cyc d).flatMap (bytesOfWord Config.wordBytes))

/-- The address of a register of the DMA block (30_encoding.md R145). -/
def Platform.dmaReg (p : Platform) (r : DmaRegister) : Word := p.dmaBase + BitVec.ofNat 32 r.offset

/-- The address of a register of a FIFO channel (30_encoding.md R150). -/
def Platform.fifoReg (p : Platform) (id : FifoId) (r : FifoRegister) : Word :=
  p.fifoBase + BitVec.ofNat 32 ((Config.fifoChannels * id.blk.val + id.chan.val) * Config.fifoGroupBytes + r.offset)

/-- The encoder: a descriptor's bytes, or the host access that makes a register instruction. -/
def encode (p : Platform) (i : Instr) : Code :=
  match i with
  | .stop d => encodeDesc 0#3 d
  | .basic d => encodeDesc 1#3 d
  | .autoreq d => encodeDesc 2#3 d
  | .pingpong d => encodeDesc 3#3 d
  | .sgpri d => encodeDesc 4#3 d
  | .sgalt d => encodeDesc 5#3 d
  | .rsvd6 d => encodeDesc 6#3 d
  | .rsvd7 d => encodeDesc 7#3 d
  | .dmaBasePtrW v => .access (.wr32 (p.dmaReg .basePtr) v)
  | .dmaBasePtrR => .access (.rd32 (p.dmaReg .basePtr))
  | .dmaAltBasePtrR => .access (.rd32 (p.dmaReg .altBasePtr))
  | .dmaAltBasePtrW v => .access (.wr32 (p.dmaReg .altBasePtr) v)
  | .dmaEnSetW v => .access (.wr32 (p.dmaReg .enSet) v)
  | .dmaEnSetR => .access (.rd32 (p.dmaReg .enSet))
  | .dmaEnStatW v => .access (.wr32 (p.dmaReg .enStat) v)
  | .dmaEnStatR => .access (.rd32 (p.dmaReg .enStat))
  | .dmaSwunmaskSetW v => .access (.wr32 (p.dmaReg .swunmaskSet) v)
  | .dmaSwunmaskSetR => .access (.rd32 (p.dmaReg .swunmaskSet))
  | .dmaSwunmaskClrW v => .access (.wr32 (p.dmaReg .swunmaskClr) v)
  | .dmaSwunmaskClrR => .access (.rd32 (p.dmaReg .swunmaskClr))
  | .dmaPriSetW v => .access (.wr32 (p.dmaReg .priSet) v)
  | .dmaPriSetR => .access (.rd32 (p.dmaReg .priSet))
  | .dmaPriClrW v => .access (.wr32 (p.dmaReg .priClr) v)
  | .dmaPriClrR => .access (.rd32 (p.dmaReg .priClr))
  | .dmaAltSetW v => .access (.wr32 (p.dmaReg .altSet) v)
  | .dmaAltSetR => .access (.rd32 (p.dmaReg .altSet))
  | .dmaAltClrW v => .access (.wr32 (p.dmaReg .altClr) v)
  | .dmaAltClrR => .access (.rd32 (p.dmaReg .altClr))
  | .dmaDoneIenSetW v => .access (.wr32 (p.dmaReg .doneIenSet) v)
  | .dmaDoneIenSetR => .access (.rd32 (p.dmaReg .doneIenSet))
  | .dmaDoneIenClrW v => .access (.wr32 (p.dmaReg .doneIenClr) v)
  | .dmaDoneIenClrR => .access (.rd32 (p.dmaReg .doneIenClr))
  | .dmaSwreqW v => .access (.wr32 (p.dmaReg .swreq) v)
  | .dmaSwreqR => .access (.rd32 (p.dmaReg .swreq))
  | .dmaBuserrStatW v => .access (.wr32 (p.dmaReg .buserrStat) v)
  | .dmaBuserrStatR => .access (.rd32 (p.dmaReg .buserrStat))
  | .dmaInvdescStatW v => .access (.wr32 (p.dmaReg .invdescStat) v)
  | .dmaInvdescStatR => .access (.rd32 (p.dmaReg .invdescStat))
  | .dmaDoneStatW v => .access (.wr32 (p.dmaReg .doneStat) v)
  | .dmaDoneStatR => .access (.rd32 (p.dmaReg .doneStat))
  | .fifoInitW id v => .access (.wr32 (p.fifoReg id .init) v)
  | .fifoInitR id => .access (.rd32 (p.fifoReg id .init))
  | .fifoCtrlW id v => .access (.wr32 (p.fifoReg id .ctrl) v)
  | .fifoCtrlR id => .access (.rd32 (p.fifoReg id .ctrl))
  | .fifoAfThrW id v => .access (.wr32 (p.fifoReg id .afThr) v)
  | .fifoAfThrR id => .access (.rd32 (p.fifoReg id .afThr))
  | .fifoAeThrW id v => .access (.wr32 (p.fifoReg id .aeThr) v)
  | .fifoAeThrR id => .access (.rd32 (p.fifoReg id .aeThr))
  | .fifoDlLenW id v => .access (.wr32 (p.fifoReg id .dlLen) v)
  | .fifoDlLenR id => .access (.rd32 (p.fifoReg id .dlLen))
  | .fifoRdptrW id v => .access (.wr32 (p.fifoReg id .rdptr) v)
  | .fifoRdptrR id => .access (.rd32 (p.fifoReg id .rdptr))
  | .fifoWrptrW id v => .access (.wr32 (p.fifoReg id .wrptr) v)
  | .fifoWrptrR id => .access (.rd32 (p.fifoReg id .wrptr))
  | .fifoUsedW id v => .access (.wr32 (p.fifoReg id .used) v)
  | .fifoUsedR id => .access (.rd32 (p.fifoReg id .used))
  | .fifoStatW id v => .access (.wr32 (p.fifoReg id .stat) v)
  | .fifoStatR id => .access (.rd32 (p.fifoReg id .stat))
  | .portW16 id v => .access (.wr16 (p.fifoReg id .port) v)
  | .portW32 id v => .access (.wr32 (p.fifoReg id .port) v)
  | .portR16 id => .access (.rd16 (p.fifoReg id .port))
  | .portR32 id => .access (.rd32 (p.fifoReg id .port))
  | .fifoRsvd28W id v => .access (.wr32 (p.fifoReg id .rsvd28) v)
  | .fifoRsvd28R id => .access (.rd32 (p.fifoReg id .rsvd28))
  | .fifoRsvd2cW id v => .access (.wr32 (p.fifoReg id .rsvd2c) v)
  | .fifoRsvd2cR id => .access (.rd32 (p.fifoReg id .rsvd2c))
  | .fifoRsvd30W id v => .access (.wr32 (p.fifoReg id .rsvd30) v)
  | .fifoRsvd30R id => .access (.rd32 (p.fifoReg id .rsvd30))
  | .fifoRsvd34W id v => .access (.wr32 (p.fifoReg id .rsvd34) v)
  | .fifoRsvd34R id => .access (.rd32 (p.fifoReg id .rsvd34))
  | .fifoRsvd38W id v => .access (.wr32 (p.fifoReg id .rsvd38) v)
  | .fifoRsvd38R id => .access (.rd32 (p.fifoReg id .rsvd38))
  | .fifoRsvd3cW id v => .access (.wr32 (p.fifoReg id .rsvd3c) v)
  | .fifoRsvd3cR id => .access (.rd32 (p.fifoReg id .rsvd3c))

/-- What the bits of spec/opcode_table.json stand for. The table numbers the bits of a descriptor's control word for a
`DESC` row, and the bits of a register's offset for the others; which of the two, the register block and the direction
are columns of the table, not bits, so one number can be the bits of several rows. The rule here (assumption log 30,
DESIGN CHOICE): 0x08, 0x0C, ..., 0x3C are offsets of the DMA block, written with 0, and every other number is the
control word of a descriptor whose other words are 0. -/
def tableCode (p : Platform) (w : Nat) : Code :=
  if 8 ≤ w ∧ w < Config.dmaBlockBytes ∧ w % 4 = 0 then .access (.wr32 (p.dmaBase + BitVec.ofNat 32 w) 0#32)
  else .desc ([0#32, 0#32, BitVec.ofNat 32 w, 0#32].flatMap (bytesOfWord Config.wordBytes))

/-- The instruction the decoder reads from the bits `w` of a row of spec/opcode_table.json, every bit above `nbits` 0, on
the example platform. -/
def decodeTableWord (nbits w : Nat) : Option Instr :=
  match decode Platform.sample (tableCode Platform.sample (w % 2 ^ nbits)) with
  | .ok i => some i
  | .error _ => none

end Sys2Proof
end

