-- ==== Sys2Proof/Machine/State.lean ====
section
/-! DEFINITION. The machine's state as plain data (10_state.md, 20_memory.md R108), why a step can stop, and the state
after reset (10_state.md R61). -/

namespace Sys2Proof.Machine

/-- Why the machine stops with a fault. -/
inductive Fault where
  /-- A host RAM access touches an address the platform maps to nothing (20_memory.md R92). Raised by the host turn.
  Safe: the machine stops where the spec gives the access no meaning (assumption log 23). -/
  | hostUnmapped
  deriving DecidableEq, Repr

/-- Why a step has no meaning. -/
inductive Refusal where
  /-- An instruction with no meaning yet. No arm answers it. Safe. -/
  | notModelled (mnemonic : String)
  /-- The decoder refuses a host access to a register: U12 of 93_implementation_defined.md (20_memory.md R95, R101).
  Raised by the host turn. Safe. -/
  | undecodable (e : DecodeError)
  /-- `SGPRI` fetched from the alternate half: U6 (41_channel_engine.md R217). Raised at admission. Safe. -/
  | sgPrimaryInAlternate
  /-- `SGALT` fetched from the primary half: U6 (41_channel_engine.md R217). Raised at admission. Safe. -/
  | sgAlternateInPrimary
  /-- `SGPRI` with other than the fixed fields, or a count that is no multiple of 4: U7 (41_channel_engine.md R217).
  Raised at admission. Safe. -/
  | sgMessageFields
  /-- A port access on a FIFO channel whose init word is out of bounds: U8 (44_fifo_ring.md R305). Safe. -/
  | fifoOutOfBounds
  /-- FIFO mode and delay-line mode together: U9 (10_state.md R53, 44_fifo_ring.md R310). Raised by the `FIFO_CTRL`
  write that would set both. Safe. -/
  | bothFifoModes
  /-- A port access whose size is not the configured unit: U10 (44_fifo_ring.md R324). Safe. -/
  | wrongPortView
  /-- An engine access to the DMA register block: U11 (20_memory.md R99). Safe. -/
  | engineInDmaBlock
  /-- An engine access to a FIFO register that is no access a host can make: 1 or 2 bytes, or inside a register
  (20_memory.md R99 with U12). Safe. -/
  | engineRegisterSize
  /-- An engine access that touches RAM and a register at once, which only a platform whose regions are not word-aligned
  can produce (assumption log 29). Safe. -/
  | splitAccess
  /-- `FIFO_INIT` written while the channel is in FIFO or delay-line mode: U13 (44_fifo_ring.md R305). Safe. -/
  | fifoInitWhileActive
  /-- Delay-line mode entered, or `FIFO_DL_LEN` written in it, with a length of 0 or above `len`: U14
  (44_fifo_ring.md R333). Safe. -/
  | delayLength
  deriving DecidableEq, Repr

/-- Sparse memory: (address, byte) pairs, addresses strictly rising. An unlisted address holds no value: nothing has
written it (20_memory.md R96, assumption log 4). -/
abbrev Memory := List Host.Cell

/-- `rem[c][P]` and `rem[c][A]` of one channel (10_state.md R45); `none` is `IDLE`. -/
structure Progress where
  pri : Option Nat
  alt : Option Nat
  deriving DecidableEq, Repr

/-- The three words of a descriptor as fetched (10_state.md R46). -/
structure RawDesc where
  w0 : Word
  w1 : Word
  w2 : Word
  deriving DecidableEq, Repr

/-- Where the sequencer stands: `cur` of 10_state.md R46, with what 20_memory.md R102 and R107 let other agents come
between: the three reads of a fetch, and the read and the write of a unit (assumption log 6). -/
inductive SeqPhase where
  /-- `cur = none`, no grant begun. -/
  | idle
  /-- Channel `c` is granted, half `h` is being fetched at slot `a`, word 0 is read (`cur = none`). -/
  | fetch1 (c : Chan) (h : Half) (a : Word) (w0 : Word)
  /-- Words 0 and 1 are read (`cur = none`). -/
  | fetch2 (c : Chan) (h : Half) (a : Word) (w0 w1 : Word)
  /-- All three words are read, the descriptor's meaning is to follow. It stands only inside a step. -/
  | fetched (c : Chan) (h : Half) (d : RawDesc)
  /-- `cur = (c, h, k, d)`, no unit begun. -/
  | period (c : Chan) (h : Half) (k : Nat) (d : RawDesc)
  /-- `cur = (c, h, k, d)`, the next unit's value `v` is read and not yet written. -/
  | moving (c : Chan) (h : Half) (k : Nat) (d : RawDesc) (v : Word)
  deriving DecidableEq, Repr

/-- One FIFO channel (10_state.md R51 to R58). -/
structure FifoChan where
  boff : BitVec 8
  lenm1 : BitVec 16
  w32 : Bool
  fen : Bool
  dlen : Bool
  afthr : BitVec 16
  aethr : BitVec 16
  dllen : BitVec 16
  rd : BitVec 17
  wr : BitVec 17
  used : BitVec 17
  ovf : Bool
  unf : Bool
  afien : Bool
  aeien : Bool
  errien : Bool
  deriving DecidableEq, Repr

/-- The machine. The fields from `base` to `pending` are the spec's, the others the model's own (INVENTORY.md). Bit `c` of
a per-channel word is channel `c`'s bit (10_state.md R49). -/
structure State where
  /-- The platform's parameters (00_scope.md R11); no step changes them. Model's own. -/
  cfg : Platform
  /-- `BASE` (10_state.md R31). -/
  base : Word
  /-- The ghost bit of 10_state.md R32. -/
  inited : Bool
  /-- `en[c]` (10_state.md R34). -/
  en : Word
  /-- `swun[c]` (10_state.md R35). -/
  swun : Word
  /-- `pri[c]` (10_state.md R36). -/
  pri : Word
  /-- `alt[c]` (10_state.md R37). -/
  alt : Word
  /-- `dien[c]` (10_state.md R38). -/
  dien : Word
  /-- `berr[c]` (10_state.md R39). -/
  berr : Word
  /-- `inv[c]` (10_state.md R40). -/
  inv : Word
  /-- `done[c]` (10_state.md R41). -/
  done : Word
  /-- `pend[c]` (10_state.md R42). -/
  pend : Word
  /-- `run[c]` (10_state.md R43). -/
  run : Word
  /-- `rem[c][h]` (10_state.md R45). -/
  progress : Vector Progress 32
  /-- `cur` (10_state.md R46). -/
  seq : SeqPhase
  /-- The system's RAM (20_memory.md R90), the descriptor table among it (10_state.md R48). -/
  mem : Memory
  /-- The FIFO channels (10_state.md R51 to R58), channel `(b, f)` at `4 * b + f`. -/
  fifos : Vector FifoChan 12
  /-- `Sram[b]` (10_state.md R50). -/
  sram : Vector Memory 3
  /-- The host's pending writes, oldest first (20_memory.md R108). -/
  pending : List (List Host.Cell)
  /-- What the last host read returned. Model's own. -/
  hostData : Word
  /-- What the last mover pop returned. Model's own. -/
  moverData : Word
  /-- The line the host's handler was last entered for (60_exceptions.md R378). Model's own. -/
  handler : Option IrqLine
  /-- The turns to come. Model's own (assumption log 2). -/
  agenda : List Turn
  /-- How many draws have been taken: the argument of the opaque `Config.draw`. Model's own (assumption log 3). -/
  draws : Nat
  deriving DecidableEq, Repr

/-- A channel with no cycle in progress on either slot. -/
def Progress.idle : Progress := ⟨none, none⟩

/-- A FIFO channel after reset (10_state.md R61). -/
def FifoChan.reset : FifoChan :=
  { boff := 0#8, lenm1 := 0#16, w32 := false, fen := false, dlen := false, afthr := 0#16, aethr := 0#16,
    dllen := 0#16, rd := 0#17, wr := 0#17, used := 0#17, ovf := false, unf := false, afien := false,
    aeien := false, errien := false }

/-- The state after reset on a platform (10_state.md R61, 70_reset_and_hazards.md R410): every register bit 0, every
progress counter `IDLE`, no period in flight, all memory unspecified. The model's own fields are named in the assumption
log (2, 3, 5, 24, 25). -/
def State.resetOf (p : Platform) : State :=
  { cfg := p, base := 0#32, inited := false, en := 0#32, swun := 0#32, pri := 0#32, alt := 0#32, dien := 0#32,
    berr := 0#32, inv := 0#32, done := 0#32, pend := 0#32, run := 0#32,
    progress := Vector.replicate 32 Progress.idle, seq := .idle, mem := [],
    fifos := Vector.replicate 12 FifoChan.reset, sram := Vector.replicate 3 [],
    pending := [], hostData := 0#32, moverData := 0#32, handler := none, agenda := [], draws := 0 }

/-- The state after reset on the example platform of 95_test_vectors.md (assumption log 1). -/
def State.reset : State := State.resetOf Platform.sample

end Sys2Proof.Machine
end

