-- ==== Sys2Proof/Machine/Ops.lean ====
section
/-! DEFINITION. The named operations over memory, channel bits and progress, and the events of the DMA engine
(60_exceptions.md): raising one is ONE shared operation, and the acknowledgement that ends one stands beside it. -/

namespace Sys2Proof

/-! ### The platform's parameters (00_scope.md R9, R11, R12) -/

/-- Whether an address lies in a region. -/
def Region.holds (r : Region) (a : Nat) : Bool := decide (r.base ≤ a) && decide (a < r.base + r.size)

/-- `CHP`, the least power of two that is at least `CH` (00_scope.md R9). -/
def Platform.chp (p : Platform) : Nat :=
  if p.ch ≤ 1 then 1 else if p.ch ≤ 2 then 2 else if p.ch ≤ 4 then 4 else if p.ch ≤ 8 then 8
  else if p.ch ≤ 16 then 16 else 32

/-- `ALT_OFFSET = 16 * CHP` (00_scope.md R12, 30_encoding.md R143). -/
def Platform.altOffset (p : Platform) : Word := BitVec.ofNat 32 (Config.descBytes * p.chp)

/-- `TABLE_ALIGN = 32 * CHP` (00_scope.md R12, 30_encoding.md R143). -/
def Platform.tableAlign (p : Platform) : Nat := 2 * Config.descBytes * p.chp

/-- The bits of `BASE` that are hard-wired to zero (10_state.md R31). -/
def Platform.baseLowBits (p : Platform) : Word := BitVec.ofNat 32 (p.tableAlign - 1)

/-- The bits of a per-channel register that stand for a channel; the others are reserved (10_state.md R49, R62). -/
def Platform.chanMask (p : Platform) : Word := BitVec.ofNat 32 (2 ^ p.ch - 1)

/-- `Mapped` (20_memory.md R92). The two register windows come first (assumption log 29). -/
def Platform.mapped (p : Platform) (a : Word) : MapKind :=
  if (a - p.dmaBase).toNat < Config.dmaBlockBytes then .dmaReg
  else if (a - p.fifoBase).toNat < p.nblk * Config.fifoChannels * Config.fifoGroupBytes then .fifoReg
  else if p.ram.any (fun r => r.holds a.toNat) then .ram
  else .nothing

/-- `Protected` (20_memory.md R100, R106). -/
def Platform.isProtected (p : Platform) (a : Word) : Bool := p.prot.any (fun r => r.holds a.toNat)

namespace Machine

/-! ### Memory (20_memory.md R95 to R97) -/

/-- The byte at an address, if something has written it. -/
def Memory.readByte : Memory → Nat → Option Byte
  | [], _ => none
  | (k, b) :: m, a => if k = a then some b else Memory.readByte m a

/-- Writing one byte, the list kept sorted. -/
def Memory.writeByte : Memory → Nat → Byte → Memory
  | [], a, v => [(a, v)]
  | (k, b) :: m, a, v =>
    if a < k then (a, v) :: (k, b) :: m
    else if a = k then (a, v) :: m
    else (k, b) :: Memory.writeByte m a v

/-- The canonical form: addresses strictly rising. An unlisted address holds no value, so no entry can equal it. -/
def Memory.wf : Memory → Bool
  | [] => true
  | [_] => true
  | (a, _) :: (b, y) :: m => decide (a < b) && Memory.wf ((b, y) :: m)

/-- Writing cells one after the other. -/
def Memory.writeCells (m : Memory) (cells : List Host.Cell) : Memory :=
  cells.foldl (fun m x => m.writeByte x.1 x.2) m

/-- The `n` addresses of an access at `a`, modulo 2^32 (20_memory.md R94). -/
def byteAddrs (a : Word) (n : Nat) : List Nat := (List.range n).map fun k => (a + BitVec.ofNat 32 k).toNat

/-- A value at some addresses, in the byte order of 20_memory.md R95. A byte nothing has written is a draw (R96): byte `k`
takes draw `draws + k`. -/
def loadValue (look : Nat → Option Byte) (addrs : List Nat) (draws : Nat) : Word :=
  wordOfBytes (addrs.mapIdx fun k a => (look a).getD (Config.draw (draws + k)))

/-- The draw counter after such a load: unchanged if every byte has been written. -/
def drawsAfter (look : Nat → Option Byte) (addrs : List Nat) (draws : Nat) : Nat :=
  if addrs.all (fun a => (look a).isSome) then draws else draws + addrs.length

/-- The cells a value's bytes fill at some addresses, in the byte order of 20_memory.md R95. -/
def cellsOf (addrs : List Nat) (v : Word) : List Host.Cell := addrs.zip (bytesOfWord addrs.length v)

/-! ### Channel bits (10_state.md R49) -/

/-- The word whose only 1 is channel `c`'s bit. -/
def chanBit (c : Chan) : Word := 1#32 <<< c.val

/-- Channel `c`'s bit of a per-channel word. -/
def bitOf (x : Word) (c : Chan) : Bool := x.getLsbD c.val

/-- A per-channel word with channel `c`'s bit set. -/
def withBit (x : Word) (c : Chan) : Word := x ||| chanBit c

/-- A per-channel word with channel `c`'s bit clear. -/
def withoutBit (x : Word) (c : Chan) : Word := x &&& ~~~(chanBit c)

/-- Write-one-to-set: the bits of channels that exist (00_scope.md R20, 10_state.md R62). -/
def setOnes (p : Platform) (x v : Word) : Word := x ||| (v &&& p.chanMask)

/-- Write-one-to-clear (00_scope.md R20, 10_state.md R62). -/
def clearOnes (p : Platform) (x v : Word) : Word := x &&& ~~~(v &&& p.chanMask)

/-! ### Progress (10_state.md R45) -/

/-- `rem[c][h]`. -/
def Progress.get (q : Progress) : Half → Option Nat
  | .primary => q.pri
  | .alternate => q.alt

/-- `rem[c][h] <- r`. -/
def Progress.put (q : Progress) (h : Half) (r : Option Nat) : Progress :=
  match h with
  | .primary => { q with pri := r }
  | .alternate => { q with alt := r }

/-- `rem[c][h]`; `none` is `IDLE`. -/
def State.rem (s : State) (c : Chan) (h : Half) : Option Nat := (s.progress[c.val]).get h

/-- `rem[c][h] <- r`. -/
def State.setRem (s : State) (c : Chan) (h : Half) (r : Option Nat) : State :=
  { s with progress := s.progress.set c.val ((s.progress[c.val]).put h r) }

/-- The half that `alt[c]` selects (10_state.md R37). -/
def State.half (s : State) (c : Chan) : Half := if bitOf s.alt c then .alternate else .primary

/-- `alt[c] <- h`. -/
def State.setHalf (s : State) (c : Chan) (h : Half) : State :=
  match h with
  | .primary => { s with alt := withoutBit s.alt c }
  | .alternate => { s with alt := withBit s.alt c }

/-- The other half: `1 - alt[c]` of 42_ping_pong.md R251. -/
def otherHalf : Half → Half
  | .primary => .alternate
  | .alternate => .primary

/-- `slot(c, h)` from the current `BASE` (10_state.md R48, 30_encoding.md R143). -/
def State.slot (s : State) (c : Chan) (h : Half) : Word :=
  match h with
  | .primary => s.base + BitVec.ofNat 32 (Config.descBytes * c.val)
  | .alternate => s.base + s.cfg.altOffset + BitVec.ofNat 32 (Config.descBytes * c.val)

/-- The sequencer's phase set. -/
def State.setSeq (s : State) (q : SeqPhase) : State := { s with seq := q }

/-- The channel of the period in flight: `cur` names it (10_state.md R46). During a fetch `cur` is `none`
(assumption log 7). -/
def SeqPhase.curChan : SeqPhase → Option Chan
  | .period c _ _ _ => some c
  | .moving c _ _ _ _ => some c
  | _ => none

/-! ### Requests (41_channel_engine.md R210, R211, R225) -/

/-- `HwReq(c)` (41_channel_engine.md R210): accepted on an existing, enabled channel in hardware-triggered mode. -/
def hardwareRequest (c : Chan) (s : State) : State :=
  if c.val < s.cfg.ch && bitOf s.en c && !bitOf s.swun c then { s with pend := withBit s.pend c } else s

/-- The software requests of a `DMA_SWREQ` write, one for each bit (41_channel_engine.md R208, R211): accepted on enabled
channels in software-triggered mode. They touch different bits, so their order does not show. -/
def softwareRequests (v : Word) (s : State) : State :=
  { s with pend := s.pend ||| (v &&& s.cfg.chanMask &&& s.en &&& s.swun) }

/-- A self-request (41_channel_engine.md R225): made only while the channel is enabled. -/
def selfRequest (c : Chan) (s : State) : State :=
  if bitOf s.en c then { s with pend := withBit s.pend c } else s

/-! ### Leaving the enabled state (41_channel_engine.md R231) -/

/-- The clean-up of 41_channel_engine.md R231: a channel that is not enabled holds no request and no progress. `alt[c]`
is kept. -/
def cleanUp (c : Chan) (s : State) : State :=
  if bitOf s.en c then s
  else { s with pend := withoutBit s.pend c, run := withoutBit s.run c,
                progress := s.progress.set c.val Progress.idle }

/-- A host clear of enable bits, the write of `DMA_EN_STAT` (41_channel_engine.md R205): running flag and progress follow
at once unless a period of the channel is in flight, when they follow at its end. -/
def clearEnables (v : Word) (s : State) : State :=
  let m := v &&& s.cfg.chanMask
  let now := match s.seq.curChan with
    | some c => withoutBit m c
    | none => m
  { s with en := s.en &&& ~~~m, pend := s.pend &&& ~~~m, run := s.run &&& ~~~now,
           progress := Vector.ofFn fun c : Fin 32 => if bitOf now c then Progress.idle else s.progress[c.val] }

/-! ### Events (60_exceptions.md R370 to R373, R381): the analogue of taking an exception -/

/-- The events of the DMA engine: E1, E2, E3 of 60_exceptions.md R370. -/
inductive Event where
  | done
  | busErr
  | invDesc
  deriving DecidableEq, Repr

/-- `raise E(c)` (60_exceptions.md R371, R372, R373). The two errors also clear the enable, end the period and clean up;
Done only sets its bit (whether the enable is cleared is the cycle type's, R370). Nothing is saved, no mode changes and
nothing is masked (R381). -/
def raiseEvent (e : Event) (c : Chan) (s : State) : State :=
  match e with
  | .done => { s with done := withBit s.done c }
  | .busErr => cleanUp c { s with berr := withBit s.berr c, en := withoutBit s.en c, seq := .idle }
  | .invDesc => cleanUp c { s with inv := withBit s.inv c, en := withoutBit s.en c, seq := .idle }

/-- The acknowledgement of events, the analogue of return (60_exceptions.md R383): a write-one-to-clear of the status
register. Nothing is restored and the channel is not enabled again (41_channel_engine.md R209). -/
def acknowledge (e : Event) (v : Word) (s : State) : State :=
  match e with
  | .done => { s with done := clearOnes s.cfg s.done v }
  | .busErr => { s with berr := clearOnes s.cfg s.berr v }
  | .invDesc => { s with inv := clearOnes s.cfg s.inv v }

/-! ### Accesses -/

/-- What an access answers: a value and the state after it, a `BusError` that did nothing else (20_memory.md R100), or a
refusal. -/
inductive Acc (α : Type) where
  | ok (val : α) (s : State)
  | busErr
  | refused (r : Refusal)

/-- A host write as an outcome. Host accesses to registers never fail (00_scope.md R17). -/
def Acc.written (x : Acc Unit) (s : State) : Host.Outcome State Fault Refusal :=
  match x with
  | .ok _ s' => .next s'
  | .busErr => .next s
  | .refused r => .refused r

/-- A value returned to the host. -/
def State.toHost (s : State) (v : Word) : State := { s with hostData := v }

/-- A host read as an outcome: the value goes to the host. -/
def Acc.returned (x : Acc Word) (s : State) : Host.Outcome State Fault Refusal :=
  match x with
  | .ok v s' => .next (s'.toHost v)
  | .busErr => .next s
  | .refused r => .refused r

/-! ### The host's pending writes (20_memory.md R108) -/

/-- Two writes touch a common address. -/
def overlaps (x y : List Host.Cell) : Bool := x.any fun i => y.any fun j => decide (i.1 = j.1)

/-- The `i`-th pending write taken out, if no older one touches an address of it: writes to the same address become
visible in program order, writes to different addresses in any order. -/
def takePending : List (List Host.Cell) → Nat → Option (List Host.Cell × List (List Host.Cell))
  | [], _ => none
  | w :: ws, 0 => some (w, ws)
  | w :: ws, i + 1 =>
    match takePending ws i with
    | some (x, rest) => if overlaps w x then none else some (x, w :: rest)
    | none => none

/-- A pending write becomes visible to the engine. A write that may not go yet, or that is not there, is a step that is
not enabled: nothing happens (assumption log 35). -/
def drainWrite (i : Nat) (s : State) : State :=
  match takePending s.pending i with
  | some (x, rest) => { s with mem := s.mem.writeCells x, pending := rest }
  | none => s

/-- The byte the host sees: its own youngest pending write of it, else memory (20_memory.md R108, R110). -/
def State.hostByte (s : State) (a : Nat) : Option Byte :=
  match s.pending.reverse.findSome? (fun w => Memory.readByte w a) with
  | some b => some b
  | none => s.mem.readByte a

/-! ### FIFO channels (10_state.md R51 to R58) -/

/-- Where FIFO channel `(b, f)` stands. -/
def fifoIndex (id : FifoId) : Fin 12 := ⟨4 * id.blk.val + id.chan.val, by omega⟩

/-- A FIFO channel's registers. -/
def State.fifo (s : State) (id : FifoId) : FifoChan := s.fifos[(fifoIndex id).val]

/-- A FIFO channel's registers set. -/
def State.setFifo (s : State) (id : FifoId) (f : FifoChan) : State :=
  { s with fifos := s.fifos.set (fifoIndex id).val f }

/-- `Sram[b]`. -/
def State.block (s : State) (b : Fin 3) : Memory := s.sram[b.val]

/-- `Sram[b]` set. -/
def State.setBlock (s : State) (b : Fin 3) (m : Memory) : State := { s with sram := s.sram.set b.val m }

end Machine

end Sys2Proof
end

