-- ==== Sys2Proof/Machine/Flags.lean ====
section
/-! DEFINITION. The derived values of a FIFO channel, the level flags, and the interrupt lines (10_state.md R47, R52, R53,
R57, R58; 44_fifo_ring.md R330, R332, R337). -/

namespace Sys2Proof.Machine

/-- `len = lenm1 + 1` sections (10_state.md R52). -/
def FifoChan.len (f : FifoChan) : Nat := f.lenm1.toNat + 1

/-- `cap = len * 256` bytes (10_state.md R52). -/
def FifoChan.cap (f : FifoChan) : Nat := f.len * Config.sectionBytes

/-- `w`, the bytes of a unit (10_state.md R52). -/
def FifoChan.unit (f : FifoChan) : Nat := if f.w32 then 4 else 2

/-- `pbase = boff * 256` (10_state.md R52). -/
def FifoChan.pbase (f : FifoChan) : Nat := f.boff.toNat * Config.sectionBytes

/-- The configuration is in bounds (10_state.md R52, 44_fifo_ring.md R301). -/
def FifoChan.inBounds (f : FifoChan) (b : Fin 3) : Bool :=
  decide (f.boff.toNat + f.len ≤ Config.blockSections b)

/-- The mode of a FIFO channel (10_state.md R53); `both` is the forbidden combination. -/
inductive FifoMode where
  | disabled
  | fifo
  | delayLine
  | both
  deriving DecidableEq, Repr

/-- The mode (10_state.md R53). -/
def FifoChan.mode (f : FifoChan) : FifoMode :=
  match f.fen, f.dlen with
  | false, false => .disabled
  | true, false => .fifo
  | false, true => .delayLine
  | true, true => .both

/-- `full = (used = cap)` (10_state.md R57). -/
def FifoChan.full (f : FifoChan) : Bool := decide (f.used.toNat = f.cap)

/-- `empty = (used = 0)` (10_state.md R57). -/
def FifoChan.empty (f : FifoChan) : Bool := decide (f.used.toNat = 0)

/-- `af = (used >= afthr * 256)` (10_state.md R57, 44_fifo_ring.md R330). -/
def FifoChan.af (f : FifoChan) : Bool := decide (f.afthr.toNat * Config.sectionBytes ≤ f.used.toNat)

/-- `ae = (used <= aethr * 256)` (10_state.md R57, 44_fifo_ring.md R330). -/
def FifoChan.ae (f : FifoChan) : Bool := decide (f.used.toNat ≤ f.aethr.toNat * Config.sectionBytes)

/-- A flag at its place in a register. -/
def flagBit (x : Bool) (k : Nat) : Word := if x then 1#32 <<< k else 0#32

/-- The four level flags at their places in `FIFO_STAT` (30_encoding.md R155). -/
def FifoChan.levelBits (f : FifoChan) : Word :=
  flagBit f.af 0 ||| flagBit f.ae 1 ||| flagBit f.full 4 ||| flagBit f.empty 5

/-- The two sticky flags at their places in `FIFO_STAT` (30_encoding.md R155). -/
def FifoChan.stickyBits (f : FifoChan) : Word := flagBit f.ovf 2 ||| flagBit f.unf 3

/-- The level flags a reader sees: in delay-line mode they have any value (44_fifo_ring.md R337, U15), so they are drawn. -/
def FifoChan.seenLevels (f : FifoChan) (draws : Nat) : Word :=
  if f.mode = .delayLine then (Config.draw draws).setWidth 32 &&& 0x33#32 else f.levelBits

/-- The draw counter after the level flags are looked at. -/
def FifoChan.levelDraws (f : FifoChan) (draws : Nat) : Nat :=
  if f.mode = .delayLine then draws + 1 else draws

/-- What `FIFO_STAT` reads (44_fifo_ring.md R332). -/
def FifoChan.statWord (f : FifoChan) (draws : Nat) : Word := f.seenLevels draws ||| f.stickyBits

/-- `fifo_irq[b][f]` (10_state.md R58, 44_fifo_ring.md R332). -/
def State.fifoIrq (s : State) (id : FifoId) : Bool :=
  let f := s.fifo id
  let levels := f.seenLevels s.draws
  (levels.getLsbD 0 && f.afien) || (levels.getLsbD 1 && f.aeien) || ((f.ovf || f.unf) && f.errien)

/-- `dma_irq` (10_state.md R47, 60_exceptions.md R376). -/
def State.dmaIrq (s : State) : Bool :=
  decide (s.done &&& s.dien ≠ 0#32) || decide (s.berr ≠ 0#32) || decide (s.inv ≠ 0#32)

/-- Whether an interrupt line is 1 (60_exceptions.md R378). -/
def State.line (s : State) : IrqLine → Bool
  | .dma => s.dmaIrq
  | .fifo id => s.fifoIrq id

/-- The draw counter after a line is looked at. -/
def State.lineDraws (s : State) : IrqLine → Nat
  | .dma => s.draws
  | .fifo id => (s.fifo id).levelDraws s.draws

/-- The host's handler is entered for a line that is 1; while the line is 0 it may not be (60_exceptions.md R378).
Delivery changes nothing in the block. -/
def deliverLine (l : IrqLine) (s : State) : State :=
  if s.line l then { s with handler := some l, draws := s.lineDraws l } else { s with draws := s.lineDraws l }

/-- The states of a channel in the source's view (10_state.md R44). -/
inductive ChanView where
  | disabled
  | armed
  | running
  deriving DecidableEq, Repr

/-- `Disabled`, `Armed`, `Running` as a view of `en[c]` and `run[c]` (10_state.md R44). -/
def State.view (s : State) (c : Chan) : ChanView :=
  if bitOf s.en c then (if bitOf s.run c then .running else .armed) else .disabled

end Sys2Proof.Machine
end

