-- ==== Sys2Proof/Machine/FifoOps.lean ====
section
/-! DEFINITION. The accesses of the FIFO-SRAM controller (44_fifo_ring.md), shared by the host, the sequencer and the
movers (20_memory.md R98, R99). -/

namespace Sys2Proof.Machine

/-! ### Pointers -/

/-- `(x mod cap)` as a 17-bit pointer (30_encoding.md R154, assumption log 31). -/
def FifoChan.wrap (f : FifoChan) (x : Nat) : BitVec 17 := BitVec.ofNat 17 (x % f.cap)

/-- `rd <- (wr - dllen * 256) mod cap` (44_fifo_ring.md R333, R335), for a legal length. -/
def FifoChan.rebased (f : FifoChan) : FifoChan :=
  { f with rd := f.wrap (f.wr.toNat + f.cap - f.dllen.toNat * Config.sectionBytes) }

/-- `1 <= dllen <= len` (44_fifo_ring.md R333). -/
def FifoChan.delayLegal (f : FifoChan) : Bool := decide (1 ≤ f.dllen.toNat) && decide (f.dllen.toNat ≤ f.len)

/-- The SRAM bytes of the unit at a pointer. -/
def FifoChan.unitAddrs (f : FifoChan) (ptr : BitVec 17) : List Nat :=
  (List.range f.unit).map fun k => f.pbase + ptr.toNat + k

/-! ### Configuration registers -/

/-- `FIFO_INIT` write (44_fifo_ring.md R305; 92_eei_decisions.md D26): the three fields are loaded, the pointers and the
count zeroed, `ovf` and `unf` cleared; thresholds, `dllen`, control bits and the SRAM are kept. That the flags are cleared
is the decision D26 against R305's own words (DEDUCED from 00_scope.md R3, unsafe: assumption log 22). In an active mode
it is U13. -/
def fifoInitWrite (id : FifoId) (v : Word) (s : State) : Acc Unit :=
  let f := s.fifo id
  if f.fen || f.dlen then .refused .fifoInitWhileActive
  else .ok () (s.setFifo id { f with boff := v.extractLsb' 0 8, lenm1 := v.extractLsb' 8 16, w32 := v.getLsbD 24,
                                     rd := 0#17, wr := 0#17, used := 0#17, ovf := false, unf := false })

/-- What `FIFO_INIT` reads (44_fifo_ring.md R306). -/
def FifoChan.initWord (f : FifoChan) : Word :=
  f.boff.setWidth 32 ||| (f.lenm1.setWidth 32 <<< 8) ||| flagBit f.w32 24

/-- `FIFO_CTRL` write (44_fifo_ring.md R310, R333). Both modes are U9; entering delay-line mode with an illegal length is
U14. -/
def fifoCtrlWrite (id : FifoId) (v : Word) (s : State) : Acc Unit :=
  let f := s.fifo id
  let f' := { f with fen := v.getLsbD 0, dlen := v.getLsbD 1, afien := v.getLsbD 8, aeien := v.getLsbD 9,
                     errien := v.getLsbD 10 }
  if f'.mode = .both then .refused .bothFifoModes
  else if f'.dlen && !f.dlen then
    if f.delayLegal then .ok () (s.setFifo id f'.rebased) else .refused .delayLength
  else .ok () (s.setFifo id f')

/-- What `FIFO_CTRL` reads (44_fifo_ring.md R310, 30_encoding.md R152). -/
def FifoChan.ctrlWord (f : FifoChan) : Word :=
  flagBit f.fen 0 ||| flagBit f.dlen 1 ||| flagBit f.afien 8 ||| flagBit f.aeien 9 ||| flagBit f.errien 10

/-- `FIFO_AF_THR` write (44_fifo_ring.md R330). -/
def fifoAfThrWrite (id : FifoId) (v : Word) (s : State) : Acc Unit :=
  .ok () (s.setFifo id { s.fifo id with afthr := v.extractLsb' 0 16 })

/-- `FIFO_AE_THR` write (44_fifo_ring.md R330). -/
def fifoAeThrWrite (id : FifoId) (v : Word) (s : State) : Acc Unit :=
  .ok () (s.setFifo id { s.fifo id with aethr := v.extractLsb' 0 16 })

/-- `FIFO_DL_LEN` write (44_fifo_ring.md R335): in delay-line mode the read pointer is re-based, and an illegal length is
U14. -/
def fifoDlLenWrite (id : FifoId) (v : Word) (s : State) : Acc Unit :=
  let f := { s.fifo id with dllen := v.extractLsb' 0 16 }
  if f.mode = .delayLine then
    if f.delayLegal then .ok () (s.setFifo id f.rebased) else .refused .delayLength
  else .ok () (s.setFifo id f)

/-- What `FIFO_USED` reads (44_fifo_ring.md R327, R337): bits 16:0. -/
def FifoChan.usedWord (f : FifoChan) : Word :=
  if f.mode = .delayLine then
    (f.wrap (f.wr.toNat + f.cap - f.rd.toNat % f.cap)).setWidth 32
  else f.used.setWidth 32

/-- `FIFO_STAT` write (44_fifo_ring.md R332): the analogue of return for E4 and E5 (60_exceptions.md R378). -/
def fifoStatWrite (id : FifoId) (v : Word) (s : State) : Acc Unit :=
  let f := s.fifo id
  .ok () (s.setFifo id { f with ovf := f.ovf && !v.getLsbD 2, unf := f.unf && !v.getLsbD 3 })

/-- `FIFO_STAT` read (44_fifo_ring.md R332, R337). -/
def fifoStatRead (id : FifoId) (s : State) : Acc Word :=
  let f := s.fifo id
  .ok (f.statWord s.draws) { s with draws := f.levelDraws s.draws }

/-! ### The port -/

/-- E4 Overflow (44_fifo_ring.md R320, R321): the unit is discarded, the flag latches. -/
def raiseOverflow (id : FifoId) (s : State) : State := s.setFifo id { s.fifo id with ovf := true }

/-- E5 Underflow (44_fifo_ring.md R322, R323): the flag latches. -/
def raiseUnderflow (id : FifoId) (s : State) : State := s.setFifo id { s.fifo id with unf := true }

/-- Why a port access is refused before its mode is looked at: the wrong view (44_fifo_ring.md R324, U10), a partition out
of bounds (R305, U8). -/
def portRefusal (id : FifoId) (n : Nat) (s : State) : Option Refusal :=
  let f := s.fifo id
  if n ≠ f.unit then some .wrongPortView
  else if !f.inBounds id.blk then some .fifoOutOfBounds
  else none

/-- Storing a unit at the write pointer, which advances (44_fifo_ring.md R320, R334); `used` becomes `u`. -/
def storeUnit (id : FifoId) (v : Word) (u : BitVec 17) (s : State) : State :=
  let f := s.fifo id
  (s.setBlock id.blk ((s.block id.blk).writeCells (cellsOf (f.unitAddrs f.wr) v))).setFifo id
    { f with wr := f.wrap (f.wr.toNat + f.unit), used := u }

/-- The value of the unit at the read pointer (44_fifo_ring.md R322, R334); an unwritten byte is a draw. -/
def unitAt (id : FifoId) (s : State) : Word :=
  let f := s.fifo id
  loadValue (s.block id.blk).readByte (f.unitAddrs f.rd) s.draws

/-- The read pointer advanced past a unit (44_fifo_ring.md R322, R334); `used` becomes `u`. -/
def takeUnit (id : FifoId) (u : BitVec 17) (s : State) : State :=
  let f := s.fifo id
  { s.setFifo id { f with rd := f.wrap (f.rd.toNat + f.unit), used := u } with
    draws := drawsAfter (s.block id.blk).readByte (f.unitAddrs f.rd) s.draws }

/-- A drawn value of `n` bytes (44_fifo_ring.md R323, R324). -/
def drawnValue (n : Nat) (draws : Nat) : Word :=
  wordOfBytes ((List.range n).map fun k => Config.draw (draws + k))

/-- A write of `n` bytes to `FIFO_PORT` by any agent: push, delay-line write, or discarded (44_fifo_ring.md R320, R324,
R334). -/
def portWrite (id : FifoId) (n : Nat) (v : Word) (s : State) : Acc Unit :=
  let f := s.fifo id
  match portRefusal id n s with
  | some r => .refused r
  | none =>
    match f.mode with
    | .disabled => .ok () s
    | .fifo =>
      if f.cap < f.used.toNat + f.unit then .ok () (raiseOverflow id s)
      else .ok () (storeUnit id v (f.used + BitVec.ofNat 17 f.unit) s)
    | .delayLine => .ok () (storeUnit id v f.used s)
    | .both => .refused .bothFifoModes

/-- A read of `n` bytes from `FIFO_PORT` by any agent: pop, delay-line read, or a draw (44_fifo_ring.md R322, R324,
R334). -/
def portRead (id : FifoId) (n : Nat) (s : State) : Acc Word :=
  let f := s.fifo id
  match portRefusal id n s with
  | some r => .refused r
  | none =>
    match f.mode with
    | .disabled => .ok (drawnValue n s.draws) { s with draws := s.draws + n }
    | .fifo =>
      if f.used.toNat < f.unit then
        .ok (drawnValue n s.draws) { raiseUnderflow id s with draws := s.draws + n }
      else .ok (unitAt id s) (takeUnit id (f.used - BitVec.ofNat 17 f.unit) s)
    | .delayLine => .ok (unitAt id s) (takeUnit id f.used s)
    | .both => .refused .bothFifoModes

/-! ### The register group, as the engine reaches it (20_memory.md R99) -/

/-- A 32-bit write of a register of a FIFO channel's group by the engine. -/
def fifoWrite32 (id : FifoId) (r : FifoRegister) (v : Word) (s : State) : Acc Unit :=
  match r with
  | .init => fifoInitWrite id v s
  | .ctrl => fifoCtrlWrite id v s
  | .afThr => fifoAfThrWrite id v s
  | .aeThr => fifoAeThrWrite id v s
  | .dlLen => fifoDlLenWrite id v s
  | .stat => fifoStatWrite id v s
  | .port => portWrite id Config.wordBytes v s
  | .rdptr | .wrptr | .used | .rsvd28 | .rsvd2c | .rsvd30 | .rsvd34 | .rsvd38 | .rsvd3c => .ok () s

/-- A 32-bit read of a register of a FIFO channel's group by the engine. -/
def fifoRead32 (id : FifoId) (r : FifoRegister) (s : State) : Acc Word :=
  let f := s.fifo id
  match r with
  | .init => .ok f.initWord s
  | .ctrl => .ok f.ctrlWord s
  | .afThr => .ok (f.afthr.setWidth 32) s
  | .aeThr => .ok (f.aethr.setWidth 32) s
  | .dlLen => .ok (f.dllen.setWidth 32) s
  | .rdptr => .ok (f.rd.setWidth 32) s
  | .wrptr => .ok (f.wr.setWidth 32) s
  | .used => .ok f.usedWord s
  | .stat => fifoStatRead id s
  | .port => portRead id Config.wordBytes s
  | .rsvd28 | .rsvd2c | .rsvd30 | .rsvd34 | .rsvd38 | .rsvd3c => .ok 0#32 s

end Sys2Proof.Machine
end

