-- ==== Sys2Proof/Machine/Bus.lean ====
section
/-! DEFINITION. The engine's access primitives `MemRead` and `MemWrite` (20_memory.md R96 to R100) and the host's RAM
accesses (R108). -/

namespace Sys2Proof.Machine

/-- Whether an engine access is a `BusError` (20_memory.md R100): misaligned, or some byte protected or unmapped. -/
def isBusError (p : Platform) (a : Word) (n : Nat) : Bool :=
  decide (a.toNat % n ≠ 0)
  || (List.range n).any (fun k => p.isProtected (a + BitVec.ofNat 32 k) || p.mapped (a + BitVec.ofNat 32 k) == .nothing)

/-- Whether every byte of an access is RAM (20_memory.md R96). -/
def allRam (p : Platform) (a : Word) (n : Nat) : Bool :=
  (List.range n).all (fun k => p.mapped (a + BitVec.ofNat 32 k) == .ram)

/-- An engine access to a register window (20_memory.md R98, R99): the port with the access's own size, any other FIFO
register with the access a host can make, a whole word; the DMA block is U11. DESIGN CHOICE (assumption log 34): a smaller
access to another register, or one that begins inside a register, is refused. -/
def engineRegister {α : Type} (a : Word) (n : Nat) (port : FifoId → Acc α) (reg : FifoId → FifoRegister → Acc α)
    (s : State) : Acc α :=
  match s.cfg.mapped a with
  | .dmaReg => .refused .engineInDmaBlock
  | .fifoReg =>
    match s.cfg.fifoOffset? a with
    | some (id, off) =>
      match fifoRegisterAt? off with
      | some .port => port id
      | some r => if n = Config.wordBytes then reg id r else .refused .engineRegisterSize
      | none => .refused .engineRegisterSize
    | none => .refused .engineRegisterSize
  | .ram | .nothing => .refused .splitAccess

/-- `MemRead(a, n)` (20_memory.md R96, R98, R99, R100). DESIGN CHOICE (assumption log 40): R100 is tested before R98 and
R99, so a misaligned or protected access inside the DMA block is a `BusError`, not U11, and one of a FIFO register too. -/
def engineRead (a : Word) (n : Nat) (s : State) : Acc Word :=
  if isBusError s.cfg a n then .busErr
  else if allRam s.cfg a n then
    .ok (loadValue s.mem.readByte (byteAddrs a n) s.draws)
      { s with draws := drawsAfter s.mem.readByte (byteAddrs a n) s.draws }
  else engineRegister a n (fun id => portRead id n s) (fun id r => fifoRead32 id r s) s

/-- `MemWrite(a, n, v)` (20_memory.md R97, R98, R99, R100). R100 is tested before R98 and R99 (assumption log 40). -/
def engineWrite (a : Word) (n : Nat) (v : Word) (s : State) : Acc Unit :=
  if isBusError s.cfg a n then .busErr
  else if allRam s.cfg a n then
    .ok () { s with mem := s.mem.writeCells (cellsOf (byteAddrs a n) v) }
  else engineRegister a n (fun id => portWrite id n v s) (fun id r => fifoWrite32 id r v s) s

/-- A host read of `n` RAM bytes (20_memory.md R108, R110): its own pending writes first; an unwritten byte is a draw. The
block does not check the host's accesses (R106). -/
def hostRamRead (a : Word) (n : Nat) (s : State) : Host.Outcome State Fault Refusal :=
  if allRam s.cfg a n then
    .next { s with hostData := loadValue s.hostByte (byteAddrs a n) s.draws,
                   draws := drawsAfter s.hostByte (byteAddrs a n) s.draws }
  else .fault .hostUnmapped

/-- A host write of `n` RAM bytes enters the pending set (20_memory.md R108). -/
def hostRamWrite (a : Word) (n : Nat) (v : Word) (s : State) : Host.Outcome State Fault Refusal :=
  if allRam s.cfg a n then .next { s with pending := s.pending ++ [cellsOf (byteAddrs a n) v] }
  else .fault .hostUnmapped

end Sys2Proof.Machine
end

