-- ==== Sys2Proof/Machine/Operands.lean ====
section
/-! DEFINITION. The operand forms of a descriptor: widths, increments, validity, unit addresses, period length
(30_encoding.md R135 to R142; 41_channel_engine.md R216 to R221; 43_scatter_gather.md R271). -/

namespace Sys2Proof

/-- The number a width code is compared by (30_encoding.md R135, R139). -/
def WidthCode.code : WidthCode → Nat
  | .byte1 => 0
  | .byte2 => 1
  | .byte4 => 2
  | .reserved => 3

/-- The number an increment code is compared by (30_encoding.md R136, R139). -/
def IncCode.code : IncCode → Nat
  | .inc1 => 0
  | .inc2 => 1
  | .inc4 => 2
  | .stay => 3

/-- `w = 2^wid` bytes (30_encoding.md R135). -/
def WidthCode.bytes (w : WidthCode) : Nat := 2 ^ w.code

/-- `incbytes(code)` (30_encoding.md R136). -/
def IncCode.bytes : IncCode → Nat
  | .inc1 => 1
  | .inc2 => 2
  | .inc4 => 4
  | .stay => 0

/-- What 30_encoding.md R139 asks of the fields beside the cycle type: width code 3, or an increment code below the width
code. -/
def Desc.malformed (d : Desc) : Bool :=
  decide (d.wid.code = 3) || decide (d.sinc.code < d.wid.code) || decide (d.dinc.code < d.wid.code)

/-- `invalid(control)` (30_encoding.md R139), on the raw control word. -/
def invalidControl (w2 : Word) : Bool :=
  let cyc := w2.extractLsb' Layout.cycPos 3
  decide (cyc = 0#3) || decide (cyc = 6#3) || decide (cyc = 7#3) || (descOfWords 0#32 0#32 w2).malformed

/-- The number of units of the cycle, `nm1 + 1` (30_encoding.md R137). -/
def Desc.count (d : Desc) : Nat := d.nm1.toNat + 1

/-- The arbitration period, `2^min(rpow, 10)` units (30_encoding.md R138). -/
def Desc.periodUnits (d : Desc) : Nat := 2 ^ min d.rpow.toNat 10

/-- `k = min(2^min(rpow, 10), rem)` (41_channel_engine.md R220). -/
def Desc.periodLength (d : Desc) (r : Nat) : Nat := min d.periodUnits r

/-- The address of the unit with `r` units left, itself among them: `end + 1 - r * inc` modulo 2^32 (30_encoding.md R142,
41_channel_engine.md R221). -/
def unitAddr (last : Word) (inc : IncCode) (r : Nat) : Word := last + 1#32 - BitVec.ofNat 32 (r * inc.bytes)

/-- `sa` (41_channel_engine.md R221). -/
def Desc.srcAddr (d : Desc) (r : Nat) : Word := unitAddr d.srcEnd d.sinc r

/-- `da` (41_channel_engine.md R221). -/
def Desc.dstAddr (d : Desc) (r : Nat) : Word := unitAddr d.dstEnd d.dinc r

/-- `r' = ((r - 1) mod 4) + 1`: the destination of a message descriptor wraps every four units (43_scatter_gather.md
R271). -/
def messageUnits (r : Nat) : Nat := (r - 1) % Config.descWords + 1

/-- The fixed fields of a message descriptor, `(wid, sinc, dinc, rpow) = (2, 2, 2, 2)` and a count that is a multiple of 4
(43_scatter_gather.md R272, 41_channel_engine.md R217). -/
def Desc.isMessage (d : Desc) : Bool :=
  decide (d.wid = .byte4) && decide (d.sinc = .inc4) && decide (d.dinc = .inc4) && decide (d.rpow = 2#4)
  && decide (d.count % Config.descWords = 0)

end Sys2Proof
end

