-- ==== Sys2Proof/Machine/Cycles.lean ====
section
/-! DEFINITION. What a descriptor does once it is fetched: admission, units, period end, and the continuation and
completion action of each cycle type (41_channel_engine.md R216 to R232, 42_ping_pong.md R251, 43_scatter_gather.md
R271 to R277). Each meaning takes the sequencer's next bus access or period end for its descriptor. -/

namespace Sys2Proof.Machine

/-- What one cycle type adds to the common engine. -/
structure CycleRule where
  /-- The admission test (41_channel_engine.md R217). -/
  refuse : Half → Desc → Option Refusal
  /-- The count the destination address is computed from (41_channel_engine.md R221, 43_scatter_gather.md R271). -/
  dstUnits : Nat → Nat
  /-- The continuation action (41_channel_engine.md R224). -/
  continuation : Chan → State → State
  /-- The completion action (41_channel_engine.md R224). -/
  completion : Chan → State → State

/-- Validity, admission, cycle start, period length (41_channel_engine.md R217 to R220). An invalid descriptor is reported
as invalid, not refused. -/
def admission (rule : CycleRule) (d : Desc) (c : Chan) (h : Half) (w : RawDesc) (s : State) :
    Host.Outcome State Fault Refusal :=
  if d.malformed then .next (raiseEvent .invDesc c s)
  else
    match rule.refuse h d with
    | some r => .refused r
    | none =>
      let r := (s.rem c h).getD d.count
      .next ((s.setRem c h (some r)).setSeq (.period c h (d.periodLength r) w))

/-- The read of a unit (41_channel_engine.md R221, R222, R223). -/
def unitRead (d : Desc) (c : Chan) (h : Half) (k : Nat) (w : RawDesc) (s : State) :
    Host.Outcome State Fault Refusal :=
  match engineRead (d.srcAddr ((s.rem c h).getD 0)) d.wid.bytes s with
  | .ok v s' => .next (s'.setSeq (.moving c h k w v))
  | .busErr => .next (raiseEvent .busErr c s)
  | .refused r => .refused r

/-- The write of a unit, after which it is moved (41_channel_engine.md R221, R222, R223). -/
def unitWrite (rule : CycleRule) (d : Desc) (c : Chan) (h : Half) (k : Nat) (w : RawDesc) (v : Word) (s : State) :
    Host.Outcome State Fault Refusal :=
  let r := (s.rem c h).getD 0
  match engineWrite (d.dstAddr (rule.dstUnits r)) d.wid.bytes v s with
  | .ok _ s' => .next ((s'.setRem c h (some (r - 1))).setSeq (.period c h (k - 1) w))
  | .busErr => .next (raiseEvent .busErr c s)
  | .refused r => .refused r

/-- The period end (41_channel_engine.md R224, R231): the continuation action if units remain, else the completion
action, then the clean-up. -/
def periodEnd (rule : CycleRule) (c : Chan) (h : Half) (s : State) : State :=
  let s := s.setSeq .idle
  if 0 < (s.rem c h).getD 0 then cleanUp c (rule.continuation c s)
  else cleanUp c (rule.completion c (s.setRem c h none))

/-- The sequencer's next access or period end for a valid cycle type's descriptor. A descriptor that is not in the
sequencer does nothing (41_channel_engine.md R212). -/
def runDescriptor (rule : CycleRule) (d : Desc) (s : State) : Host.Outcome State Fault Refusal :=
  match s.seq with
  | .fetched c h w => admission rule d c h w s
  | .period c h k w => if k = 0 then .next (periodEnd rule c h s) else unitRead d c h k w s
  | .moving c h k w v => unitWrite rule d c h k w v s
  | .idle => .next s
  | .fetch1 _ _ _ _ => .next s
  | .fetch2 _ _ _ _ _ => .next s

/-- A cycle type that is invalid: the event, and no unit (41_channel_engine.md R218). It never has a period. -/
def runInvalid (s : State) : Host.Outcome State Fault Refusal :=
  match s.seq with
  | .fetched c _ _ => .next (raiseEvent .invDesc c s)
  | _ => .next s

/-- Nothing is refused at admission. -/
def admitAll (_ : Half) (_ : Desc) : Option Refusal := none

/-- The completion of `BASIC` and `AUTOREQ` (41_channel_engine.md R226, R227): Done, and the channel is disabled. -/
def completeAndStop (c : Chan) (s : State) : State :=
  let s := raiseEvent .done c s
  { s with en := withoutBit s.en c }

/-- The completion of `PINGPONG` (42_ping_pong.md R251): Done, then the other half; the channel stays enabled. -/
def completeAndSwitch (c : Chan) (s : State) : State :=
  let s := raiseEvent .done c s
  s.setHalf c (otherHalf (s.half c))

/-- Control goes to a half and the channel requests itself (43_scatter_gather.md R272, R274). -/
def linkTo (h : Half) (c : Chan) (s : State) : State := selfRequest c (s.setHalf c h)

/-- What `BASIC` and `PINGPONG` do when units remain (41_channel_engine.md R226, R228; 42_ping_pong.md R251, R252): where a
request buys one period, nothing; where it buys the cycle, the other value of U4, a self-request. Assumption log 12. -/
def awaitRequest (buys : RequestBuys) (c : Chan) (s : State) : State :=
  match buys with
  | .period => s
  | .cycle => selfRequest c s

/-- `BASIC` (41_channel_engine.md R226, R228). -/
def basicRule : CycleRule :=
  { refuse := admitAll, dstUnits := id, continuation := fun c s => awaitRequest s.cfg.basicBuys c s,
    completion := completeAndStop }

/-- `AUTOREQ` (41_channel_engine.md R227). -/
def autoreqRule : CycleRule :=
  { refuse := admitAll, dstUnits := id, continuation := selfRequest, completion := completeAndStop }

/-- `PINGPONG` (42_ping_pong.md R251, R252). -/
def pingpongRule : CycleRule :=
  { refuse := admitAll, dstUnits := id, continuation := fun c s => awaitRequest s.cfg.pingpongBuys c s,
    completion := completeAndSwitch }

/-- The admission of `SGPRI`: the primary half and the fixed fields (41_channel_engine.md R217, U6, U7). -/
def sgpriRefuse (h : Half) (d : Desc) : Option Refusal :=
  if h = .alternate then some .sgPrimaryInAlternate
  else if d.isMessage then none
  else some .sgMessageFields

/-- `SGPRI` (43_scatter_gather.md R271, R272). -/
def sgpriRule : CycleRule :=
  { refuse := sgpriRefuse, dstUnits := messageUnits, continuation := linkTo .alternate, completion := linkTo .alternate }

/-- The admission of `SGALT`: the alternate half (41_channel_engine.md R217, U6). -/
def sgaltRefuse (h : Half) (_ : Desc) : Option Refusal :=
  if h = .primary then some .sgAlternateInPrimary else none

/-- `SGALT` (43_scatter_gather.md R274). -/
def sgaltRule : CycleRule :=
  { refuse := sgaltRefuse, dstUnits := id, continuation := selfRequest, completion := linkTo .primary }

/-! ### The meanings of the eight `DESC` rows -/

/-- `STOP` (41_channel_engine.md R218). -/
def execStop (_ : Desc) (s : State) : Host.Outcome State Fault Refusal := runInvalid s

/-- `BASIC` (41_channel_engine.md R226). -/
def execBasic (d : Desc) (s : State) : Host.Outcome State Fault Refusal := runDescriptor basicRule d s

/-- `AUTOREQ` (41_channel_engine.md R227). -/
def execAutoreq (d : Desc) (s : State) : Host.Outcome State Fault Refusal := runDescriptor autoreqRule d s

/-- `PINGPONG` (42_ping_pong.md R251). -/
def execPingpong (d : Desc) (s : State) : Host.Outcome State Fault Refusal := runDescriptor pingpongRule d s

/-- `SGPRI` (43_scatter_gather.md R272). -/
def execSgpri (d : Desc) (s : State) : Host.Outcome State Fault Refusal := runDescriptor sgpriRule d s

/-- `SGALT` (43_scatter_gather.md R274). -/
def execSgalt (d : Desc) (s : State) : Host.Outcome State Fault Refusal := runDescriptor sgaltRule d s

/-- `RSVD6`, a reserved cycle code (41_channel_engine.md R218, U18). -/
def execRsvd6 (_ : Desc) (s : State) : Host.Outcome State Fault Refusal := runInvalid s

/-- `RSVD7`, a reserved cycle code (41_channel_engine.md R218, U18). -/
def execRsvd7 (_ : Desc) (s : State) : Host.Outcome State Fault Refusal := runInvalid s

end Sys2Proof.Machine
end

