-- ==== Sys2Proof/Machine/DmaRegs.lean ====
section
/-! DEFINITION. The meanings of the 32 rows of the DMA register block (41_channel_engine.md R200 to R209). -/

namespace Sys2Proof.Machine

/-- `DMA_BASE_PTR.W` (41_channel_engine.md R200): base is written with the hard-wired bits forced to 0, `inited` is
set; nothing else waits or changes (R233). -/
def execDmaBasePtrW (v : Word) (s : State) : Host.Outcome State Fault Refusal :=
  .next { s with base := v &&& ~~~s.cfg.baseLowBits, inited := true }

/-- `DMA_BASE_PTR.R` (41_channel_engine.md R200). -/
def execDmaBasePtrR (s : State) : Host.Outcome State Fault Refusal :=
  .next (s.toHost s.base)

/-- `DMA_ALT_BASE_PTR.R` (41_channel_engine.md R201). -/
def execDmaAltBasePtrR (s : State) : Host.Outcome State Fault Refusal :=
  .next (s.toHost (s.base + s.cfg.altOffset))

/-- `DMA_ALT_BASE_PTR.W` (41_channel_engine.md R201): the write is ignored. -/
def execDmaAltBasePtrW (_ : Word) (s : State) : Host.Outcome State Fault Refusal :=
  .next s

/-- `DMA_EN_SET.W` (41_channel_engine.md R202): `en[c] <- 1`, nothing else changes. With `inited` false or a period
of `c` in flight it has the hardware effect R414 and R426 give (assumption log 8, 11). -/
def execDmaEnSetW (v : Word) (s : State) : Host.Outcome State Fault Refusal :=
  .next { s with en := setOnes s.cfg s.en v }

/-- `DMA_EN_SET.R` (41_channel_engine.md R202). -/
def execDmaEnSetR (s : State) : Host.Outcome State Fault Refusal :=
  .next (s.toHost s.en)

/-- `DMA_EN_STAT.W` (41_channel_engine.md R205). -/
def execDmaEnStatW (v : Word) (s : State) : Host.Outcome State Fault Refusal :=
  .next (clearEnables v s)

/-- `DMA_EN_STAT.R` (41_channel_engine.md R205). -/
def execDmaEnStatR (s : State) : Host.Outcome State Fault Refusal :=
  .next (s.toHost s.en)

/-- `DMA_SWUNMASK_SET.W` (41_channel_engine.md R203). -/
def execDmaSwunmaskSetW (v : Word) (s : State) : Host.Outcome State Fault Refusal :=
  .next { s with swun := setOnes s.cfg s.swun v }

/-- `DMA_SWUNMASK_SET.R` (41_channel_engine.md R203). -/
def execDmaSwunmaskSetR (s : State) : Host.Outcome State Fault Refusal :=
  .next (s.toHost s.swun)

/-- `DMA_SWUNMASK_CLR.W` (41_channel_engine.md R203). -/
def execDmaSwunmaskClrW (v : Word) (s : State) : Host.Outcome State Fault Refusal :=
  .next { s with swun := clearOnes s.cfg s.swun v }

/-- `DMA_SWUNMASK_CLR.R` (41_channel_engine.md R203). -/
def execDmaSwunmaskClrR (s : State) : Host.Outcome State Fault Refusal :=
  .next (s.toHost s.swun)

/-- `DMA_PRI_SET.W` (41_channel_engine.md R204). -/
def execDmaPriSetW (v : Word) (s : State) : Host.Outcome State Fault Refusal :=
  .next { s with pri := setOnes s.cfg s.pri v }

/-- `DMA_PRI_SET.R` (41_channel_engine.md R204). -/
def execDmaPriSetR (s : State) : Host.Outcome State Fault Refusal :=
  .next (s.toHost s.pri)

/-- `DMA_PRI_CLR.W` (41_channel_engine.md R204). -/
def execDmaPriClrW (v : Word) (s : State) : Host.Outcome State Fault Refusal :=
  .next { s with pri := clearOnes s.cfg s.pri v }

/-- `DMA_PRI_CLR.R` (41_channel_engine.md R204). -/
def execDmaPriClrR (s : State) : Host.Outcome State Fault Refusal :=
  .next (s.toHost s.pri)

/-- `DMA_ALT_SET.W` (41_channel_engine.md R206). -/
def execDmaAltSetW (v : Word) (s : State) : Host.Outcome State Fault Refusal :=
  .next { s with alt := setOnes s.cfg s.alt v }

/-- `DMA_ALT_SET.R` (41_channel_engine.md R206). -/
def execDmaAltSetR (s : State) : Host.Outcome State Fault Refusal :=
  .next (s.toHost s.alt)

/-- `DMA_ALT_CLR.W` (41_channel_engine.md R206). -/
def execDmaAltClrW (v : Word) (s : State) : Host.Outcome State Fault Refusal :=
  .next { s with alt := clearOnes s.cfg s.alt v }

/-- `DMA_ALT_CLR.R` (41_channel_engine.md R206). -/
def execDmaAltClrR (s : State) : Host.Outcome State Fault Refusal :=
  .next (s.toHost s.alt)

/-- `DMA_DONE_IEN_SET.W` (41_channel_engine.md R207). -/
def execDmaDoneIenSetW (v : Word) (s : State) : Host.Outcome State Fault Refusal :=
  .next { s with dien := setOnes s.cfg s.dien v }

/-- `DMA_DONE_IEN_SET.R` (41_channel_engine.md R207). -/
def execDmaDoneIenSetR (s : State) : Host.Outcome State Fault Refusal :=
  .next (s.toHost s.dien)

/-- `DMA_DONE_IEN_CLR.W` (41_channel_engine.md R207). -/
def execDmaDoneIenClrW (v : Word) (s : State) : Host.Outcome State Fault Refusal :=
  .next { s with dien := clearOnes s.cfg s.dien v }

/-- `DMA_DONE_IEN_CLR.R` (41_channel_engine.md R207). -/
def execDmaDoneIenClrR (s : State) : Host.Outcome State Fault Refusal :=
  .next (s.toHost s.dien)

/-- `DMA_SWREQ.W` (41_channel_engine.md R208). -/
def execDmaSwreqW (v : Word) (s : State) : Host.Outcome State Fault Refusal :=
  .next (softwareRequests v s)

/-- `DMA_SWREQ.R` (41_channel_engine.md R208): reads 0. -/
def execDmaSwreqR (s : State) : Host.Outcome State Fault Refusal :=
  .next (s.toHost 0#32)

/-- `DMA_BUSERR_STAT.W` (41_channel_engine.md R209). -/
def execDmaBuserrStatW (v : Word) (s : State) : Host.Outcome State Fault Refusal :=
  .next (acknowledge .busErr v s)

/-- `DMA_BUSERR_STAT.R` (41_channel_engine.md R209). -/
def execDmaBuserrStatR (s : State) : Host.Outcome State Fault Refusal :=
  .next (s.toHost s.berr)

/-- `DMA_INVDESC_STAT.W` (41_channel_engine.md R209). -/
def execDmaInvdescStatW (v : Word) (s : State) : Host.Outcome State Fault Refusal :=
  .next (acknowledge .invDesc v s)

/-- `DMA_INVDESC_STAT.R` (41_channel_engine.md R209). -/
def execDmaInvdescStatR (s : State) : Host.Outcome State Fault Refusal :=
  .next (s.toHost s.inv)

/-- `DMA_DONE_STAT.W` (41_channel_engine.md R209). -/
def execDmaDoneStatW (v : Word) (s : State) : Host.Outcome State Fault Refusal :=
  .next (acknowledge .done v s)

/-- `DMA_DONE_STAT.R` (41_channel_engine.md R209). -/
def execDmaDoneStatR (s : State) : Host.Outcome State Fault Refusal :=
  .next (s.toHost s.done)

end Sys2Proof.Machine
end

