-- ==== Sys2Proof/Machine/FifoRegs.lean ====
section
/-! DEFINITION. The meanings of the rows of a FIFO channel's register group (44_fifo_ring.md R305 to R337): nine
registers, the four views of the port, and the six reserved offsets (30_encoding.md R150, R161). -/

namespace Sys2Proof.Machine

/-- `FIFO_INIT.W` (44_fifo_ring.md R305). -/
def execFifoInitW (id : FifoId) (v : Word) (s : State) : Host.Outcome State Fault Refusal :=
  (fifoInitWrite id v s).written s

/-- `FIFO_INIT.R` (44_fifo_ring.md R306). -/
def execFifoInitR (id : FifoId) (s : State) : Host.Outcome State Fault Refusal :=
  .next (s.toHost (s.fifo id).initWord)

/-- `FIFO_CTRL.W` (44_fifo_ring.md R310). -/
def execFifoCtrlW (id : FifoId) (v : Word) (s : State) : Host.Outcome State Fault Refusal :=
  (fifoCtrlWrite id v s).written s

/-- `FIFO_CTRL.R` (44_fifo_ring.md R310). -/
def execFifoCtrlR (id : FifoId) (s : State) : Host.Outcome State Fault Refusal :=
  .next (s.toHost (s.fifo id).ctrlWord)

/-- `FIFO_AF_THR.W` (44_fifo_ring.md R330). -/
def execFifoAfThrW (id : FifoId) (v : Word) (s : State) : Host.Outcome State Fault Refusal :=
  (fifoAfThrWrite id v s).written s

/-- `FIFO_AF_THR.R` (44_fifo_ring.md R330). -/
def execFifoAfThrR (id : FifoId) (s : State) : Host.Outcome State Fault Refusal :=
  .next (s.toHost ((s.fifo id).afthr.setWidth 32))

/-- `FIFO_AE_THR.W` (44_fifo_ring.md R330). -/
def execFifoAeThrW (id : FifoId) (v : Word) (s : State) : Host.Outcome State Fault Refusal :=
  (fifoAeThrWrite id v s).written s

/-- `FIFO_AE_THR.R` (44_fifo_ring.md R330). -/
def execFifoAeThrR (id : FifoId) (s : State) : Host.Outcome State Fault Refusal :=
  .next (s.toHost ((s.fifo id).aethr.setWidth 32))

/-- `FIFO_DL_LEN.W` (44_fifo_ring.md R335). -/
def execFifoDlLenW (id : FifoId) (v : Word) (s : State) : Host.Outcome State Fault Refusal :=
  (fifoDlLenWrite id v s).written s

/-- `FIFO_DL_LEN.R` (44_fifo_ring.md R335). -/
def execFifoDlLenR (id : FifoId) (s : State) : Host.Outcome State Fault Refusal :=
  .next (s.toHost ((s.fifo id).dllen.setWidth 32))

/-- `FIFO_RDPTR.W` (44_fifo_ring.md R331): the write is ignored. -/
def execFifoRdptrW (_ : FifoId) (_ : Word) (s : State) : Host.Outcome State Fault Refusal :=
  .next s

/-- `FIFO_RDPTR.R` (44_fifo_ring.md R331). -/
def execFifoRdptrR (id : FifoId) (s : State) : Host.Outcome State Fault Refusal :=
  .next (s.toHost ((s.fifo id).rd.setWidth 32))

/-- `FIFO_WRPTR.W` (44_fifo_ring.md R331): the write is ignored. -/
def execFifoWrptrW (_ : FifoId) (_ : Word) (s : State) : Host.Outcome State Fault Refusal :=
  .next s

/-- `FIFO_WRPTR.R` (44_fifo_ring.md R331). -/
def execFifoWrptrR (id : FifoId) (s : State) : Host.Outcome State Fault Refusal :=
  .next (s.toHost ((s.fifo id).wr.setWidth 32))

/-- `FIFO_USED.W` (44_fifo_ring.md R327): the write is ignored. -/
def execFifoUsedW (_ : FifoId) (_ : Word) (s : State) : Host.Outcome State Fault Refusal :=
  .next s

/-- `FIFO_USED.R` (44_fifo_ring.md R327). -/
def execFifoUsedR (id : FifoId) (s : State) : Host.Outcome State Fault Refusal :=
  .next (s.toHost (s.fifo id).usedWord)

/-- `FIFO_STAT.W` (44_fifo_ring.md R332). -/
def execFifoStatW (id : FifoId) (v : Word) (s : State) : Host.Outcome State Fault Refusal :=
  (fifoStatWrite id v s).written s

/-- `FIFO_STAT.R` (44_fifo_ring.md R332). -/
def execFifoStatR (id : FifoId) (s : State) : Host.Outcome State Fault Refusal :=
  (fifoStatRead id s).returned s

/-- `PORTW16` (44_fifo_ring.md R320). -/
def execPortW16 (id : FifoId) (v : Half16) (s : State) : Host.Outcome State Fault Refusal :=
  (portWrite id 2 (v.setWidth 32) s).written s

/-- `PORTW32` (44_fifo_ring.md R320). -/
def execPortW32 (id : FifoId) (v : Word) (s : State) : Host.Outcome State Fault Refusal :=
  (portWrite id 4 v s).written s

/-- `PORTR16` (44_fifo_ring.md R322). -/
def execPortR16 (id : FifoId) (s : State) : Host.Outcome State Fault Refusal :=
  (portRead id 2 s).returned s

/-- `PORTR32` (44_fifo_ring.md R322). -/
def execPortR32 (id : FifoId) (s : State) : Host.Outcome State Fault Refusal :=
  (portRead id 4 s).returned s

/-- `FIFO_RSVD_28.W` (30_encoding.md R161): the write is ignored. -/
def execFifoRsvd28W (_ : FifoId) (_ : Word) (s : State) : Host.Outcome State Fault Refusal :=
  .next s

/-- `FIFO_RSVD_28.R` (30_encoding.md R161): reads 0. -/
def execFifoRsvd28R (_ : FifoId) (s : State) : Host.Outcome State Fault Refusal :=
  .next (s.toHost 0#32)

/-- `FIFO_RSVD_2C.W` (30_encoding.md R161): the write is ignored. -/
def execFifoRsvd2cW (_ : FifoId) (_ : Word) (s : State) : Host.Outcome State Fault Refusal :=
  .next s

/-- `FIFO_RSVD_2C.R` (30_encoding.md R161): reads 0. -/
def execFifoRsvd2cR (_ : FifoId) (s : State) : Host.Outcome State Fault Refusal :=
  .next (s.toHost 0#32)

/-- `FIFO_RSVD_30.W` (30_encoding.md R161): the write is ignored. -/
def execFifoRsvd30W (_ : FifoId) (_ : Word) (s : State) : Host.Outcome State Fault Refusal :=
  .next s

/-- `FIFO_RSVD_30.R` (30_encoding.md R161): reads 0. -/
def execFifoRsvd30R (_ : FifoId) (s : State) : Host.Outcome State Fault Refusal :=
  .next (s.toHost 0#32)

/-- `FIFO_RSVD_34.W` (30_encoding.md R161): the write is ignored. -/
def execFifoRsvd34W (_ : FifoId) (_ : Word) (s : State) : Host.Outcome State Fault Refusal :=
  .next s

/-- `FIFO_RSVD_34.R` (30_encoding.md R161): reads 0. -/
def execFifoRsvd34R (_ : FifoId) (s : State) : Host.Outcome State Fault Refusal :=
  .next (s.toHost 0#32)

/-- `FIFO_RSVD_38.W` (30_encoding.md R161): the write is ignored. -/
def execFifoRsvd38W (_ : FifoId) (_ : Word) (s : State) : Host.Outcome State Fault Refusal :=
  .next s

/-- `FIFO_RSVD_38.R` (30_encoding.md R161): reads 0. -/
def execFifoRsvd38R (_ : FifoId) (s : State) : Host.Outcome State Fault Refusal :=
  .next (s.toHost 0#32)

/-- `FIFO_RSVD_3C.W` (30_encoding.md R161): the write is ignored. -/
def execFifoRsvd3cW (_ : FifoId) (_ : Word) (s : State) : Host.Outcome State Fault Refusal :=
  .next s

/-- `FIFO_RSVD_3C.R` (30_encoding.md R161): reads 0. -/
def execFifoRsvd3cR (_ : FifoId) (s : State) : Host.Outcome State Fault Refusal :=
  .next (s.toHost 0#32)

end Sys2Proof.Machine
end

