-- ==== Sys2Proof/Machine/Dispatch.lean ====
section
/-! DEFINITION. One arm for each instruction. -/

namespace Sys2Proof.Machine

def exec (i : Instr) (s : State) : Host.Outcome State Fault Refusal :=
  match i with
  | .stop d => Sys2Proof.Machine.execStop d s
  | .basic d => Sys2Proof.Machine.execBasic d s
  | .autoreq d => Sys2Proof.Machine.execAutoreq d s
  | .pingpong d => Sys2Proof.Machine.execPingpong d s
  | .sgpri d => Sys2Proof.Machine.execSgpri d s
  | .sgalt d => Sys2Proof.Machine.execSgalt d s
  | .rsvd6 d => Sys2Proof.Machine.execRsvd6 d s
  | .rsvd7 d => Sys2Proof.Machine.execRsvd7 d s
  | .dmaBasePtrW v => Sys2Proof.Machine.execDmaBasePtrW v s
  | .dmaBasePtrR => Sys2Proof.Machine.execDmaBasePtrR s
  | .dmaAltBasePtrR => Sys2Proof.Machine.execDmaAltBasePtrR s
  | .dmaAltBasePtrW v => Sys2Proof.Machine.execDmaAltBasePtrW v s
  | .dmaEnSetW v => Sys2Proof.Machine.execDmaEnSetW v s
  | .dmaEnSetR => Sys2Proof.Machine.execDmaEnSetR s
  | .dmaEnStatW v => Sys2Proof.Machine.execDmaEnStatW v s
  | .dmaEnStatR => Sys2Proof.Machine.execDmaEnStatR s
  | .dmaSwunmaskSetW v => Sys2Proof.Machine.execDmaSwunmaskSetW v s
  | .dmaSwunmaskSetR => Sys2Proof.Machine.execDmaSwunmaskSetR s
  | .dmaSwunmaskClrW v => Sys2Proof.Machine.execDmaSwunmaskClrW v s
  | .dmaSwunmaskClrR => Sys2Proof.Machine.execDmaSwunmaskClrR s
  | .dmaPriSetW v => Sys2Proof.Machine.execDmaPriSetW v s
  | .dmaPriSetR => Sys2Proof.Machine.execDmaPriSetR s
  | .dmaPriClrW v => Sys2Proof.Machine.execDmaPriClrW v s
  | .dmaPriClrR => Sys2Proof.Machine.execDmaPriClrR s
  | .dmaAltSetW v => Sys2Proof.Machine.execDmaAltSetW v s
  | .dmaAltSetR => Sys2Proof.Machine.execDmaAltSetR s
  | .dmaAltClrW v => Sys2Proof.Machine.execDmaAltClrW v s
  | .dmaAltClrR => Sys2Proof.Machine.execDmaAltClrR s
  | .dmaDoneIenSetW v => Sys2Proof.Machine.execDmaDoneIenSetW v s
  | .dmaDoneIenSetR => Sys2Proof.Machine.execDmaDoneIenSetR s
  | .dmaDoneIenClrW v => Sys2Proof.Machine.execDmaDoneIenClrW v s
  | .dmaDoneIenClrR => Sys2Proof.Machine.execDmaDoneIenClrR s
  | .dmaSwreqW v => Sys2Proof.Machine.execDmaSwreqW v s
  | .dmaSwreqR => Sys2Proof.Machine.execDmaSwreqR s
  | .dmaBuserrStatW v => Sys2Proof.Machine.execDmaBuserrStatW v s
  | .dmaBuserrStatR => Sys2Proof.Machine.execDmaBuserrStatR s
  | .dmaInvdescStatW v => Sys2Proof.Machine.execDmaInvdescStatW v s
  | .dmaInvdescStatR => Sys2Proof.Machine.execDmaInvdescStatR s
  | .dmaDoneStatW v => Sys2Proof.Machine.execDmaDoneStatW v s
  | .dmaDoneStatR => Sys2Proof.Machine.execDmaDoneStatR s
  | .fifoInitW id v => Sys2Proof.Machine.execFifoInitW id v s
  | .fifoInitR id => Sys2Proof.Machine.execFifoInitR id s
  | .fifoCtrlW id v => Sys2Proof.Machine.execFifoCtrlW id v s
  | .fifoCtrlR id => Sys2Proof.Machine.execFifoCtrlR id s
  | .fifoAfThrW id v => Sys2Proof.Machine.execFifoAfThrW id v s
  | .fifoAfThrR id => Sys2Proof.Machine.execFifoAfThrR id s
  | .fifoAeThrW id v => Sys2Proof.Machine.execFifoAeThrW id v s
  | .fifoAeThrR id => Sys2Proof.Machine.execFifoAeThrR id s
  | .fifoDlLenW id v => Sys2Proof.Machine.execFifoDlLenW id v s
  | .fifoDlLenR id => Sys2Proof.Machine.execFifoDlLenR id s
  | .fifoRdptrW id v => Sys2Proof.Machine.execFifoRdptrW id v s
  | .fifoRdptrR id => Sys2Proof.Machine.execFifoRdptrR id s
  | .fifoWrptrW id v => Sys2Proof.Machine.execFifoWrptrW id v s
  | .fifoWrptrR id => Sys2Proof.Machine.execFifoWrptrR id s
  | .fifoUsedW id v => Sys2Proof.Machine.execFifoUsedW id v s
  | .fifoUsedR id => Sys2Proof.Machine.execFifoUsedR id s
  | .fifoStatW id v => Sys2Proof.Machine.execFifoStatW id v s
  | .fifoStatR id => Sys2Proof.Machine.execFifoStatR id s
  | .portW16 id v => Sys2Proof.Machine.execPortW16 id v s
  | .portW32 id v => Sys2Proof.Machine.execPortW32 id v s
  | .portR16 id => Sys2Proof.Machine.execPortR16 id s
  | .portR32 id => Sys2Proof.Machine.execPortR32 id s
  | .fifoRsvd28W id v => Sys2Proof.Machine.execFifoRsvd28W id v s
  | .fifoRsvd28R id => Sys2Proof.Machine.execFifoRsvd28R id s
  | .fifoRsvd2cW id v => Sys2Proof.Machine.execFifoRsvd2cW id v s
  | .fifoRsvd2cR id => Sys2Proof.Machine.execFifoRsvd2cR id s
  | .fifoRsvd30W id v => Sys2Proof.Machine.execFifoRsvd30W id v s
  | .fifoRsvd30R id => Sys2Proof.Machine.execFifoRsvd30R id s
  | .fifoRsvd34W id v => Sys2Proof.Machine.execFifoRsvd34W id v s
  | .fifoRsvd34R id => Sys2Proof.Machine.execFifoRsvd34R id s
  | .fifoRsvd38W id v => Sys2Proof.Machine.execFifoRsvd38W id v s
  | .fifoRsvd38R id => Sys2Proof.Machine.execFifoRsvd38R id s
  | .fifoRsvd3cW id v => Sys2Proof.Machine.execFifoRsvd3cW id v s
  | .fifoRsvd3cR id => Sys2Proof.Machine.execFifoRsvd3cR id s

end Sys2Proof.Machine
end

