-- ==== Sys2Proof/Machine/Turns.lean ====
section
/-! DEFINITION. The turns of the agents (00_scope.md R19): the sequencer's grant and fetch, the host's accesses, movers,
requests, drains, delivery and reset. -/

namespace Sys2Proof.Machine

/-! ### The sequencer (41_channel_engine.md R212 to R215) -/

/-- The candidates of arbitration, in ascending order (41_channel_engine.md R213). -/
def candidates (s : State) : List Chan :=
  (List.finRange 32).filter fun c => decide (c.val < s.cfg.ch) && bitOf s.en c && bitOf s.pend c

/-- The candidates of the highest priority that has one (41_channel_engine.md R213). -/
def contenders (s : State) : List Chan :=
  let cs := candidates s
  let high := cs.filter fun c => bitOf s.pri c
  if high.isEmpty then cs else high

/-- Arbitration (41_channel_engine.md R213): the tie-break `ARB_TIE` among the contenders. -/
def arbitrate (s : State) : Option Chan :=
  let cs := contenders s
  match s.cfg.arbTie with
  | .lowest => cs.head?
  | .drawn => cs[(Config.draw s.draws).toNat % cs.length]?

/-- The draw counter after an arbitration. -/
def arbitrationDraws (s : State) : Nat :=
  match s.cfg.arbTie with
  | .lowest => s.draws
  | .drawn => s.draws + 1

/-- Granting channel `c` (41_channel_engine.md R214): the request is taken, the channel runs. -/
def granted (c : Chan) (s : State) : State :=
  { s with pend := withoutBit s.pend c, run := withBit s.run c, draws := arbitrationDraws s }

/-- The address of word `i` of the slot at `a` (30_encoding.md R130). -/
def descWordAddr (a : Word) (i : Nat) : Word := a + BitVec.ofNat 32 (Config.wordBytes * i)

/-- One read of the fetch (41_channel_engine.md R215): a `BusError` ends the grant with the event. -/
def fetchRead (c : Chan) (a : Word) (go : Word → State → Host.Outcome State Fault Refusal) (s : State) :
    Host.Outcome State Fault Refusal :=
  match engineRead a 4 s with
  | .ok v s' => go v s'
  | .busErr => .next (raiseEvent .busErr c s)
  | .refused r => .refused r

/-- The grant and the read of word 0 (41_channel_engine.md R214, R215). With no candidate no step is enabled. -/
def grant (s : State) : Host.Outcome State Fault Refusal :=
  match arbitrate s with
  | none => .next s
  | some c =>
    let s := granted c s
    let h := s.half c
    let a := s.slot c h
    fetchRead c (descWordAddr a Layout.srcWord) (fun w0 s' => .next (s'.setSeq (.fetch1 c h a w0))) s

/-- The sequencer's next bus access or period end. The third fetch read is followed in the same step by the meaning of the
instruction fetched (41_channel_engine.md R215 to R220); from then on each step is that instruction's next access
(R222, R224). -/
def seqTurn (s : State) : Host.Outcome State Fault Refusal :=
  match s.seq with
  | .idle => grant s
  | .fetch1 c h a w0 => fetchRead c (descWordAddr a Layout.dstWord) (fun w1 s' => .next (s'.setSeq (.fetch2 c h a w0 w1))) s
  | .fetch2 c h a w0 w1 =>
    fetchRead c (descWordAddr a Layout.controlWord) (fun w2 s' => exec (decodeWords w0 w1 w2) (s'.setSeq (.fetched c h ⟨w0, w1, w2⟩))) s
  | .fetched _ _ d => exec (decodeWords d.w0 d.w1 d.w2) s
  | .period _ _ _ d => exec (decodeWords d.w0 d.w1 d.w2) s
  | .moving _ _ _ d _ => exec (decodeWords d.w0 d.w1 d.w2) s

/-! ### The host (00_scope.md R17, 20_memory.md R108, R109) -/

/-- A host access of `n` bytes at `a`: to a register it is the instruction the decoder gives; elsewhere it is a RAM
access. -/
def hostAccess (a : Word) (op : HostOp) (ram : Host.Outcome State Fault Refusal) (s : State) :
    Host.Outcome State Fault Refusal :=
  match s.cfg.mapped a with
  | .dmaReg | .fifoReg =>
    match decodeAccess s.cfg op with
    | .ok i => exec i s
    | .error e => .refused (.undecodable e)
  | .ram | .nothing => ram

/-- `FENCE` (20_memory.md R108) waits until the pending set is empty: while it is not, the oldest pending write becomes
visible and the fence is still to come (assumption log 24). -/
def fenceTurn (s : State) : State :=
  match s.pending with
  | [] => s
  | _ :: _ => { drainWrite 0 s with agenda := .host .fence :: s.agenda }

/-- The host's turn. -/
def hostTurn (op : HostOp) (s : State) : Host.Outcome State Fault Refusal :=
  match op with
  | .rd32 a => hostAccess a op (hostRamRead a 4 s) s
  | .wr32 a v => hostAccess a op (hostRamWrite a 4 v s) s
  | .rd16 a => hostAccess a op (hostRamRead a 2 s) s
  | .wr16 a v => hostAccess a op (hostRamWrite a 2 (v.setWidth 32) s) s
  | .fence => .next (fenceTurn s)

/-! ### The other agents -/

/-- Whether a FIFO channel is assigned to a mover (44_fifo_ring.md R343) and the platform has it (00_scope.md R10). DESIGN
CHOICE (assumption log 27): a channel of a block at or above `NBLK` is not there, so no mover reaches it. -/
def moverAssigned (p : Platform) (m : Nat) (id : FifoId) : Bool :=
  (p.movers.getD m []).contains id && decide (id.blk.val < p.nblk)

/-- A mover's step (44_fifo_ring.md R343): a port access of the correct size on a channel assigned to it. Any other is no
step a mover can take, and nothing happens (assumption log 27). -/
def moverTurn (m : Nat) (op : MoverOp) (s : State) : Host.Outcome State Fault Refusal :=
  match op with
  | .push id v =>
    if moverAssigned s.cfg m id then (portWrite id (s.fifo id).unit v s).written s else .next s
  | .pop id =>
    if moverAssigned s.cfg m id then
      match portRead id (s.fifo id).unit s with
      | .ok v s' => .next { s' with moverData := v }
      | .busErr => .next s
      | .refused r => .refused r
    else .next s

/-- The external reset (70_reset_and_hazards.md R411): the block's state at once as 10_state.md R61 says, all memory
unspecified. What belongs to the host and to the model stays (assumption log 24). -/
def externalReset (s : State) : State :=
  { State.resetOf s.cfg with pending := s.pending, hostData := s.hostData, moverData := s.moverData,
                             handler := s.handler, agenda := s.agenda, draws := s.draws }

/-- One turn. -/
def runTurn (t : Turn) (s : State) : Host.Outcome State Fault Refusal :=
  match t with
  | .host op => hostTurn op s
  | .seq => seqTurn s
  | .hwReq c => .next (hardwareRequest c s)
  | .drain i => .next (drainWrite i s)
  | .mover m op => moverTurn m op s
  | .deliver l => .next (deliverLine l s)
  | .blockReset => .next (externalReset s)

/-! ### Where the next step finds an instruction (assumption log 30) -/

/-- The address `placeTableWord` uses as the table's base: the one of the examples of 95_test_vectors.md. -/
def placeBase : Word := 0x20001000#32

/-- A descriptor put in channel 0's slot of a half, the channel enabled, granted, and two of its words fetched, so that
the sequencer's next access completes the fetch and runs it. -/
def placeDesc (bytes : List Byte) (s : State) : State :=
  let h : Half := if (descWord bytes Layout.controlWord).extractLsb' Layout.cycPos 3 = 5#3 then .alternate else .primary
  let s := { s with base := placeBase, inited := true, en := withBit s.en 0, run := withBit s.run 0 }.setHalf 0 h
  let a := s.slot 0 h
  { s with mem := s.mem.writeCells ((byteAddrs a Config.descBytes).zip bytes),
           seq := .fetch2 0 h a (descWord bytes Layout.srcWord) (descWord bytes Layout.dstWord),
           agenda := .seq :: s.agenda }

/-- The instruction whose table bits are `w` put where the next step runs it: a descriptor in the sequencer's hands, or a
host access as the next turn. -/
def placeTableWord (s : State) (nbits w : Nat) : State :=
  match tableCode s.cfg (w % 2 ^ nbits) with
  | .desc bytes => placeDesc bytes s
  | .access op => { s with agenda := .host op :: s.agenda }

end Sys2Proof.Machine
end

