-- ==== Sys2Proof/Machine/Step.lean ====
section
/-! DEFINITION. One step of the machine: the next turn of the agenda; with none left, the sequencer's own. -/

namespace Sys2Proof.Machine

/-- One step. The agenda says which agent moves (00_scope.md R19); when it is empty the engine goes on by itself, as the
asynchronous engine it is (assumption log 2). -/
def step (s : State) : Host.Outcome State Fault Refusal :=
  match s.agenda with
  | [] => seqTurn s
  | t :: rest => runTurn t { s with agenda := rest }

/-- The instruction whose table bits are `w` put where the next step runs it (`Machine/Turns.lean`, `placeTableWord`;
assumption log 30). -/
def State.withFetchWord (s : State) (nbits w : Nat) : State := placeTableWord s nbits w

end Sys2Proof.Machine
end

