-- ==== Sys2Proof/Machine/Builder.lean ====
section
/-! DEFINITION. The descriptor builder, the assembler of this hardware (40_descriptor_builder.md), and the software error
names (60_exceptions.md R392). It is software: no meaning depends on it (00_scope.md R7). -/

namespace Sys2Proof.Machine

/-- The error names of the software (60_exceptions.md R392). -/
inductive SwError where
  | invalidParameter
  | incrementSmallerThanWidth
  | countOutOfRange
  | busError
  | invalidDescriptor
  | fifoBoundsOutOfRange
  | widthMismatch
  | alignmentError
  | modeConflict
  | inconsistentFifoState
  | timeout
  deriving DecidableEq, Repr

/-- The operands of `build` (40_descriptor_builder.md R171), `rpow` 0 unless given. `none` is the source's increment
`none`; `cycle` is the code of 30_encoding.md R134. -/
structure BuildRequest where
  src : Word
  dst : Word
  count : Nat
  width : Nat
  srcInc : Option Nat
  dstInc : Option Nat
  cycle : Nat
  rpow : Nat := 0
  deriving DecidableEq, Repr

/-- `wcode` (40_descriptor_builder.md R172); no code for another width (R176). -/
def widthCode? (w : Nat) : Option WidthCode :=
  if w = 1 then some .byte1 else if w = 2 then some .byte2 else if w = 4 then some .byte4 else none

/-- `icode` (40_descriptor_builder.md R172); no code for another increment (R176). -/
def incCode? (i : Option Nat) : Option IncCode :=
  match i with
  | none => some .stay
  | some k => if k = 1 then some .inc1 else if k = 2 then some .inc2 else if k = 4 then some .inc4 else none

/-- An increment is one of 1, 2, 4 and below the width (40_descriptor_builder.md R174); `none` is exempt (R175). -/
def incBelow (i : Option Nat) (width : Nat) : Bool :=
  match i with
  | none => false
  | some k => decide (k < width)

/-- An end address, `start + count * increment - 1` (40_descriptor_builder.md R172). -/
def endAddress (start : Word) (count : Nat) (inc : IncCode) : Word :=
  start + BitVec.ofNat 32 (count * inc.bytes) - 1#32

/-- The descriptor of a request whose codes are known (40_descriptor_builder.md R172). -/
def assembleDesc (q : BuildRequest) (wc : WidthCode) (si di : IncCode) : Desc :=
  { srcEnd := endAddress q.src q.count si, dstEnd := endAddress q.dst q.count di,
    nm1 := BitVec.ofNat 10 (q.count - 1), rpow := BitVec.ofNat 4 q.rpow, wid := wc, sinc := si, dinc := di }

/-- `build` (40_descriptor_builder.md R170 to R177): the checks in the order of R176 and R177, then the four words. -/
def build (q : BuildRequest) : Except SwError (List Word) :=
  match widthCode? q.width, incCode? q.srcInc, incCode? q.dstInc with
  | some wc, some si, some di =>
    if 5 < q.cycle ∨ 15 < q.rpow then .error .invalidParameter
    else if q.count < 1 ∨ Config.maxUnits < q.count then .error .countOutOfRange
    else if incBelow q.srcInc q.width || incBelow q.dstInc q.width then .error .incrementSmallerThanWidth
    else if q.src.toNat % q.width ≠ 0 ∨ q.dst.toNat % q.width ≠ 0 then .error .alignmentError
    else .ok (wordsOfDesc (BitVec.ofNat 3 q.cycle) (assembleDesc q wc si di))
  | _, _, _ => .error .invalidParameter

end Sys2Proof.Machine
end

