-- ==== Sys2Proof/Machine/Software.lean ====
section
/-! DEFINITION. The host's command sequences (41_channel_engine.md R190 to R198, 42_ping_pong.md R256, R258,
43_scatter_gather.md R278, 44_fifo_ring.md R302 to R336, 60_exceptions.md R382) as programs of host accesses. They are
software: no meaning depends on them (00_scope.md R7). -/

namespace Sys2Proof.Machine

/-- A host program: it ends with a result or a software error, or makes an access and goes on with the value the host has
read. -/
inductive Prog (α : Type) where
  | done (r : Except SwError α)
  | access (op : HostOp) (k : Word → Prog α)

/-- `WR32(a, v)` (00_scope.md R17). -/
def Prog.wr32 {α : Type} (a v : Word) (k : Prog α) : Prog α := .access (.wr32 a v) fun _ => k

/-- `RD32(a)` (00_scope.md R17). -/
def Prog.rd32 {α : Type} (a : Word) (k : Word → Prog α) : Prog α := .access (.rd32 a) k

/-- `RMW32(a, mask, v)`, two accesses (00_scope.md R17, 20_memory.md R104). -/
def Prog.rmw32 {α : Type} (a mask v : Word) (k : Prog α) : Prog α :=
  .rd32 a fun x => .wr32 a ((x &&& ~~~mask) ||| (v &&& mask)) k

/-- `FENCE` (20_memory.md R108). -/
def Prog.fence {α : Type} (k : Prog α) : Prog α := .access .fence fun _ => k

/-- The program ends with an error and makes no access (60_exceptions.md R393). -/
def Prog.fail {α : Type} (e : SwError) : Prog α := .done (.error e)

/-- The program ends with a result. -/
def Prog.ret {α : Type} (x : α) : Prog α := .done (.ok x)

/-- A check made before any access (60_exceptions.md R393). -/
def Prog.check {α : Type} (ok : Bool) (e : SwError) (k : Prog α) : Prog α := if ok then k else .fail e

/-- Consecutive words written from an address on. -/
def Prog.wrWords {α : Type} : Word → List Word → Prog α → Prog α
  | _, [], k => k
  | a, v :: vs, k => .wr32 a v (wrWords (a + BitVec.ofNat 32 Config.wordBytes) vs k)

/-- One program after another. -/
def Prog.andThen {α β : Type} : Prog α → (α → Prog β) → Prog β
  | .done (.ok x), f => f x
  | .done (.error e), _ => .done (.error e)
  | .access op k, f => .access op fun v => (k v).andThen f

/-! ### Running a host program -/

/-- A `FENCE` run to its end: every pending write becomes visible, in program order (20_memory.md R108). -/
def fenceAll (s : State) : State := { s with mem := s.pending.foldl Memory.writeCells s.mem, pending := [] }

/-- One access of a host program. -/
def hostStep (op : HostOp) (s : State) : Host.Outcome State Fault Refusal :=
  match op with
  | .fence => .next (fenceAll s)
  | .rd32 _ | .wr32 _ _ | .rd16 _ | .wr16 _ _ => hostTurn op s

/-- Turns of other agents, one after the other. -/
def runTurns : List Turn → State → Host.Outcome State Fault Refusal
  | [], s => .next s
  | t :: ts, s =>
    match runTurn t s with
    | .next s' => runTurns ts s'
    | .fault r => .fault r
    | .refused r => .refused r

/-- A host program run: before each access the other agents take the turns the next entry of `env` lists, none where the
list has ended. -/
def Prog.run {α : Type} : Prog α → List (List Turn) → State →
    Host.Outcome (State × Except SwError α) Fault Refusal
  | .done r, _, s => .next (s, r)
  | .access op k, env, s =>
    match runTurns (env.headD []) s with
    | .next s1 =>
      match hostStep op s1 with
      | .next s2 => (k s2.hostData).run env.tail s2
      | .fault r => .fault r
      | .refused r => .refused r
    | .fault r => .fault r
    | .refused r => .refused r

/-! ### Commands of the channel engine (41_channel_engine.md section 1) -/

/-- The bit of a channel index. -/
def indexBit (c : Nat) : Word := 1#32 <<< c

/-- The two checks of every command that takes a channel: a valid handle (60_exceptions.md R391) and an index below `CH`
(41_channel_engine.md section 1). -/
def channelCommand {α : Type} (p : Platform) (handle : Bool) (c : Nat) (k : Prog α) : Prog α :=
  .check (handle && decide (c < p.ch)) .invalidParameter k

/-- `initialize(base)` (41_channel_engine.md R190). -/
def dmaInitialize (p : Platform) (handle : Bool) (base : Word) : Prog Unit :=
  .check handle .invalidParameter <|
  .check (decide (base.toNat % p.tableAlign = 0)) .alignmentError <|
  .wr32 (p.dmaReg .basePtr) base <|
  .wr32 (p.dmaReg .enStat) 0xFFFFFFFF#32 <|
  .wr32 (p.dmaReg .priClr) 0xFFFFFFFF#32 <|
  .wr32 (p.dmaReg .swunmaskClr) 0xFFFFFFFF#32 <|
  .ret ()

/-- The address of a slot in the table at `base` (30_encoding.md R143). -/
def slotAddress (p : Platform) (base : Word) (c : Nat) (h : Half) : Word :=
  match h with
  | .primary => base + BitVec.ofNat 32 (Config.descBytes * c)
  | .alternate => base + p.altOffset + BitVec.ofNat 32 (Config.descBytes * c)

/-- The half a flag `use_alternate` names. -/
def halfOf (useAlternate : Bool) : Half := if useAlternate then .alternate else .primary

/-- `arm(c, words, use_alternate)` into the table at `base` (41_channel_engine.md R191). -/
def arm (p : Platform) (handle : Bool) (base : Word) (c : Nat) (words : List Word) (useAlternate : Bool) : Prog Unit :=
  channelCommand p handle c <| .wrWords (slotAddress p base c (halfOf useAlternate)) words <| .ret ()

/-- `enable(c, hardware_triggered)` (41_channel_engine.md R192). -/
def enable (p : Platform) (handle : Bool) (c : Nat) (hardwareTriggered : Bool) : Prog Unit :=
  channelCommand p handle c <| .fence <|
  .wr32 (p.dmaReg (if hardwareTriggered then .swunmaskClr else .swunmaskSet)) (indexBit c) <|
  .wr32 (p.dmaReg .enSet) (indexBit c) <| .ret ()

/-- `trigger_software(c)` (41_channel_engine.md R193). -/
def triggerSoftware (p : Platform) (handle : Bool) (c : Nat) : Prog Unit :=
  channelCommand p handle c <| .wr32 (p.dmaReg .swreq) (indexBit c) <| .ret ()

/-- `disable(c)` (41_channel_engine.md R194). -/
def disable (p : Platform) (handle : Bool) (c : Nat) : Prog Unit :=
  channelCommand p handle c <|
  .wr32 (p.dmaReg .enStat) (indexBit c) <| .wr32 (p.dmaReg .swunmaskClr) (indexBit c) <| .ret ()

/-- What `read_status` returns (41_channel_engine.md R195). -/
structure StatusMasks where
  enabled : Word
  busError : Word
  invalidDescriptor : Word
  doneInterrupt : Word
  deriving DecidableEq, Repr

/-- `read_status()`: four reads, not one instant (41_channel_engine.md R195). -/
def readStatus (p : Platform) (handle : Bool) : Prog StatusMasks :=
  .check handle .invalidParameter <|
  .rd32 (p.dmaReg .enStat) fun en => .rd32 (p.dmaReg .buserrStat) fun be => .rd32 (p.dmaReg .invdescStat) fun iv =>
  .rd32 (p.dmaReg .doneStat) fun dn => .ret ⟨en, be, iv, dn⟩

/-- The kinds of `clear_status` (41_channel_engine.md R196). -/
inductive StatusKind where
  | enabled
  | busError
  | invalidDescriptor
  | done
  deriving DecidableEq, Repr

/-- The register of a kind of status (41_channel_engine.md R196). -/
def StatusKind.register : StatusKind → DmaRegister
  | .enabled => .enStat
  | .busError => .buserrStat
  | .invalidDescriptor => .invdescStat
  | .done => .doneStat

/-- `clear_status(kind, mask)` (41_channel_engine.md R196). -/
def clearStatus (p : Platform) (handle : Bool) (kind : StatusKind) (mask : Word) : Prog Unit :=
  .check handle .invalidParameter <| .wr32 (p.dmaReg kind.register) mask <| .ret ()

/-- `set_priority(c, high)` (41_channel_engine.md R197). -/
def setPriority (p : Platform) (handle : Bool) (c : Nat) (high : Bool) : Prog Unit :=
  channelCommand p handle c <| .wr32 (p.dmaReg (if high then .priSet else .priClr)) (indexBit c) <| .ret ()

/-- `select_half(c, h)` (41_channel_engine.md R197). -/
def selectHalf (p : Platform) (handle : Bool) (c : Nat) (h : Half) : Prog Unit :=
  channelCommand p handle c <|
  .wr32 (p.dmaReg (match h with | .alternate => .altSet | .primary => .altClr)) (indexBit c) <| .ret ()

/-- `enable_done_interrupt(c, on)` (41_channel_engine.md R197). -/
def enableDoneInterrupt (p : Platform) (handle : Bool) (c : Nat) (on : Bool) : Prog Unit :=
  channelCommand p handle c <| .wr32 (p.dmaReg (if on then .doneIenSet else .doneIenClr)) (indexBit c) <| .ret ()

/-- Repeated reads of the enables until a channel's is clear; `Timeout` when the bound passes (41_channel_engine.md
R198). -/
def pollDisabled (p : Platform) (c : Nat) : Nat → Prog Unit
  | 0 => .fail .timeout
  | n + 1 => .rd32 (p.dmaReg .enStat) fun en => if en.getLsbD c then pollDisabled p c n else .ret ()

/-- Waiting for a channel's enable bit to clear, under a bound (41_channel_engine.md R198, 60_exceptions.md R391). -/
def awaitDisabled (p : Platform) (handle : Bool) (c bound : Nat) : Prog Unit :=
  channelCommand p handle c <| pollDisabled p c bound

/-! ### Ping-pong and scatter-gather protocols -/

/-- `parity[c]` when `pingpong_start` returns (42_ping_pong.md R258): the first completion is of the primary. -/
def startParity : Nat := 0

/-- `pingpong_start` (42_ping_pong.md R256); it returns the parity counter of the sequence it has started (R258). -/
def pingpongStart (p : Platform) (handle : Bool) (base : Word) (c : Nat) (descA descB : List Word)
    (hardwareTriggered : Bool) : Prog Nat :=
  (selectHalf p handle c .primary).andThen fun _ =>
  (arm p handle base c descA false).andThen fun _ =>
  (arm p handle base c descB true).andThen fun _ =>
  (enableDoneInterrupt p handle c true).andThen fun _ =>
  (enable p handle c hardwareTriggered).andThen fun _ => .ret startParity

/-- The half call `parity` reprograms: the one hardware has just vacated (42_ping_pong.md R258). -/
def parityHalf (parity : Nat) : Half := if parity % 2 = 0 then .primary else .alternate

/-- The reprogramming part of `pingpong_service`: arm the vacated half, fence, count (42_ping_pong.md R258). -/
def pingpongReprogram (p : Platform) (base : Word) (c parity : Nat) (next : List Word) : Prog Nat :=
  .wrWords (slotAddress p base c (parityHalf parity)) next <| .fence <| .ret (parity + 1)

/-- `pingpong_service(c)` (42_ping_pong.md R258), with the value `seen` read from `DMA_DONE_STAT`; it returns the new
parity. -/
def pingpongService (p : Platform) (handle : Bool) (base : Word) (c parity : Nat) (next : List Word) (seen : Word) :
    Prog Nat :=
  channelCommand p handle c <|
  if seen.getLsbD c then .wr32 (p.dmaReg .doneStat) (indexBit c) <| pingpongReprogram p base c parity next
  else .ret parity

/-- The message descriptor of a chain of `k` tasks at `array` (43_scatter_gather.md R272, R278), the alternate base as
read: from the array to the last byte of the channel's alternate slot, four words a period. -/
def messageWords (altBase : Word) (c : Nat) (array : Word) (k : Nat) : List Word :=
  wordsOfDesc 4#3
    { srcEnd := array + BitVec.ofNat 32 (Config.descBytes * k) - 1#32,
      dstEnd := altBase + BitVec.ofNat 32 (Config.descBytes * c) + BitVec.ofNat 32 (Config.descBytes - 1),
      nm1 := BitVec.ofNat 10 (Config.descWords * k - 1), rpow := 2#4, wid := .byte4, sinc := .inc4, dinc := .inc4 }

/-- `sg_start` (43_scatter_gather.md R278). A chain length or array address outside the rule's bounds is rejected before
any access (assumption log 37). -/
def sgStart (p : Platform) (handle : Bool) (base : Word) (c : Nat) (tasks : List (List Word)) (array : Word)
    (hardwareTriggered : Bool) : Prog Unit :=
  channelCommand p handle c <|
  .check (decide (1 ≤ tasks.length) && decide (tasks.length ≤ 256)) .invalidParameter <|
  .check (decide (array.toNat % 4 = 0)) .alignmentError <|
  .wrWords array tasks.flatten <|
  .rd32 (p.dmaReg .altBasePtr) fun altBase =>
  (selectHalf p handle c .primary).andThen fun _ =>
  (arm p handle base c (messageWords altBase c array tasks.length) false).andThen fun _ =>
  (enableDoneInterrupt p handle c true).andThen fun _ =>
  (enable p handle c hardwareTriggered).andThen fun _ =>
  if hardwareTriggered then .ret () else triggerSoftware p handle c

/-- What the interrupt path knows of a ping-pong channel (42_ping_pong.md R258). -/
structure PingPong where
  chan : Nat
  parity : Nat := startParity
  next : List Word
  deriving DecidableEq, Repr

/-- What the service routine publishes (60_exceptions.md R382): the channels completed, and each failed channel with the
name of its error (R392: E2 is `BusError`, E3 `InvalidDescriptor`). -/
structure ServiceReport where
  completed : List Nat
  failed : List (Nat × SwError)
  pingpong : List PingPong
  deriving DecidableEq, Repr

/-- The channels whose bits a mask holds. -/
def channelsIn (m : Word) : List Nat := (List.range 32).filter fun c => m.getLsbD c

/-- The errors two status words hold, by channel (60_exceptions.md R382, R392): a channel with both bits has both. -/
def errorsIn (busErr invDesc : Word) : List (Nat × SwError) :=
  (channelsIn (busErr ||| invDesc)).flatMap fun c =>
    (if busErr.getLsbD c then [(c, .busError)] else []) ++ (if invDesc.getLsbD c then [(c, .invalidDescriptor)] else [])

/-- The ping-pong part of the service routine: each channel whose Done bit was read is reprogrammed. -/
def serviceAll (p : Platform) (base d : Word) : List PingPong → Prog (List PingPong)
  | [] => .ret []
  | x :: xs =>
    if d.getLsbD x.chan then
      (pingpongReprogram p base x.chan x.parity x.next).andThen fun par =>
      (serviceAll p base d xs).andThen fun ys => .ret ({ x with parity := par } :: ys)
    else (serviceAll p base d xs).andThen fun ys => .ret (x :: ys)

/-- The service entry point (60_exceptions.md R382): read and clear exactly the observed bits, reprogram the ping-pong
channels, publish the rest. Nothing is retried. -/
def serviceInterrupt (p : Platform) (base : Word) (pp : List PingPong) : Prog ServiceReport :=
  .rd32 (p.dmaReg .doneStat) fun d => .rd32 (p.dmaReg .buserrStat) fun e => .rd32 (p.dmaReg .invdescStat) fun i =>
  .wr32 (p.dmaReg .doneStat) d <| .wr32 (p.dmaReg .buserrStat) e <| .wr32 (p.dmaReg .invdescStat) i <|
  (serviceAll p base d pp).andThen fun pp' =>
  .ret { completed := (channelsIn d).filter (fun c => !(pp.any fun x => x.chan == c)),
         failed := errorsIn e i, pingpong := pp' }

/-! ### Commands of the FIFO controller (44_fifo_ring.md) -/

/-- A FIFO command: a valid handle and an existing FIFO channel (60_exceptions.md R391, R392; 44_fifo_ring.md R302). -/
def fifoCommand {α : Type} (p : Platform) (handle : Bool) (b f : Nat) (k : FifoId → Prog α) : Prog α :=
  if h : b < 3 ∧ f < 4 then
    .check (handle && decide (b < p.nblk)) .invalidParameter (k ⟨⟨b, h.1⟩, ⟨f, h.2⟩⟩)
  else .fail .invalidParameter

/-- The configured sections, `FIFO_INIT[23:8] + 1`. -/
def lenOfInit (init : Word) : Nat := (init.extractLsb' 8 16).toNat + 1

/-- The configured unit, from `FIFO_INIT` bit 24. -/
def unitOfInit (init : Word) : Nat := if init.getLsbD 24 then 4 else 2

/-- The init word (44_fifo_ring.md R302). -/
def initWordOf (boff len width : Nat) : Word :=
  BitVec.ofNat 32 boff ||| BitVec.ofNat 32 ((len - 1) * 256) ||| flagBit (decide (width = 32)) 24

/-- `fifo_init(block, channel, base_offset_sections, length_sections, width)` (44_fifo_ring.md R301, R302). `mode` is the
software's record of the mode it has enabled (10_state.md R60): only in mode disabled is there an access
(70_reset_and_hazards.md R431). That the record is tested, so that R302's one access stays the only one, and that the error
is `InvalidParameter`, is a DESIGN CHOICE (assumption log 41). -/
def fifoInit (p : Platform) (handle : Bool) (mode : FifoMode) (b f boff len width : Nat) : Prog Unit :=
  fifoCommand p handle b f fun id =>
  .check (decide (mode = .disabled)) .invalidParameter <|
  .check ((decide (width = 16) || decide (width = 32)) && decide (boff ≤ 255)) .invalidParameter <|
  .check (decide (1 ≤ len) && decide (boff + len ≤ Config.blockSections id.blk)) .fifoBoundsOutOfRange <|
  .wr32 (p.fifoReg id .init) (initWordOf boff len width) <| .ret ()

/-- `enable_fifo(on)` (44_fifo_ring.md R311). -/
def enableFifo (p : Platform) (handle : Bool) (b f : Nat) (on : Bool) : Prog Unit :=
  fifoCommand p handle b f fun id =>
  if on then
    .rd32 (p.fifoReg id .ctrl) fun x =>
    .check (!x.getLsbD 1) .modeConflict <| .rmw32 (p.fifoReg id .ctrl) 1#32 1#32 <| .ret ()
  else .rmw32 (p.fifoReg id .ctrl) 1#32 0#32 <| .ret ()

/-- `enable_delay_line(on)` (44_fifo_ring.md R312). -/
def enableDelayLine (p : Platform) (handle : Bool) (b f : Nat) (on : Bool) : Prog Unit :=
  fifoCommand p handle b f fun id =>
  if on then
    .rd32 (p.fifoReg id .ctrl) fun x =>
    .check (!x.getLsbD 0) .modeConflict <| .rmw32 (p.fifoReg id .ctrl) 2#32 2#32 <| .ret ()
  else .rmw32 (p.fifoReg id .ctrl) 2#32 0#32 <| .ret ()

/-- `used_size()` (44_fifo_ring.md R327). -/
def usedSize (p : Platform) (handle : Bool) (b f : Nat) : Prog Nat :=
  fifoCommand p handle b f fun id => .rd32 (p.fifoReg id .used) fun u => .ret u.toNat

/-- `free_size()` (44_fifo_ring.md R328). -/
def freeSize (p : Platform) (handle : Bool) (b f : Nat) : Prog Nat :=
  fifoCommand p handle b f fun id =>
  .rd32 (p.fifoReg id .used) fun u => .rd32 (p.fifoReg id .init) fun init =>
  let cap := lenOfInit init * Config.sectionBytes
  if cap < u.toNat then .fail .inconsistentFifoState else .ret (cap - u.toNat)

/-- The checks of `push` and `pop` (44_fifo_ring.md R313, R325, R326): the view matches, the mode is `fifo` (in delay-line
mode `fen` is 0); the rest gets the unit. -/
def portCommand {α : Type} (p : Platform) (handle : Bool) (b f view : Nat) (k : FifoId → Nat → Prog α) : Prog α :=
  fifoCommand p handle b f fun id =>
  .rd32 (p.fifoReg id .init) fun init =>
  .check (decide (view = 8 * unitOfInit init)) .widthMismatch <|
  .rd32 (p.fifoReg id .ctrl) fun ctrl =>
  .check (ctrl.getLsbD 0 && !ctrl.getLsbD 1) .modeConflict <| k id (unitOfInit init)

/-- Port writes, one for each word, then the count of them (44_fifo_ring.md R325). -/
def pushWords (a : Word) (unit : Nat) : List Word → Nat → Prog Nat
  | [], n => .ret n
  | v :: vs, n =>
    .access (if unit = 4 then .wr32 a v else .wr16 a (v.setWidth 16)) fun _ => pushWords a unit vs n

/-- `push(words, view)` (44_fifo_ring.md R325): the request is clamped to the free size, once. -/
def push (p : Platform) (handle : Bool) (b f : Nat) (words : List Word) (view : Nat) : Prog Nat :=
  portCommand p handle b f view fun id unit =>
  (freeSize p handle b f).andThen fun free =>
  let m := min words.length (free / unit)
  pushWords (p.fifoReg id .port) unit (words.take m) m

/-- Port reads, collected in order (44_fifo_ring.md R326). -/
def popWords (a : Word) (unit : Nat) : Nat → List Word → Prog (List Word)
  | 0, acc => .ret acc.reverse
  | n + 1, acc => .access (if unit = 4 then .rd32 a else .rd16 a) fun v => popWords a unit n (v :: acc)

/-- `pop(max_words, view)` (44_fifo_ring.md R326): the words read; their number is the list's length. -/
def pop (p : Platform) (handle : Bool) (b f maxWords view : Nat) : Prog (List Word) :=
  portCommand p handle b f view fun id unit =>
  (usedSize p handle b f).andThen fun used =>
  popWords (p.fifoReg id .port) unit (min maxWords (used / unit)) []

/-- A threshold write (44_fifo_ring.md R330), rejected before any access (60_exceptions.md R393) above `len`, the length
the software has configured (assumption log 37). -/
def setThreshold (p : Platform) (handle : Bool) (b f len sections : Nat) (r : FifoRegister) : Prog Unit :=
  fifoCommand p handle b f fun id =>
  .check (decide (sections ≤ len)) .invalidParameter <|
  .wr32 (p.fifoReg id r) (BitVec.ofNat 32 sections) <| .ret ()

/-- `set_almost_full_threshold` (44_fifo_ring.md R330). -/
def setAlmostFullThreshold (p : Platform) (handle : Bool) (b f len sections : Nat) : Prog Unit :=
  setThreshold p handle b f len sections .afThr

/-- `set_almost_empty_threshold` (44_fifo_ring.md R330). -/
def setAlmostEmptyThreshold (p : Platform) (handle : Bool) (b f len sections : Nat) : Prog Unit :=
  setThreshold p handle b f len sections .aeThr

/-- `read_pointer()` (44_fifo_ring.md R331). -/
def readPointer (p : Platform) (handle : Bool) (b f : Nat) : Prog Nat :=
  fifoCommand p handle b f fun id => .rd32 (p.fifoReg id .rdptr) fun x => .ret x.toNat

/-- `write_pointer()` (44_fifo_ring.md R331). -/
def writePointer (p : Platform) (handle : Bool) (b f : Nat) : Prog Nat :=
  fifoCommand p handle b f fun id => .rd32 (p.fifoReg id .wrptr) fun x => .ret x.toNat

/-- `set_delay_line_length(sections)` (44_fifo_ring.md R336), rejected before any access (60_exceptions.md R393) unless
`1 <= sections <= len`, `len` the length the software has configured (assumption log 37). -/
def setDelayLineLength (p : Platform) (handle : Bool) (b f len sections : Nat) : Prog Unit :=
  fifoCommand p handle b f fun id =>
  .check (decide (1 ≤ sections) && decide (sections ≤ len)) .invalidParameter <|
  .wr32 (p.fifoReg id .dlLen) (BitVec.ofNat 32 sections) <| .ret ()

end Sys2Proof.Machine
end

