-- ==== Sys2Proof/Safety.lean ====
section
/-! DEFINITION. What claims are stated in terms of: the invariant of the machine, the hazards software must avoid
(70_reset_and_hazards.md section 3 and 4), and the ring invariant of a FIFO channel. -/

namespace Sys2Proof.Machine

/-! ### The invariant -/

/-- No bit of a per-channel word stands for a channel that does not exist (10_state.md R62). -/
def reservedClear (p : Platform) (x : Word) : Prop := x &&& ~~~p.chanMask = 0#32

/-- `cur` and the progress it counts on (10_state.md R45, R46): the period's channel exists, `k` is at most the units
left, and a unit under way is one of them. A resting machine is never between a fetch and its admission. -/
def phaseOk (s : State) : Prop :=
  match s.seq with
  | .idle => True
  | .fetch1 c _ _ _ => c.val < s.cfg.ch
  | .fetch2 c _ _ _ _ => c.val < s.cfg.ch
  | .fetched _ _ _ => False
  | .period c h k _ => c.val < s.cfg.ch ∧ ∃ r, s.rem c h = some r ∧ k ≤ r
  | .moving c h k _ _ => c.val < s.cfg.ch ∧ ∃ r, s.rem c h = some r ∧ 1 ≤ k ∧ k ≤ r

/-- Units left are 1 to 1024 (10_state.md R45); 0 only between a cycle's last unit and its period end. -/
def remOk (s : State) : Prop :=
  ∀ (c : Chan) (h : Half) (r : Nat), s.rem c h = some r →
    r ≤ Config.maxUnits ∧ (r = 0 → ∃ d, s.seq = .period c h 0 d)

/-- A channel that is not enabled and has no period in flight holds no request, no running flag and no progress
(41_channel_engine.md R231). A latched request means an enabled channel (10_state.md R42). -/
def disabledClean (s : State) : Prop :=
  ∀ c : Chan, bitOf s.en c = false →
    bitOf s.pend c = false ∧
    (s.seq.curChan ≠ some c → bitOf s.run c = false ∧ s.rem c .primary = none ∧ s.rem c .alternate = none)

/-- The invariant every step keeps. Its last field: no pending host write names an address twice. -/
structure State.Inv (s : State) : Prop where
  platform : s.cfg.wf = true
  memory : s.mem.wf = true
  blocks : ∀ b : Fin 3, (s.block b).wf = true
  base : s.base &&& s.cfg.baseLowBits = 0#32
  reserved : reservedClear s.cfg s.en ∧ reservedClear s.cfg s.swun ∧ reservedClear s.cfg s.pri ∧
    reservedClear s.cfg s.alt ∧ reservedClear s.cfg s.dien ∧ reservedClear s.cfg s.berr ∧
    reservedClear s.cfg s.inv ∧ reservedClear s.cfg s.done ∧ reservedClear s.cfg s.pend ∧ reservedClear s.cfg s.run
  phase : phaseOk s
  progress : remOk s
  disabled : disabledClean s
  modes : ∀ id : FifoId, (s.fifo id).mode ≠ .both
  pending : ∀ w ∈ s.pending, (w.map Prod.fst).Nodup

/-- The ring invariant of a FIFO channel (44_fifo_ring.md R338, 10_state.md R56). -/
structure FifoChan.Ring (f : FifoChan) : Prop where
  used_le : f.used.toNat ≤ f.cap
  used_unit : f.used.toNat % f.unit = 0
  rd_lt : f.rd.toNat < f.cap
  wr_lt : f.wr.toNat < f.cap
  rd_unit : f.rd.toNat % f.unit = 0
  wr_eq : f.wr.toNat = (f.rd.toNat + f.used.toNat) % f.cap

/-! ### Hazards: what software must not do, as premises of claims -/

/-- The hazards of 70_reset_and_hazards.md and 93_implementation_defined.md whose hardware effect the model takes. -/
inductive Hazard where
  /-- U1, R414: a channel enabled before `initialize`. -/
  | enableBeforeInitialize
  /-- U2, R420: the table moved while a channel is enabled. -/
  | moveTableWhileEnabled
  /-- U5, R255, R425: a host write is made, or becomes visible, in a slot that belongs to the hardware. -/
  | writeIntoLiveSlot
  /-- U16, R426: a channel enabled again while its last period is in flight. -/
  | enableDuringPeriod
  /-- R197, R430: `pri`, `alt` or `swun` of an enabled channel changed. -/
  | controlOfEnabledChannel
  /-- U23, R433: FIFO mode enabled on a channel whose pointers and count disagree. -/
  | fifoAfterDelayLine
  deriving DecidableEq, Repr

/-- The bits of existing channels a written value names. -/
def named (s : State) (v : Word) : Word := v &&& s.cfg.chanMask

/-- The channel bit of the period in flight. -/
def curBit (s : State) : Word :=
  match s.seq.curChan with
  | some c => chanBit c
  | none => 0#32

/-- The hazard of an instruction of the host at a state, if there is one. -/
def instrHazard (i : Instr) (s : State) : Option Hazard :=
  match i with
  | .dmaBasePtrW _ => if s.en = 0#32 then none else some .moveTableWhileEnabled
  | .dmaEnSetW v =>
    if !s.inited && decide (named s v ≠ 0#32) then some .enableBeforeInitialize
    else if named s v &&& curBit s ≠ 0#32 then some .enableDuringPeriod else none
  | .dmaPriSetW v | .dmaPriClrW v | .dmaAltSetW v | .dmaAltClrW v =>
    if named s v &&& s.en = 0#32 then none else some .controlOfEnabledChannel
  | .dmaSwunmaskSetW v =>
    if named s v &&& s.en &&& ~~~s.swun = 0#32 then none else some .controlOfEnabledChannel
  | .dmaSwunmaskClrW v => if named s v &&& s.en &&& s.swun = 0#32 then none else some .controlOfEnabledChannel
  | .fifoCtrlW id v =>
    let f := s.fifo id
    if v.getLsbD 0 && !f.fen && decide (f.wr.toNat ≠ (f.rd.toNat + f.used.toNat) % f.cap) then some .fifoAfterDelayLine
    else none
  | _ => none

/-- The addresses of a slot's bytes. -/
def slotBytes (s : State) (c : Chan) (h : Half) : List Nat := byteAddrs (s.slot c h) Config.descBytes

/-- A scatter-gather chain runs on a channel, from `enable` to its Done event (70_reset_and_hazards.md R425): the channel is
enabled and its primary slot, as memory holds it, is a message descriptor (43_scatter_gather.md R272). A control word that
nothing has written is no message. -/
def chainRuns (s : State) (c : Chan) : Bool :=
  let at? (k : Nat) := s.mem.readByte (descWordAddr (s.slot c .primary) Layout.controlWord + BitVec.ofNat 32 k).toNat
  bitOf s.en c && ((List.range Config.wordBytes).mapM at?).any fun bs =>
    decide ((wordOfBytes bs).extractLsb' Layout.cycPos 3 = 4#3)

/-- A slot belongs to the hardware: it is the live slot of an enabled channel (42_ping_pong.md R255,
70_reset_and_hazards.md R425), or a cycle is in progress on it (U5), or a chain runs on its channel (R425). The slot that
is not selected is the host's. -/
def slotOwned (s : State) (c : Chan) (h : Half) : Bool :=
  (bitOf s.en c && decide (h = s.half c)) || (s.rem c h).isSome || chainRuns s c

/-- A write touches a slot that belongs to the hardware. -/
def touchesLiveSlot (s : State) (w : List Host.Cell) : Bool :=
  (List.finRange 32).any fun c => decide (c.val < s.cfg.ch) && [Half.primary, .alternate].any fun h =>
    slotOwned s c h && w.any fun x => (slotBytes s c h).contains x.1

/-- The hazard of a write, made or becoming visible. -/
def writeHazard (s : State) (w : List Host.Cell) : Option Hazard :=
  if touchesLiveSlot s w then some .writeIntoLiveSlot else none

/-- The hazard of a host access: of the register instruction it is, or of the RAM write it makes. -/
def accessHazard (op : HostOp) (a : Word) (n : Nat) (v : Word) (s : State) : Option Hazard :=
  match decodeAccess s.cfg op with
  | .ok i => instrHazard i s
  | .error _ => writeHazard s (cellsOf (byteAddrs a n) v)

/-- The hazard of a turn, if there is one. A turn with none keeps the rules of 70_reset_and_hazards.md that the machine
does not enforce. A `FENCE` with writes pending makes the oldest visible, as a drain of it does. -/
def turnHazard (t : Turn) (s : State) : Option Hazard :=
  match t with
  | .host (.wr32 a v) => accessHazard (.wr32 a v) a 4 v s
  | .host (.wr16 a v) => accessHazard (.wr16 a v) a 2 (v.setWidth 32) s
  | .host .fence => s.pending.head?.bind (writeHazard s)
  | .drain i => (takePending s.pending i).bind fun x => writeHazard s x.1
  | .host (.rd32 _) | .host (.rd16 _) | .seq | .hwReq _ | .mover _ _ | .deliver _ | .blockReset => none

end Sys2Proof.Machine
end

