-- ==== Sys2Proof/Certificates/Slice0/Obligations.lean ====
section
/-! DEFINITION. The statements for the provers. `∃ t, exec i s = .next t ∧ t = { s with x := t.x } ∧ ...` says that the
instruction answers a next state, that only the named fields may differ, and what they become. -/

open Sys2Proof Sys2Proof.Machine

namespace Sys2Proof.Spec

/-- Byte `j` of a value, little-endian (20_memory.md R95). -/
def byteAt (v : Word) (j : Nat) : Byte := (v >>> (8 * j)).setWidth 8

/-- Address `j` of an access at `a`. -/
def addrAt (a : Word) (j : Nat) : Nat := (a + BitVec.ofNat 32 j).toNat

/-- The access is aligned and all its bytes are unprotected RAM: the conditions of 20_memory.md R96. -/
def RamAccess (p : Platform) (a : Word) (n : Nat) : Prop :=
  a.toNat % n = 0 ∧ ∀ j, j < n →
    p.mapped (a + BitVec.ofNat 32 j) = .ram ∧ p.isProtected (a + BitVec.ofNat 32 j) = false

/-- The access is a bus error: the conditions of 20_memory.md R100. -/
def BusErrorAccess (p : Platform) (a : Word) (n : Nat) : Prop :=
  a.toNat % n ≠ 0 ∨ ∃ j, j < n ∧
    (p.isProtected (a + BitVec.ofNat 32 j) = true ∨ p.mapped (a + BitVec.ofNat 32 j) = .nothing)

/-- Memory holds the `n` bytes of `v` at `a`. -/
def Holds (m : Memory) (a : Word) (n : Nat) (v : Word) : Prop :=
  ∀ j, j < n → m.readByte (addrAt a j) = some (byteAt v j)

/-- The `n`-byte value `v` is read from `a`: its byte `j` is the one memory holds there, if something has written it, and
any value else (20_memory.md R96). -/
def ReadsFrom (look : Nat → Option Byte) (a : Word) (n : Nat) (v : Word) : Prop :=
  v.toNat < 2 ^ (8 * n) ∧ ∀ j, j < n → ∀ b, look (addrAt a j) = some b → byteAt v j = b

/-- `m'` is `m` with the `n` bytes at `a` replaced by those of `v`, every other address reading as before. -/
def Stored (m m' : Memory) (a : Word) (n : Nat) (v : Word) : Prop :=
  Holds m' a n v ∧ ∀ b, (∀ j, j < n → b ≠ addrAt a j) → m'.readByte b = m.readByte b

/-- The block's SRAM byte `k` of a unit at pointer `ptr`. -/
def unitByte (f : FifoChan) (ptr : BitVec 17) (k : Nat) : Nat := f.pbase + ptr.toNat + k

/-- An SRAM block with the bytes of a unit `v` stored at pointer `ptr`, every other byte as before. -/
def UnitStored (f : FifoChan) (ptr : BitVec 17) (v : Word) (m m' : Memory) : Prop :=
  (∀ k, k < f.unit → m'.readByte (unitByte f ptr k) = some (byteAt v k)) ∧
  ∀ b, (∀ k, k < f.unit → b ≠ unitByte f ptr k) → m'.readByte b = m.readByte b

/-- The unit `v` is read at pointer `ptr`: its byte `k` is the one the block holds there, if something has written it,
and any value else. -/
def UnitReads (f : FifoChan) (ptr : BitVec 17) (m : Memory) (v : Word) : Prop :=
  v.toNat < 2 ^ (8 * f.unit) ∧ ∀ k, k < f.unit → ∀ b, m.readByte (unitByte f ptr k) = some b → byteAt v k = b

/-- The effect of an error event on channel `c` (60_exceptions.md R372, R373): the enable, the request, the running flag
and both progress counters of `c` are cleared, no period is in flight; other channels and other fields are as before, but
for the two error status words. -/
def DisabledByError (c : Chan) (s t : State) : Prop :=
  t = { s with berr := t.berr, inv := t.inv, en := t.en, pend := t.pend, run := t.run, progress := t.progress,
               seq := .idle } ∧
  (∀ d, bitOf t.en d = (bitOf s.en d && !decide (d = c))) ∧
  (∀ d, bitOf t.pend d = (bitOf s.pend d && !decide (d = c))) ∧
  (∀ d, bitOf t.run d = (bitOf s.run d && !decide (d = c))) ∧
  ∀ d g, t.rem d g = if d = c then none else s.rem d g

/-- `raise BusErr(c)` (60_exceptions.md R372). -/
def BusErrRaised (c : Chan) (s t : State) : Prop :=
  DisabledByError c s t ∧ t.inv = s.inv ∧ ∀ d, bitOf t.berr d = (bitOf s.berr d || decide (d = c))

/-- `raise InvDesc(c)` (60_exceptions.md R373). -/
def InvDescRaised (c : Chan) (s t : State) : Prop :=
  DisabledByError c s t ∧ t.berr = s.berr ∧ ∀ d, bitOf t.inv d = (bitOf s.inv d || decide (d = c))

/-- `invalid(control)` on the raw bits (30_encoding.md R139). -/
def InvalidWord (w2 : Word) : Prop :=
  w2.extractLsb' 0 3 = 0#3 ∨ w2.extractLsb' 0 3 = 6#3 ∨ w2.extractLsb' 0 3 = 7#3 ∨
  w2.extractLsb' 24 2 = 3#2 ∨ w2.extractLsb' 26 2 < w2.extractLsb' 24 2 ∨ w2.extractLsb' 30 2 < w2.extractLsb' 24 2

/-- The fields of a descriptor are valid (30_encoding.md R139). -/
def ValidFields (d : Desc) : Prop :=
  d.wid ≠ .reserved ∧ d.wid.code ≤ d.sinc.code ∧ d.wid.code ≤ d.dinc.code

/-- The fixed fields of a message descriptor (43_scatter_gather.md R272). -/
def MessageFields (d : Desc) : Prop :=
  d.wid = .byte4 ∧ d.sinc = .inc4 ∧ d.dinc = .inc4 ∧ d.rpow = 2#4 ∧ (d.nm1.toNat + 1) % 4 = 0

/-- The five cycle types that move data, as instructions with the operands `d`. -/
def MovingType (d : Desc) (i : Instr) : Prop :=
  i = .basic d ∨ i = .autoreq d ∨ i = .pingpong d ∨ i = .sgpri d ∨ i = .sgalt d

/-- The source address with `r` units left (41_channel_engine.md R221). -/
def srcOf (d : Desc) (r : Nat) : Word := d.srcEnd + 1#32 - BitVec.ofNat 32 (r * d.sinc.bytes)

/-- The destination address of an instruction with `r` units left (41_channel_engine.md R221, 43_scatter_gather.md
R271). -/
def dstOf (i : Instr) (d : Desc) (r : Nat) : Word :=
  match i with
  | .sgpri _ => d.dstEnd + 1#32 - BitVec.ofNat 32 (((r - 1) % 4 + 1) * d.dinc.bytes)
  | _ => d.dstEnd + 1#32 - BitVec.ofNat 32 (r * d.dinc.bytes)

/-- Channel `c` is a candidate of arbitration (41_channel_engine.md R213). -/
def Candidate (s : State) (c : Chan) : Prop :=
  c.val < s.cfg.ch ∧ bitOf s.en c = true ∧ bitOf s.pend c = true

/-- The address of the slot a grant of `c` fetches (10_state.md R48). -/
def liveSlot (s : State) (c : Chan) : Word :=
  if bitOf s.alt c then s.base + s.cfg.altOffset + BitVec.ofNat 32 (16 * c.val)
  else s.base + BitVec.ofNat 32 (16 * c.val)

/-- The half a grant of `c` fetches (10_state.md R37). -/
def liveHalf (s : State) (c : Chan) : Half := if bitOf s.alt c then .alternate else .primary

/-- The agenda gives the sequencer the next turn, by name or because it is empty; `rest` is the agenda left. -/
def SeqMoves (s : State) (rest : List Turn) : Prop :=
  s.agenda = .seq :: rest ∨ (s.agenda = [] ∧ rest = [])

/-- Every field but FIFO channel `id`'s is as before. -/
def OnlyFifo (id : FifoId) (s t : State) : Prop :=
  t = { s with fifos := t.fifos } ∧ ∀ x, x ≠ id → t.fifo x = s.fifo x

/-- Every field but FIFO channel `id`'s and its block's bytes is as before. -/
def OnlyFifoAndBlock (id : FifoId) (s t : State) : Prop :=
  t = { s with fifos := t.fifos, sram := t.sram } ∧ (∀ x, x ≠ id → t.fifo x = s.fifo x) ∧
  ∀ b, b ≠ id.blk → t.block b = s.block b

/-- The units a FIFO channel holds, oldest first, each as its bytes (44_fifo_ring.md R338). -/
def contents (s : State) (id : FifoId) : List (List (Option Byte)) :=
  let f := s.fifo id
  (List.range (f.used.toNat / f.unit)).map fun j =>
    (List.range f.unit).map fun k =>
      (s.block id.blk).readByte (f.pbase + (f.rd.toNat + j * f.unit) % f.cap + k)

/-- Every register bit, flag and line is 0, every progress counter is `IDLE`, no period is in flight (10_state.md R61). -/
def ResetValues (s : State) : Prop :=
  (s.base = 0#32 ∧ s.inited = false) ∧
  (∀ c : Chan, bitOf s.en c = false ∧ bitOf s.swun c = false ∧ bitOf s.pri c = false ∧ bitOf s.alt c = false ∧
    bitOf s.dien c = false ∧ bitOf s.berr c = false ∧ bitOf s.inv c = false ∧ bitOf s.done c = false ∧
    bitOf s.pend c = false ∧ bitOf s.run c = false ∧ ∀ h, s.rem c h = none) ∧
  s.seq = .idle ∧
  (∀ id : FifoId, let f := s.fifo id
    f.boff = 0#8 ∧ f.lenm1 = 0#16 ∧ f.w32 = false ∧ f.mode = .disabled ∧ f.afthr = 0#16 ∧ f.aethr = 0#16 ∧
    f.dllen = 0#16 ∧ f.rd = 0#17 ∧ f.wr = 0#17 ∧ f.used = 0#17 ∧ f.ovf = false ∧ f.unf = false ∧
    f.afien = false ∧ f.aeien = false ∧ f.errien = false ∧ s.fifoIrq id = false) ∧
  s.dmaIrq = false

/-- `alt[c]` after a period of an instruction that leaves `r` units, from its value `x` before (41_channel_engine.md R226,
R227; 42_ping_pong.md R251; 43_scatter_gather.md R272, R274). -/
def altAfter (i : Instr) (r : Nat) (x : Bool) : Bool :=
  match i with
  | .pingpong _ => if r = 0 then !x else x
  | .sgpri _ => true
  | .sgalt _ => if r = 0 then false else x
  | _ => x

end Sys2Proof.Spec

open Sys2Proof.Spec

/-! ### Encoding -/

/-- Decoding an encoded instruction gives it back (30_encoding.md R130, R133, R145, R150). -/
def Obligations.DecodeOfEncodeIsTheInstruction : Prop :=
  ∀ (p : Platform) (i : Instr), p.wf = true → i.wf p = true → decode p (encode p i) = .ok i

/-- Words and accesses written out in 95_test_vectors.md decode to what they stand for. -/
def Obligations.WrittenOutWordsDecode : Prop :=
  decodeWords 0x2000001F#32 0x2000011F#32 0x8A008071#32 =
    .basic ⟨0x2000001F#32, 0x2000011F#32, 7#10, 2#4, .byte4, .inc4, .inc4⟩ ∧
  decodeWords 0x2000501F#32 0x20006025#32 0x4D008021#32 =
    .basic ⟨0x2000501F#32, 0x20006025#32, 2#10, 2#4, .byte2, .stay, .inc2⟩ ∧
  decodeWords 0x2000402F#32 0x2000120F#32 0x8A0080B4#32 =
    .sgpri ⟨0x2000402F#32, 0x2000120F#32, 11#10, 2#4, .byte4, .inc4, .inc4⟩ ∧
  decodeAccess Platform.sample (.wr32 0x40001008#32 8#32) = .ok (.dmaEnSetW 8#32) ∧
  decodeAccess Platform.sample (.rd32 0x4000221C#32) = .ok (.fifoUsedR ⟨2, 0⟩) ∧
  decodeAccess Platform.sample (.wr16 0x400021A4#32 0xBEEF#16) = .ok (.portW16 ⟨1, 2⟩ 0xBEEF#16)

/-- Reserved control bits (3, 23:18, 29:28) and word 3 take no part (30_encoding.md R140). -/
def Obligations.ReservedDescriptorBitsAreIgnored : Prop :=
  (∀ w0 w1 w2 r : Word,
    decodeWords w0 w1 ((w2 &&& ~~~0x30FC0008#32) ||| (r &&& 0x30FC0008#32)) = decodeWords w0 w1 w2) ∧
  ∀ (b x y : List Byte), b.length = 12 → x.length = 4 → y.length = 4 → decodeDesc (b ++ x) = decodeDesc (b ++ y)

/-! ### A step runs the decoded instruction -/

/-- A host turn whose access decodes to an instruction runs it. -/
def Obligations.HostTurnRunsTheDecodedInstruction : Prop :=
  ∀ (s : State) (op : HostOp) (rest : List Turn) (i : Instr), s.agenda = .host op :: rest →
    decodeAccess s.cfg op = .ok i → step s = exec i { s with agenda := rest }

/-- The third fetch read is followed by the meaning of the instruction the three words hold; from then on the sequencer's
step is that instruction's. -/
def Obligations.SequencerRunsTheFetchedInstruction : Prop :=
  ∀ (s : State) (rest : List Turn), SeqMoves s rest →
    (∀ c h a w0 w1 w2 t, s.seq = .fetch2 c h a w0 w1 →
      engineRead (a + 8#32) 4 { s with agenda := rest } = .ok w2 t →
      step s = exec (decodeWords w0 w1 w2) { t with seq := .fetched c h ⟨w0, w1, w2⟩ }) ∧
    (∀ c h k d, s.seq = .period c h k d →
      step s = exec (decodeWords d.w0 d.w1 d.w2) { s with agenda := rest }) ∧
    ∀ c h k d v, s.seq = .moving c h k d v →
      step s = exec (decodeWords d.w0 d.w1 d.w2) { s with agenda := rest }

/-! ### Reset -/

/-- The values the spec gives for reset (10_state.md R61): on every platform, and at once at an external reset
(70_reset_and_hazards.md R411). -/
def Obligations.ResetLeavesTheStatedValues : Prop :=
  (∀ p : Platform, ResetValues (State.resetOf p)) ∧
  ∀ (s : State) (rest : List Turn), s.agenda = .blockReset :: rest → ∃ t, step s = .next t ∧ ResetValues t

/-! ### The DMA register block -/

/-- `DMA_BASE_PTR` (41_channel_engine.md R200): the low bits are forced to zero, the ghost bit is set, nothing else
changes; a read returns `BASE`. That the write has this effect while a channel is enabled too, where R233 and U2 let the
model refuse it, is the model's choice (assumption log 9). -/
def Obligations.BasePointerWriteForcesAlignment : Prop :=
  ∀ (s : State) (v : Word),
    (∃ t, exec (.dmaBasePtrW v) s = .next t ∧ t = { s with base := t.base, inited := true } ∧
      t.base.toNat = v.toNat - v.toNat % s.cfg.tableAlign) ∧
    exec .dmaBasePtrR s = .next { s with hostData := s.base }

/-- `DMA_ALT_BASE_PTR` (41_channel_engine.md R201): reads `BASE + ALT_OFFSET`, ignores writes. -/
def Obligations.AlternateBaseIsDerivedAndReadOnly : Prop :=
  ∀ (s : State) (v : Word),
    exec .dmaAltBasePtrR s = .next { s with hostData := s.base + BitVec.ofNat 32 (16 * s.cfg.chp) } ∧
    exec (.dmaAltBasePtrW v) s = .next s

/-- `DMA_EN_SET` (41_channel_engine.md R202): the enables of the channels below `CH` that are written as 1 are set,
nothing else changes; a read returns `en`. It has this effect before `initialize` and during a period too (assumption log
8, 11). -/
def Obligations.EnableSetChangesOnlyTheNamedEnables : Prop :=
  ∀ (s : State) (v : Word), s.cfg.wf = true →
    (∃ t, exec (.dmaEnSetW v) s = .next t ∧ t = { s with en := t.en } ∧
      ∀ c : Chan, bitOf t.en c = (bitOf s.en c || (bitOf v c && decide (c.val < s.cfg.ch)))) ∧
    exec .dmaEnSetR s = .next { s with hostData := s.en }

/-- `DMA_EN_STAT` (41_channel_engine.md R205): a channel below `CH` written as 1 loses its enable and its request at once,
and its running flag and progress at once unless its period is in flight; a read returns `en`. -/
def Obligations.EnableClearDropsProgressUnlessInFlight : Prop :=
  ∀ (s : State) (v : Word), s.cfg.wf = true →
    (∃ t, exec (.dmaEnStatW v) s = .next t ∧
      t = { s with en := t.en, pend := t.pend, run := t.run, progress := t.progress } ∧
      ∀ c : Chan, let hit := bitOf v c && decide (c.val < s.cfg.ch)
        bitOf t.en c = (bitOf s.en c && !hit) ∧ bitOf t.pend c = (bitOf s.pend c && !hit) ∧
        ((hit = false ∨ s.seq.curChan = some c) →
          bitOf t.run c = bitOf s.run c ∧ ∀ h, t.rem c h = s.rem c h) ∧
        (hit = true → s.seq.curChan ≠ some c → bitOf t.run c = false ∧ ∀ h, t.rem c h = none)) ∧
    exec .dmaEnStatR s = .next { s with hostData := s.en }

/-- The set and clear registers of `swun`, `pri`, `alt`, `dien` (41_channel_engine.md R203, R204, R206, R207): a write
changes exactly the bits written as 1 of channels below `CH`, both registers of a pair read the same word, nothing else
changes (a latched request among it). -/
def Obligations.ControlBitsAreSetAndClearedExactly : Prop :=
  ∀ (s : State) (v : Word), s.cfg.wf = true →
    ((∃ t, exec (.dmaSwunmaskSetW v) s = .next t ∧ t = { s with swun := t.swun } ∧
        ∀ c : Chan, bitOf t.swun c = (bitOf s.swun c || (bitOf v c && decide (c.val < s.cfg.ch)))) ∧
     (∃ t, exec (.dmaSwunmaskClrW v) s = .next t ∧ t = { s with swun := t.swun } ∧
        ∀ c : Chan, bitOf t.swun c = (bitOf s.swun c && !(bitOf v c && decide (c.val < s.cfg.ch)))) ∧
     exec .dmaSwunmaskSetR s = .next { s with hostData := s.swun } ∧
     exec .dmaSwunmaskClrR s = .next { s with hostData := s.swun }) ∧
    ((∃ t, exec (.dmaPriSetW v) s = .next t ∧ t = { s with pri := t.pri } ∧
        ∀ c : Chan, bitOf t.pri c = (bitOf s.pri c || (bitOf v c && decide (c.val < s.cfg.ch)))) ∧
     (∃ t, exec (.dmaPriClrW v) s = .next t ∧ t = { s with pri := t.pri } ∧
        ∀ c : Chan, bitOf t.pri c = (bitOf s.pri c && !(bitOf v c && decide (c.val < s.cfg.ch)))) ∧
     exec .dmaPriSetR s = .next { s with hostData := s.pri } ∧
     exec .dmaPriClrR s = .next { s with hostData := s.pri }) ∧
    ((∃ t, exec (.dmaAltSetW v) s = .next t ∧ t = { s with alt := t.alt } ∧
        ∀ c : Chan, bitOf t.alt c = (bitOf s.alt c || (bitOf v c && decide (c.val < s.cfg.ch)))) ∧
     (∃ t, exec (.dmaAltClrW v) s = .next t ∧ t = { s with alt := t.alt } ∧
        ∀ c : Chan, bitOf t.alt c = (bitOf s.alt c && !(bitOf v c && decide (c.val < s.cfg.ch)))) ∧
     exec .dmaAltSetR s = .next { s with hostData := s.alt } ∧
     exec .dmaAltClrR s = .next { s with hostData := s.alt }) ∧
    (∃ t, exec (.dmaDoneIenSetW v) s = .next t ∧ t = { s with dien := t.dien } ∧
        ∀ c : Chan, bitOf t.dien c = (bitOf s.dien c || (bitOf v c && decide (c.val < s.cfg.ch)))) ∧
    (∃ t, exec (.dmaDoneIenClrW v) s = .next t ∧ t = { s with dien := t.dien } ∧
        ∀ c : Chan, bitOf t.dien c = (bitOf s.dien c && !(bitOf v c && decide (c.val < s.cfg.ch)))) ∧
    exec .dmaDoneIenSetR s = .next { s with hostData := s.dien } ∧
    exec .dmaDoneIenClrR s = .next { s with hostData := s.dien }

/-- The three event status registers (41_channel_engine.md R209): a write clears exactly the bits written as 1, touches no
other bit and enables no channel; a read returns the word. -/
def Obligations.StatusIsClearedByWritingOnes : Prop :=
  ∀ (s : State) (v : Word), s.cfg.wf = true →
    ((∃ t, exec (.dmaBuserrStatW v) s = .next t ∧ t = { s with berr := t.berr } ∧
        ∀ c : Chan, bitOf t.berr c = (bitOf s.berr c && !(bitOf v c && decide (c.val < s.cfg.ch)))) ∧
     exec .dmaBuserrStatR s = .next { s with hostData := s.berr }) ∧
    ((∃ t, exec (.dmaInvdescStatW v) s = .next t ∧ t = { s with inv := t.inv } ∧
        ∀ c : Chan, bitOf t.inv c = (bitOf s.inv c && !(bitOf v c && decide (c.val < s.cfg.ch)))) ∧
     exec .dmaInvdescStatR s = .next { s with hostData := s.inv }) ∧
    (∃ t, exec (.dmaDoneStatW v) s = .next t ∧ t = { s with done := t.done } ∧
        ∀ c : Chan, bitOf t.done c = (bitOf s.done c && !(bitOf v c && decide (c.val < s.cfg.ch)))) ∧
    exec .dmaDoneStatR s = .next { s with hostData := s.done }

/-- A software request (41_channel_engine.md R211, R208): latched on an enabled channel in software-triggered mode, else
nothing; the register reads 0. -/
def Obligations.SoftwareRequestNeedsEnableAndUnmask : Prop :=
  ∀ (s : State) (v : Word), s.cfg.wf = true →
    (∃ t, exec (.dmaSwreqW v) s = .next t ∧ t = { s with pend := t.pend } ∧
      ∀ c : Chan, bitOf t.pend c =
        (bitOf s.pend c || (bitOf v c && decide (c.val < s.cfg.ch) && bitOf s.en c && bitOf s.swun c))) ∧
    exec .dmaSwreqR s = .next { s with hostData := 0#32 }

/-- A hardware request (41_channel_engine.md R210): latched on an enabled channel in hardware-triggered mode, else
nothing. -/
def Obligations.HardwareRequestNeedsEnableAndHardwareMode : Prop :=
  ∀ (s : State) (c : Chan) (rest : List Turn), s.agenda = .hwReq c :: rest → c.val < s.cfg.ch →
    ∃ t, step s = .next t ∧ t = { s with pend := t.pend, agenda := rest } ∧
      ∀ d : Chan, bitOf t.pend d = (bitOf s.pend d || (decide (d = c) && bitOf s.en c && !bitOf s.swun c))

/-! ### Arbitration and fetch -/

/-- Arbitration (41_channel_engine.md R213): some candidate is chosen if there is one, a high-priority one if there is
one, and under the default tie-break the lowest index among those of its priority. -/
def Obligations.ArbitrationPrefersHighPriority : Prop :=
  ∀ s : State,
    (∀ c, arbitrate s = some c →
      Candidate s c ∧ ((∃ d, Candidate s d ∧ bitOf s.pri d = true) → bitOf s.pri c = true) ∧
      (s.cfg.arbTie = .lowest → ∀ d, Candidate s d → bitOf s.pri d = bitOf s.pri c → c ≤ d)) ∧
    ((∃ d, Candidate s d) → ∃ c, arbitrate s = some c)

/-- Grant and the first fetch read, and the second (41_channel_engine.md R214, R215), from a slot in RAM: the request is
taken, the channel runs, and word 0, then word 1, of the slot of the live half is read. -/
def Obligations.GrantTakesTheRequestAndFetches : Prop :=
  ∀ (s : State) (rest : List Turn) (c : Chan), SeqMoves s rest →
    (s.seq = .idle → arbitrate s = some c → RamAccess s.cfg (liveSlot s c) 4 →
      ∃ t w0, step s = .next t ∧
        t = { s with agenda := rest, pend := t.pend, run := t.run, draws := t.draws,
                     seq := .fetch1 c (liveHalf s c) (liveSlot s c) w0 } ∧
        ReadsFrom s.mem.readByte (liveSlot s c) 4 w0 ∧
        (∀ d, bitOf t.pend d = (bitOf s.pend d && !decide (d = c))) ∧
        ∀ d, bitOf t.run d = (bitOf s.run d || decide (d = c))) ∧
    ∀ h a w0, s.seq = .fetch1 c h a w0 → RamAccess s.cfg (a + 4#32) 4 →
      ∃ t w1, step s = .next t ∧ t = { s with agenda := rest, draws := t.draws, seq := .fetch2 c h a w0 w1 } ∧
        ReadsFrom s.mem.readByte (a + 4#32) 4 w1

/-- A bus error on any of the three fetch reads ends the grant with the event (41_channel_engine.md R215,
60_exceptions.md R372). That a misaligned or protected word in a register window is a bus error, and not what R98, R99 and
U11 say of registers, is the model's choice (assumption log 40). -/
def Obligations.FetchBusErrorDisablesTheChannel : Prop :=
  ∀ (s : State) (rest : List Turn) (c : Chan) (h : Half) (a w0 w1 : Word), SeqMoves s rest →
    ((s.seq = .idle ∧ arbitrate s = some c ∧ BusErrorAccess s.cfg (liveSlot s c) 4) ∨
     (s.seq = .fetch1 c h a w0 ∧ BusErrorAccess s.cfg (a + 4#32) 4) ∨
     (s.seq = .fetch2 c h a w0 w1 ∧ BusErrorAccess s.cfg (a + 8#32) 4)) →
    ∃ t, step s = .next t ∧ BusErrRaised c { s with agenda := rest, draws := t.draws } t ∧
      (s.seq ≠ .idle → t.draws = s.draws)

/-! ### Descriptors -/

/-- An invalid control word (30_encoding.md R139, 41_channel_engine.md R218): the event, and no data moved. `STOP`, `RSVD6`
and `RSVD7` have no other meaning, whatever their other fields. -/
def Obligations.InvalidControlWordRaisesTheEvent : Prop :=
  ∀ (s : State) (c : Chan) (h : Half) (w0 w1 w2 : Word), s.seq = .fetched c h ⟨w0, w1, w2⟩ →
    (InvalidWord w2 → ∃ t, exec (decodeWords w0 w1 w2) s = .next t ∧ InvDescRaised c s t) ∧
    ∀ d i, (i = .stop d ∨ i = .rsvd6 d ∨ i = .rsvd7 d) → ∃ t, exec i s = .next t ∧ InvDescRaised c s t

/-- Admission (41_channel_engine.md R219, R220): a cycle starts with `nm1 + 1` units unless one is in progress on the
slot, and the period has `min(2^min(rpow, 10), rem)` units. -/
def Obligations.AdmittedDescriptorStartsItsPeriod : Prop :=
  ∀ (s : State) (c : Chan) (h : Half) (w : RawDesc) (d : Desc) (i : Instr), s.seq = .fetched c h w → ValidFields d →
    (i = .basic d ∨ i = .autoreq d ∨ i = .pingpong d ∨ (i = .sgalt d ∧ h = .alternate) ∨
      (i = .sgpri d ∧ h = .primary ∧ MessageFields d)) →
    ∃ t r, exec i s = .next t ∧ t = { s with progress := t.progress, seq := t.seq } ∧
      (s.rem c h = none → r = d.nm1.toNat + 1) ∧ (∀ n, s.rem c h = some n → r = n) ∧
      (∀ e g, t.rem e g = if e = c ∧ g = h then some r else s.rem e g) ∧
      t.seq = .period c h (min (2 ^ min d.rpow.toNat 10) r) w

/-- The scatter-gather forms the source gives no meaning are refused, and only after the validity test
(41_channel_engine.md R217; 93_implementation_defined.md U6, U7). -/
def Obligations.MisplacedScatterGatherIsRefused : Prop :=
  ∀ (s : State) (c : Chan) (h : Half) (w : RawDesc) (d : Desc), s.seq = .fetched c h w →
    (ValidFields d →
      (h = .alternate → exec (.sgpri d) s = .refused .sgPrimaryInAlternate) ∧
      (h = .primary → exec (.sgalt d) s = .refused .sgAlternateInPrimary) ∧
      (h = .primary → ¬ MessageFields d → exec (.sgpri d) s = .refused .sgMessageFields)) ∧
    (¬ ValidFields d → (∃ t, exec (.sgpri d) s = .next t ∧ InvDescRaised c s t) ∧
      ∃ t, exec (.sgalt d) s = .next t ∧ InvDescRaised c s t)

/-- The read of a unit (41_channel_engine.md R221, R222): what the engine's access to the source address gives is held for
the write. From RAM it is the bytes at the address, and nothing else changes but the draws of bytes nothing has
written. -/
def Obligations.UnitReadTakesTheSourceValue : Prop :=
  ∀ (s : State) (c : Chan) (h : Half) (k r : Nat) (w : RawDesc) (d : Desc) (i : Instr),
    s.seq = .period c h k w → 1 ≤ k → s.rem c h = some r → ValidFields d → MovingType d i →
    (∀ v t, engineRead (srcOf d r) d.wid.bytes s = .ok v t → exec i s = .next { t with seq := .moving c h k w v }) ∧
    (∀ e, engineRead (srcOf d r) d.wid.bytes s = .refused e → exec i s = .refused e) ∧
    (RamAccess s.cfg (srcOf d r) d.wid.bytes →
      ∃ t v, exec i s = .next t ∧ t = { s with seq := .moving c h k w v, draws := t.draws } ∧
        ReadsFrom s.mem.readByte (srcOf d r) d.wid.bytes v ∧
        ((∀ j, j < d.wid.bytes → s.mem.readByte (addrAt (srcOf d r) j) ≠ none) → t.draws = s.draws))

/-- The write of a unit (41_channel_engine.md R221, R222, 43_scatter_gather.md R271): the engine's access to the
destination address, and one unit fewer. To RAM it stores the unit's bytes there, every other byte as before. -/
def Obligations.UnitWriteStoresTheUnit : Prop :=
  ∀ (s : State) (c : Chan) (h : Half) (k r : Nat) (w : RawDesc) (d : Desc) (i : Instr) (v : Word),
    s.seq = .moving c h k w v → s.rem c h = some r → ValidFields d → MovingType d i →
    (∀ u, engineWrite (dstOf i d r) d.wid.bytes v s = .ok () u →
      ∃ t, exec i s = .next t ∧ t = { u with progress := t.progress, seq := .period c h (k - 1) w } ∧
        ∀ e g, t.rem e g = if e = c ∧ g = h then some (r - 1) else s.rem e g) ∧
    (∀ e, engineWrite (dstOf i d r) d.wid.bytes v s = .refused e → exec i s = .refused e) ∧
    (RamAccess s.cfg (dstOf i d r) d.wid.bytes →
      ∃ t, exec i s = .next t ∧ t = { s with mem := t.mem, progress := t.progress, seq := .period c h (k - 1) w } ∧
        (∀ e g, t.rem e g = if e = c ∧ g = h then some (r - 1) else s.rem e g) ∧
        Stored s.mem t.mem (dstOf i d r) d.wid.bytes v)

/-- A bus error on a unit's read or write (41_channel_engine.md R223, 20_memory.md R100): the event; memory stays as it was,
so the unit is not moved and the earlier ones stay moved. That a misaligned or protected unit in a register window is a bus
error, and not what R98, R99 and U11 say of registers, is the model's choice (assumption log 40). -/
def Obligations.UnitBusErrorDisablesTheChannel : Prop :=
  ∀ (s : State) (c : Chan) (h : Half) (k r : Nat) (w : RawDesc) (d : Desc) (i : Instr) (v : Word),
    s.rem c h = some r → MovingType d i →
    ((s.seq = .period c h k w ∧ 1 ≤ k ∧ BusErrorAccess s.cfg (srcOf d r) d.wid.bytes) ∨
     (s.seq = .moving c h k w v ∧ BusErrorAccess s.cfg (dstOf i d r) d.wid.bytes)) →
    ∃ t, exec i s = .next t ∧ BusErrRaised c s t

/-- `BASIC` at the end of a period of an enabled channel (41_channel_engine.md R226, R228): while units remain it waits for
a request, or requests itself on a platform that takes the other value of U4, where the self-request is the model's form of
'runs whole on one request' (assumption log 12); at the end of the cycle Done, the enable and the channel's progress
cleared, `alt[c]` unchanged. -/
def Obligations.BasicAwaitsARequestOrCompletes : Prop :=
  ∀ (s : State) (c : Chan) (h : Half) (r : Nat) (w : RawDesc) (d : Desc), s.seq = .period c h 0 w →
    s.rem c h = some r → bitOf s.en c = true →
    (0 < r → s.cfg.basicBuys = .period → exec (.basic d) s = .next { s with seq := .idle }) ∧
    (0 < r → s.cfg.basicBuys = .cycle → ∃ t, exec (.basic d) s = .next t ∧ t = { s with seq := .idle, pend := t.pend } ∧
      ∀ e, bitOf t.pend e = (bitOf s.pend e || decide (e = c))) ∧
    (r = 0 → ∃ t, exec (.basic d) s = .next t ∧
      DisabledByError c { s with done := t.done } t ∧ t.berr = s.berr ∧ t.inv = s.inv ∧
      ∀ e, bitOf t.done e = (bitOf s.done e || decide (e = c)))

/-- `AUTOREQ` at the end of a period of an enabled channel (41_channel_engine.md R227): it requests itself while units
remain; completion as `BASIC`. -/
def Obligations.AutoRequestRequestsItselfOrCompletes : Prop :=
  ∀ (s : State) (c : Chan) (h : Half) (r : Nat) (w : RawDesc) (d : Desc), s.seq = .period c h 0 w →
    s.rem c h = some r → bitOf s.en c = true →
    (0 < r → ∃ t, exec (.autoreq d) s = .next t ∧ t = { s with seq := .idle, pend := t.pend } ∧
      ∀ e, bitOf t.pend e = (bitOf s.pend e || decide (e = c))) ∧
    (r = 0 → ∃ t, exec (.autoreq d) s = .next t ∧
      DisabledByError c { s with done := t.done } t ∧ t.berr = s.berr ∧ t.inv = s.inv ∧
      ∀ e, bitOf t.done e = (bitOf s.done e || decide (e = c)))

/-- `PINGPONG` at the end of a period of an enabled channel (42_ping_pong.md R251, R252): while units remain it waits for a
request, or requests itself on a platform that takes the other reading of R252's decision (assumption log 12); at the end
of the cycle Done, the other half, and the channel stays enabled and running with no self-request. -/
def Obligations.PingPongSwitchesHalvesAtCompletion : Prop :=
  ∀ (s : State) (c : Chan) (h : Half) (r : Nat) (w : RawDesc) (d : Desc), s.seq = .period c h 0 w →
    s.rem c h = some r → bitOf s.en c = true →
    (0 < r → s.cfg.pingpongBuys = .period → exec (.pingpong d) s = .next { s with seq := .idle }) ∧
    (0 < r → s.cfg.pingpongBuys = .cycle →
      ∃ t, exec (.pingpong d) s = .next t ∧ t = { s with seq := .idle, pend := t.pend } ∧
        ∀ e, bitOf t.pend e = (bitOf s.pend e || decide (e = c))) ∧
    (r = 0 → ∃ t, exec (.pingpong d) s = .next t ∧
      t = { s with seq := .idle, done := t.done, alt := t.alt, progress := t.progress } ∧
      (∀ e, bitOf t.done e = (bitOf s.done e || decide (e = c))) ∧
      (∀ e, bitOf t.alt e = (bitOf s.alt e ^^ decide (e = c))) ∧
      ∀ e g, t.rem e g = if e = c ∧ g = h then none else s.rem e g)

/-- `SGPRI` and `SGALT` at the end of a period of an enabled channel (43_scatter_gather.md R272, R274): the message hands
control to the alternate half after every period, a task hands it back when its cycle is complete, each with a
self-request; no Done, and the channel stays enabled. -/
def Obligations.ScatterGatherHandsControlOver : Prop :=
  ∀ (s : State) (c : Chan) (h : Half) (r : Nat) (w : RawDesc) (d : Desc), s.seq = .period c h 0 w →
    s.rem c h = some r → bitOf s.en c = true →
    (∃ t, exec (.sgpri d) s = .next t ∧
      t = { s with seq := .idle, alt := t.alt, pend := t.pend, progress := t.progress } ∧
      (∀ e, bitOf t.alt e = (bitOf s.alt e || decide (e = c))) ∧
      (∀ e, bitOf t.pend e = (bitOf s.pend e || decide (e = c))) ∧
      ∀ e g, t.rem e g = if e = c ∧ g = h ∧ r = 0 then none else s.rem e g) ∧
    ∃ t, exec (.sgalt d) s = .next t ∧
      t = { s with seq := .idle, alt := t.alt, pend := t.pend, progress := t.progress } ∧
      (∀ e, bitOf t.alt e = (bitOf s.alt e && !(decide (e = c) && decide (r = 0)))) ∧
      (∀ e, bitOf t.pend e = (bitOf s.pend e || decide (e = c))) ∧
      ∀ e g, t.rem e g = if e = c ∧ g = h ∧ r = 0 then none else s.rem e g

/-- A period that ends on a channel the host has disabled meanwhile (41_channel_engine.md R232, R231): a completed cycle
still sets Done (not the scatter-gather types), the halves still switch, no self-request is made, and the channel's
request, running flag and progress are cleared. -/
def Obligations.DisabledPeriodEndClearsProgress : Prop :=
  ∀ (s : State) (c : Chan) (h : Half) (r : Nat) (w : RawDesc) (d : Desc) (i : Instr), s.seq = .period c h 0 w →
    s.rem c h = some r → bitOf s.en c = false → MovingType d i →
    ∃ t, exec i s = .next t ∧
      t = { s with seq := .idle, done := t.done, alt := t.alt, pend := t.pend, run := t.run, progress := t.progress } ∧
      (∀ e, bitOf t.done e =
        (bitOf s.done e || (decide (e = c) && decide (r = 0 ∧ (i = .basic d ∨ i = .autoreq d ∨ i = .pingpong d))))) ∧
      (∀ e, bitOf t.alt e = if e = c then altAfter i r (bitOf s.alt e) else bitOf s.alt e) ∧
      (∀ e, bitOf t.pend e = (bitOf s.pend e && !decide (e = c))) ∧
      (∀ e, bitOf t.run e = (bitOf s.run e && !decide (e = c))) ∧
      ∀ e g, t.rem e g = if e = c then none else s.rem e g

/-- The unit addresses of a built descriptor walk from the start addresses by the increments (30_encoding.md R142,
40_descriptor_builder.md R172); those of a message descriptor's destination walk the last four places again and again
(43_scatter_gather.md R271). -/
def Obligations.BuiltDescriptorWalksFromItsStart : Prop :=
  ∀ (q : BuildRequest) (w0 w1 w2 w3 : Word) (j : Nat), build q = .ok [w0, w1, w2, w3] → j < q.count →
    srcOf (descOfWords w0 w1 w2) (q.count - j) = q.src + BitVec.ofNat 32 (j * q.srcInc.getD 0) ∧
    (q.cycle ≠ 4 → dstOf (decodeWords w0 w1 w2) (descOfWords w0 w1 w2) (q.count - j) =
      q.dst + BitVec.ofNat 32 (j * q.dstInc.getD 0)) ∧
    (q.cycle = 4 → dstOf (decodeWords w0 w1 w2) (descOfWords w0 w1 w2) (q.count - j) =
      q.dst + BitVec.ofNat 32 ((q.count - ((q.count - j - 1) % 4 + 1)) * q.dstInc.getD 0))

/-- The round trip of the builder (40_descriptor_builder.md R179): end minus start plus 1 is count times increment, the
decoded control word returns the operands, and it is invalid only for `stopped`. -/
def Obligations.BuildRoundTrips : Prop :=
  ∀ (q : BuildRequest) (ws : List Word), build q = .ok ws →
    ∃ w0 w1 w2, ws = [w0, w1, w2, 0#32] ∧
      w0 - q.src + 1#32 = BitVec.ofNat 32 (q.count * q.srcInc.getD 0) ∧
      w1 - q.dst + 1#32 = BitVec.ofNat 32 (q.count * q.dstInc.getD 0) ∧
      (w2.extractLsb' 0 3).toNat = q.cycle ∧ (descOfWords w0 w1 w2).count = q.count ∧
      (descOfWords w0 w1 w2).rpow.toNat = q.rpow ∧ (descOfWords w0 w1 w2).wid.bytes = q.width ∧
      (descOfWords w0 w1 w2).sinc.bytes = q.srcInc.getD 0 ∧ (descOfWords w0 w1 w2).dinc.bytes = q.dstInc.getD 0 ∧
      (InvalidWord w2 ↔ q.cycle = 0)

/-- What the builder rejects, in its order (40_descriptor_builder.md R173, R174, R176): a count outside 1 to 1024, then an
increment below the width. -/
def Obligations.BuildRejectsInOrder : Prop :=
  ∀ (q : BuildRequest), (q.width = 1 ∨ q.width = 2 ∨ q.width = 4) →
    (∀ x, (q.srcInc = some x ∨ q.dstInc = some x) → x = 1 ∨ x = 2 ∨ x = 4) → q.cycle ≤ 5 → q.rpow ≤ 15 →
    ((q.count < 1 ∨ 1024 < q.count) → build q = .error .countOutOfRange) ∧
    (1 ≤ q.count → q.count ≤ 1024 → (∃ x, (q.srcInc = some x ∨ q.dstInc = some x) ∧ x < q.width) →
      build q = .error .incrementSmallerThanWidth)

/-! ### Whole-machine rules -/

/-- Every step keeps the invariant `State.Inv` of Safety.lean. -/
def Obligations.StepKeepsTheInvariant : Prop := ∀ s t : State, s.Inv → step s = .next t → t.Inv

/-- The reset state of every well-formed platform meets the invariant. -/
def Obligations.ResetMeetsTheInvariant : Prop := ∀ p : Platform, p.wf = true → (State.resetOf p).Inv

/-- What the sequencer never does (41_channel_engine.md section 6, R235): it changes no `swun`, `pri`, `dien`, `BASE` or
pending host write, sets no enable, clears no status bit. -/
def Obligations.SequencerNeverTouchesHostControl : Prop :=
  ∀ (s t : State) (rest : List Turn), SeqMoves s rest → step s = .next t →
    t.cfg = s.cfg ∧ t.base = s.base ∧ t.inited = s.inited ∧ t.swun = s.swun ∧ t.pri = s.pri ∧ t.dien = s.dien ∧
    t.pending = s.pending ∧ t.hostData = s.hostData ∧ t.moverData = s.moverData ∧ t.handler = s.handler ∧
    t.agenda = rest ∧
    ∀ c, (bitOf t.en c = true → bitOf s.en c = true) ∧ (bitOf s.done c = true → bitOf t.done c = true) ∧
      (bitOf s.berr c = true → bitOf t.berr c = true) ∧ (bitOf s.inv c = true → bitOf t.inv c = true)

/-- The sequencer clears an enable only at the completion of a `BASIC` or `AUTOREQ` cycle or with an error event it raises
in this step (41_channel_engine.md R230), and then nothing of the channel's progress is left. What a fetch read that came
before the error did is not said (`draws`, `fifos`). -/
def Obligations.HardwareDisablesOnlyAtCompletionOrError : Prop :=
  ∀ (s t : State) (rest : List Turn) (c : Chan), SeqMoves s rest → step s = .next t → bitOf s.en c = true →
    bitOf t.en c = false →
    t.seq = .idle ∧ bitOf t.pend c = false ∧ bitOf t.run c = false ∧ (∀ h, t.rem c h = none) ∧
    ((bitOf t.done c = true ∧ ∃ h w d, s.seq = .period c h 0 w ∧ (s.rem c h).getD 0 = 0 ∧
        (decodeWords w.w0 w.w1 w.w2 = .basic d ∨ decodeWords w.w0 w.w1 w.w2 = .autoreq d)) ∨
     BusErrRaised c { s with agenda := rest, draws := t.draws } t ∨
     InvDescRaised c { s with agenda := rest, draws := t.draws, fifos := t.fifos } t)

/-- A period of a `BASIC` descriptor between RAM ranges runs to its end (41_channel_engine.md R222, R224): left alone, the
engine takes two accesses for each unit and one period end, after which no period is in flight and the units are
counted off. -/
def Obligations.PeriodLeftAloneRunsToItsEnd : Prop :=
  ∀ (s : State) (c : Chan) (h : Half) (k r : Nat) (w : RawDesc) (d : Desc), s.agenda = [] → s.seq = .period c h k w →
    s.rem c h = some r → k ≤ r → decodeWords w.w0 w.w1 w.w2 = .basic d → ValidFields d →
    (∀ n, r - k < n → n ≤ r → RamAccess s.cfg (srcOf d n) d.wid.bytes ∧ RamAccess s.cfg (dstOf (.basic d) d n) d.wid.bytes) →
    ∃ t, Sys2Proof.core.run (2 * k + 1) s = .next t ∧ t.seq = .idle ∧
      (r = k → bitOf t.done c = true ∧ bitOf t.en c = false ∧ t.rem c h = none) ∧
      (k < r → bitOf s.en c = true → t.rem c h = some (r - k) ∧ t.en = s.en ∧ t.done = s.done)

/-! ### Memory and ordering -/

/-- When an engine access is a bus error (20_memory.md R100): exactly when it is misaligned, protected or unmapped. That this
holds in the register windows too, before R98, R99 and U11, is the model's choice (assumption log 40). -/
def Obligations.EngineAccessBusErrorRule : Prop :=
  ∀ (s : State) (a v : Word) (n : Nat), (n = 1 ∨ n = 2 ∨ n = 4) →
    (engineRead a n s = .busErr ↔ BusErrorAccess s.cfg a n) ∧ (engineWrite a n v s = .busErr ↔ BusErrorAccess s.cfg a n)

/-- An engine read after an engine write of the same RAM bytes gives the value written, and the write leaves every other
byte alone (20_memory.md R96, R97, R95). -/
def Obligations.EngineReadAfterWrite : Prop :=
  ∀ (s : State) (a v : Word) (n : Nat), (n = 1 ∨ n = 2 ∨ n = 4) → RamAccess s.cfg a n →
    ∃ t, engineWrite a n v s = .ok () t ∧ t = { s with mem := t.mem } ∧ Stored s.mem t.mem a n v ∧
      engineRead a n t = .ok (BitVec.ofNat 32 (v.toNat % 2 ^ (8 * n))) t

/-- Engine accesses to registers that are no bus error (20_memory.md R98, R99): in the DMA block they are refused (U11);
at a FIFO port they are the port's accesses of their size; at any other FIFO register a word has the effect of the host's
access, and a halfword is refused as the host's is (U12). That a single byte, which no host access has, is refused too, and
any access that begins inside a register, the port among them, is the model's choice (assumption log 34); so is that a bus
error is tested first (assumption log 40). -/
def Obligations.EngineReachesTheRegisters : Prop :=
  ∀ (s : State) (v : Word) (n : Nat), (n = 1 ∨ n = 2 ∨ n = 4) → s.cfg.wf = true →
    (∀ a, s.cfg.mapped a = .dmaReg → ¬ BusErrorAccess s.cfg a n →
      engineRead a n s = .refused .engineInDmaBlock ∧ engineWrite a n v s = .refused .engineInDmaBlock) ∧
    ∀ id : FifoId, id.blk.val < s.cfg.nblk →
      (¬ BusErrorAccess s.cfg (s.cfg.fifoReg id .port) n →
        engineWrite (s.cfg.fifoReg id .port) n v s = portWrite id n v s ∧
        engineRead (s.cfg.fifoReg id .port) n s = portRead id n s) ∧
      ∀ r : FifoRegister,
        (r ≠ .port → ¬ BusErrorAccess s.cfg (s.cfg.fifoReg id r) 4 → ∃ i j,
          decodeAccess s.cfg (.wr32 (s.cfg.fifoReg id r) v) = .ok i ∧
          exec i s = (engineWrite (s.cfg.fifoReg id r) 4 v s).written s ∧
          decodeAccess s.cfg (.rd32 (s.cfg.fifoReg id r)) = .ok j ∧
          exec j s = (engineRead (s.cfg.fifoReg id r) 4 s).returned s) ∧
        ∀ (a : Word) (k : Nat), n ≠ 4 → k < 4 → (r = .port → k ≠ 0) → a = s.cfg.fifoReg id r + BitVec.ofNat 32 k → ¬ BusErrorAccess s.cfg a n →
          engineRead a n s = .refused .engineRegisterSize ∧ engineWrite a n v s = .refused .engineRegisterSize

/-- The host's RAM accesses (20_memory.md R108, R110): a write of a word or a halfword is not visible to the engine when it
is made, and is to the host; a read returns the host's own pending bytes, else memory's, else any value. That an access which is not aligned is
made like any other is the model's choice (assumption log 32). `FENCE` goes on only when no write is pending (that it waits
by letting the oldest go is the model's, assumption log 24; that a write goes also into a slot in progress, where U5 and
R425 would refuse, is its choice, assumption log 10). -/
def Obligations.HostRamAccessesAndFence : Prop :=
  ∀ (s : State) (rest : List Turn),
    (∀ (op : HostOp) (a : Word) (n : Nat) (v : Word),
      (op = .wr32 a v ∧ n = 4) ∨ (∃ h : Half16, op = .wr16 a h ∧ n = 2 ∧ v = h.setWidth 32) →
      s.agenda = .host op :: rest → (∀ j, j < n → s.cfg.mapped (a + BitVec.ofNat 32 j) = .ram) →
      ∃ t, step s = .next t ∧ t = { s with pending := t.pending, agenda := rest } ∧
        (∀ j, j < n → t.hostByte (addrAt a j) = some (byteAt v j)) ∧
        ∀ b, (∀ j, j < n → b ≠ addrAt a j) → t.hostByte b = s.hostByte b) ∧
    (∀ (op : HostOp) (a : Word) (n : Nat), (op = .rd32 a ∧ n = 4) ∨ (op = .rd16 a ∧ n = 2) →
      s.agenda = .host op :: rest → (∀ j, j < n → s.cfg.mapped (a + BitVec.ofNat 32 j) = .ram) →
      ∃ t, step s = .next t ∧ t = { s with hostData := t.hostData, draws := t.draws, agenda := rest } ∧
        ReadsFrom s.hostByte a n t.hostData ∧
        ((∀ j, j < n → s.hostByte (addrAt a j) ≠ none) → t.draws = s.draws)) ∧
    (s.agenda = .host .fence :: rest →
      (s.pending = [] → step s = .next { s with agenda := rest }) ∧
      ∀ w ws, s.pending = w :: ws → ∃ t, step s = .next t ∧ t = { s with mem := t.mem, pending := ws } ∧
        ((w.map Prod.fst).Nodup → ∀ b, t.hostByte b = s.hostByte b))

/-- A drain (20_memory.md R108): a pending write that shares no address with an older one becomes visible in memory, its
cells and no other, and is no longer pending; so writes go in program order where they share an address, in any order where
they do not. That two writes of different addresses which overlap in part share an address, and so keep program order, is
the model's reading of R108's 'the same address' (assumption log 24). A write that may not go yet, or is not there, changes
nothing (assumption log 35). That a write becomes visible in a slot in progress or of a running chain too, where U5 and R425
would refuse, is the model's choice (assumption log 10). -/
def Obligations.DrainKeepsProgramOrderPerAddress : Prop :=
  ∀ (s : State) (i : Nat) (rest : List Turn), s.agenda = .drain i :: rest →
    (∀ x, s.pending[i]? = some x → (∀ j y, j < i → s.pending[j]? = some y → ∀ p ∈ y, ∀ q ∈ x, p.1 ≠ q.1) →
      ∃ t, step s = .next t ∧ t = { s with mem := t.mem, pending := s.pending.eraseIdx i, agenda := rest } ∧
        ((x.map Prod.fst).Nodup → ∀ q ∈ x, t.mem.readByte q.1 = some q.2) ∧
        ∀ b, (∀ q ∈ x, q.1 ≠ b) → t.mem.readByte b = s.mem.readByte b) ∧
    (∀ x j y p q, s.pending[i]? = some x → j < i → s.pending[j]? = some y → p ∈ y → q ∈ x → p.1 = q.1 →
      step s = .next { s with agenda := rest }) ∧
    (s.pending[i]? = none → step s = .next { s with agenda := rest })

/-! ### The FIFO controller -/

/-- `FIFO_INIT` (44_fifo_ring.md R305, R306; 92_eei_decisions.md D26): in mode disabled the three fields are loaded, the
pointers and the count zeroed, `ovf` and `unf` cleared, nothing else changes; in an active mode the write is refused (U13);
a read returns the fields in place. That `ovf` and `unf` are cleared is D26, which the model follows against R305's own
words (assumption log 22). -/
def Obligations.FifoInitLoadsAndEmpties : Prop :=
  ∀ (s : State) (id : FifoId) (v : Word), let f := s.fifo id
    (f.fen = false ∧ f.dlen = false → ∃ t, exec (.fifoInitW id v) s = .next t ∧ OnlyFifo id s t ∧
      t.fifo id = { f with boff := v.extractLsb' 0 8, lenm1 := v.extractLsb' 8 16, w32 := v.getLsbD 24,
                           rd := 0#17, wr := 0#17, used := 0#17, ovf := false, unf := false }) ∧
    (f.fen = true ∨ f.dlen = true → exec (.fifoInitW id v) s = .refused .fifoInitWhileActive) ∧
    ∃ x, exec (.fifoInitR id) s = .next { s with hostData := x } ∧ x.extractLsb' 0 8 = f.boff ∧
      x.extractLsb' 8 16 = f.lenm1 ∧ x.getLsbD 24 = f.w32 ∧ x.extractLsb' 25 7 = 0#7

/-- `FIFO_CTRL` (44_fifo_ring.md R310, R333): the five bits are loaded; entering delay-line mode with a legal length moves
the read pointer of a channel in bounds `dllen * 256` bytes behind the write pointer (out of bounds no value of it is
stated: assumption log 31); both modes (U9) and an illegal length (U14) are refused; a read returns the five bits in
place. -/
def Obligations.FifoControlSwitchesModes : Prop :=
  ∀ (s : State) (id : FifoId) (v : Word), let f := s.fifo id
    let g := { f with fen := v.getLsbD 0, dlen := v.getLsbD 1, afien := v.getLsbD 8, aeien := v.getLsbD 9,
                      errien := v.getLsbD 10 }
    (v.getLsbD 0 = true ∧ v.getLsbD 1 = true → exec (.fifoCtrlW id v) s = .refused .bothFifoModes) ∧
    (v.getLsbD 1 = false ∨ (v.getLsbD 0 = false ∧ f.dlen = true) → ∃ t, exec (.fifoCtrlW id v) s = .next t ∧
      OnlyFifo id s t ∧ t.fifo id = g) ∧
    (v.getLsbD 0 = false ∧ v.getLsbD 1 = true ∧ f.dlen = false →
      (1 ≤ f.dllen.toNat ∧ f.dllen.toNat ≤ f.len → ∃ t, exec (.fifoCtrlW id v) s = .next t ∧ OnlyFifo id s t ∧
        t.fifo id = { g with rd := (t.fifo id).rd } ∧
        (f.boff.toNat + f.len ≤ Config.blockSections id.blk → ((t.fifo id).rd.toNat : Int) =
          ((f.wr.toNat : Int) - (f.dllen.toNat : Int) * 256) % (f.cap : Int))) ∧
      (¬ (1 ≤ f.dllen.toNat ∧ f.dllen.toNat ≤ f.len) → exec (.fifoCtrlW id v) s = .refused .delayLength)) ∧
    ∃ x, exec (.fifoCtrlR id) s = .next { s with hostData := x } ∧ x.getLsbD 0 = f.fen ∧ x.getLsbD 1 = f.dlen ∧
      x.getLsbD 8 = f.afien ∧ x.getLsbD 9 = f.aeien ∧ x.getLsbD 10 = f.errien ∧ x.extractLsb' 2 6 = 0#6 ∧
      x.extractLsb' 11 21 = 0#21

/-- The thresholds (44_fifo_ring.md R330): a write stores the low 16 bits, a read returns them. -/
def Obligations.FifoThresholdsAreStored : Prop :=
  ∀ (s : State) (id : FifoId) (v : Word), let f := s.fifo id
    (∃ t, exec (.fifoAfThrW id v) s = .next t ∧ OnlyFifo id s t ∧ t.fifo id = { f with afthr := v.extractLsb' 0 16 }) ∧
    (∃ t, exec (.fifoAeThrW id v) s = .next t ∧ OnlyFifo id s t ∧ t.fifo id = { f with aethr := v.extractLsb' 0 16 }) ∧
    exec (.fifoAfThrR id) s = .next { s with hostData := BitVec.ofNat 32 f.afthr.toNat } ∧
    exec (.fifoAeThrR id) s = .next { s with hostData := BitVec.ofNat 32 f.aethr.toNat }

/-- `FIFO_DL_LEN` (44_fifo_ring.md R335): the low 16 bits are stored; in delay-line mode the read pointer of a channel in
bounds is re-based (out of bounds no value of it is stated: assumption log 31), or an illegal length refused (U14); a read
returns it. -/
def Obligations.DelayLengthRebasesTheReadPointer : Prop :=
  ∀ (s : State) (id : FifoId) (v : Word), let f := s.fifo id; let n := v.extractLsb' 0 16
    (f.mode ≠ .delayLine → ∃ t, exec (.fifoDlLenW id v) s = .next t ∧ OnlyFifo id s t ∧
      t.fifo id = { f with dllen := n }) ∧
    (f.mode = .delayLine → 1 ≤ n.toNat ∧ n.toNat ≤ f.len → ∃ t, exec (.fifoDlLenW id v) s = .next t ∧ OnlyFifo id s t ∧
      t.fifo id = { f with dllen := n, rd := (t.fifo id).rd } ∧
      (f.boff.toNat + f.len ≤ Config.blockSections id.blk → ((t.fifo id).rd.toNat : Int) =
        ((f.wr.toNat : Int) - (n.toNat : Int) * 256) % (f.cap : Int))) ∧
    (f.mode = .delayLine → ¬ (1 ≤ n.toNat ∧ n.toNat ≤ f.len) → exec (.fifoDlLenW id v) s = .refused .delayLength) ∧
    exec (.fifoDlLenR id) s = .next { s with hostData := BitVec.ofNat 32 f.dllen.toNat }

/-- `FIFO_RDPTR`, `FIFO_WRPTR`, `FIFO_USED` (44_fifo_ring.md R331, R327, R337): reads return the pointers and the count,
in delay-line mode `(wr - rd) mod cap` for the count; writes are ignored. -/
def Obligations.FifoPointersAreReadOnly : Prop :=
  ∀ (s : State) (id : FifoId) (v : Word), let f := s.fifo id
    exec (.fifoRdptrR id) s = .next { s with hostData := BitVec.ofNat 32 f.rd.toNat } ∧
    exec (.fifoWrptrR id) s = .next { s with hostData := BitVec.ofNat 32 f.wr.toNat } ∧
    (f.mode ≠ .delayLine → exec (.fifoUsedR id) s = .next { s with hostData := BitVec.ofNat 32 f.used.toNat }) ∧
    (f.mode = .delayLine → f.boff.toNat + f.len ≤ Config.blockSections id.blk →
      ∃ x : Word, exec (.fifoUsedR id) s = .next { s with hostData := x } ∧
        (x.toNat : Int) = ((f.wr.toNat : Int) - (f.rd.toNat : Int)) % (f.cap : Int)) ∧
    exec (.fifoRdptrW id v) s = .next s ∧ exec (.fifoWrptrW id v) s = .next s ∧ exec (.fifoUsedW id v) s = .next s

/-- `FIFO_STAT` (44_fifo_ring.md R332, R330): a write clears `ovf` and `unf` where it has a 1 in bits 2 and 3 and touches
nothing else; outside delay-line mode a read returns the six flags in place, in it the sticky ones and free levels
(R337, U15). -/
def Obligations.FifoStatusReadsAndClears : Prop :=
  ∀ (s : State) (id : FifoId) (v : Word), let f := s.fifo id
    (∃ t, exec (.fifoStatW id v) s = .next t ∧ OnlyFifo id s t ∧
      t.fifo id = { f with ovf := f.ovf && !v.getLsbD 2, unf := f.unf && !v.getLsbD 3 }) ∧
    (f.mode ≠ .delayLine → ∃ x : Word, exec (.fifoStatR id) s = .next { s with hostData := x } ∧
      x.getLsbD 0 = decide (f.afthr.toNat * 256 ≤ f.used.toNat) ∧
      x.getLsbD 1 = decide (f.used.toNat ≤ f.aethr.toNat * 256) ∧
      x.getLsbD 2 = f.ovf ∧ x.getLsbD 3 = f.unf ∧
      x.getLsbD 4 = decide (f.used.toNat = f.cap) ∧ x.getLsbD 5 = decide (f.used.toNat = 0) ∧
      x.extractLsb' 6 26 = 0#26) ∧
    (f.mode = .delayLine → ∃ x : Word, exec (.fifoStatR id) s = .next { s with hostData := x, draws := s.draws + 1 } ∧
      x.getLsbD 2 = f.ovf ∧ x.getLsbD 3 = f.unf ∧ x.extractLsb' 6 26 = 0#26)

/-- Push (44_fifo_ring.md R320, R321), through either view: a unit that fits is stored at the write pointer and counted;
one that does not is discarded and `ovf` latches. -/
def Obligations.PushStoresOrOverflows : Prop :=
  ∀ (s : State) (id : FifoId) (v : Word) (h : Half16), let f := s.fifo id
    f.mode = .fifo → f.boff.toNat + f.len ≤ Config.blockSections id.blk →
    ∀ i x, (i = .portW32 id v ∧ f.w32 = true ∧ x = v) ∨ (i = .portW16 id h ∧ f.w32 = false ∧ x = h.setWidth 32) →
    (f.used.toNat + f.unit ≤ f.cap → ∃ t, exec i s = .next t ∧ OnlyFifoAndBlock id s t ∧
      t.fifo id = { f with wr := BitVec.ofNat 17 ((f.wr.toNat + f.unit) % f.cap), used := f.used + BitVec.ofNat 17 f.unit } ∧
      UnitStored f f.wr x (s.block id.blk) (t.block id.blk)) ∧
    (f.cap < f.used.toNat + f.unit → ∃ t, exec i s = .next t ∧ OnlyFifo id s t ∧ t.fifo id = { f with ovf := true })

/-- Pop (44_fifo_ring.md R322, R323), through either view: the unit at the read pointer is returned and counted off; with
fewer bytes than a unit `unf` latches and the value is a draw. -/
def Obligations.PopReturnsOrUnderflows : Prop :=
  ∀ (s : State) (id : FifoId), let f := s.fifo id
    f.mode = .fifo → f.boff.toNat + f.len ≤ Config.blockSections id.blk →
    ∀ i, (i = .portR32 id ∧ f.w32 = true) ∨ (i = .portR16 id ∧ f.w32 = false) →
    (f.unit ≤ f.used.toNat →
      ∃ t v, exec i s = .next t ∧ t = { s with fifos := t.fifos, hostData := v, draws := t.draws } ∧
        (∀ x, x ≠ id → t.fifo x = s.fifo x) ∧ UnitReads f f.rd (s.block id.blk) v ∧
        t.fifo id = { f with rd := BitVec.ofNat 17 ((f.rd.toNat + f.unit) % f.cap),
                             used := f.used - BitVec.ofNat 17 f.unit }) ∧
    (f.used.toNat < f.unit → ∃ t, exec i s = .next t ∧
      t = { s with fifos := t.fifos, hostData := t.hostData, draws := s.draws + f.unit } ∧
      (∀ x, x ≠ id → t.fifo x = s.fifo x) ∧ t.fifo id = { f with unf := true })

/-- Port accesses of the right size in mode disabled (44_fifo_ring.md R324): a write is discarded, a read returns a draw,
no pointer and no flag changes. -/
def Obligations.DisabledPortDiscardsAndDraws : Prop :=
  ∀ (s : State) (id : FifoId) (v : Word) (h : Half16), let f := s.fifo id
    f.mode = .disabled → f.boff.toNat + f.len ≤ Config.blockSections id.blk →
    (f.w32 = true → exec (.portW32 id v) s = .next s ∧
      ∃ x, exec (.portR32 id) s = .next { s with hostData := x, draws := s.draws + 4 }) ∧
    (f.w32 = false → exec (.portW16 id h) s = .next s ∧
      ∃ x, exec (.portR16 id) s = .next { s with hostData := x, draws := s.draws + 2 })

/-- Port accesses in delay-line mode (44_fifo_ring.md R334): a write stores and advances `wr`, a read returns the unit at
`rd` and advances it; no test, and `used`, `ovf`, `unf` stay. -/
def Obligations.DelayLinePortMovesPointersOnly : Prop :=
  ∀ (s : State) (id : FifoId) (v : Word) (h : Half16), let f := s.fifo id
    f.mode = .delayLine → f.boff.toNat + f.len ≤ Config.blockSections id.blk →
    (∀ i x, (i = .portW32 id v ∧ f.w32 = true ∧ x = v) ∨ (i = .portW16 id h ∧ f.w32 = false ∧ x = h.setWidth 32) →
      ∃ t, exec i s = .next t ∧ OnlyFifoAndBlock id s t ∧
        t.fifo id = { f with wr := BitVec.ofNat 17 ((f.wr.toNat + f.unit) % f.cap) } ∧
        UnitStored f f.wr x (s.block id.blk) (t.block id.blk)) ∧
    ∀ i, (i = .portR32 id ∧ f.w32 = true) ∨ (i = .portR16 id ∧ f.w32 = false) →
      ∃ t x, exec i s = .next t ∧ t = { s with fifos := t.fifos, hostData := x, draws := t.draws } ∧
        (∀ y, y ≠ id → t.fifo y = s.fifo y) ∧ UnitReads f f.rd (s.block id.blk) x ∧
        t.fifo id = { f with rd := BitVec.ofNat 17 ((f.rd.toNat + f.unit) % f.cap) }

/-- Port accesses the spec refuses: the wrong view in any mode (44_fifo_ring.md R324, U10), and a partition out of bounds
(R305, U8). -/
def Obligations.WrongViewAndOutOfBoundsAreRefused : Prop :=
  ∀ (s : State) (id : FifoId) (v : Word) (h : Half16), let f := s.fifo id
    (f.w32 = true → exec (.portW16 id h) s = .refused .wrongPortView ∧ exec (.portR16 id) s = .refused .wrongPortView) ∧
    (f.w32 = false → exec (.portW32 id v) s = .refused .wrongPortView ∧ exec (.portR32 id) s = .refused .wrongPortView) ∧
    (Config.blockSections id.blk < f.boff.toNat + f.len →
      (f.w32 = true → exec (.portW32 id v) s = .refused .fifoOutOfBounds ∧
        exec (.portR32 id) s = .refused .fifoOutOfBounds) ∧
      (f.w32 = false → exec (.portW16 id h) s = .refused .fifoOutOfBounds ∧
        exec (.portR16 id) s = .refused .fifoOutOfBounds))

/-- A mover's step (44_fifo_ring.md R343) on an existing channel assigned to it is the port access of the configured width,
with the effect of the host's and the value given to the mover; on any other channel it is no step and nothing happens
(assumption log 27). -/
def Obligations.MoverStepIsAPortAccess : Prop :=
  ∀ (s : State) (m : Nat) (id : FifoId) (v : Word) (rest : List Turn), let f := s.fifo id
    let u := { s with agenda := rest }
    (id ∈ s.cfg.movers.getD m [] → id.blk.val < s.cfg.nblk →
      (s.agenda = .mover m (.push id v) :: rest →
        step s = exec (if f.w32 then .portW32 id v else .portW16 id (v.setWidth 16)) u) ∧
      (s.agenda = .mover m (.pop id) :: rest → let i := if f.w32 then Instr.portR32 id else .portR16 id
        (∀ t, exec i u = .next t → step s = .next { t with hostData := s.hostData, moverData := t.hostData }) ∧
        ∀ e, exec i u = .refused e → step s = .refused e)) ∧
    (¬ (id ∈ s.cfg.movers.getD m [] ∧ id.blk.val < s.cfg.nblk) →
      (s.agenda = .mover m (.push id v) :: rest ∨ s.agenda = .mover m (.pop id) :: rest) → step s = .next u)

/-- A FIFO channel is a queue (44_fifo_ring.md R338, R322): a push that fits appends the unit's bytes to what the channel
holds, a pop takes the first unit off, and each keeps the ring invariant. -/
def Obligations.FifoRefinesAQueue : Prop :=
  ∀ (s : State) (id : FifoId) (v : Word), let f := s.fifo id
    f.mode = .fifo → f.boff.toNat + f.len ≤ Config.blockSections id.blk → f.Ring →
    (f.used.toNat + f.unit ≤ f.cap → ∃ t, portWrite id f.unit v s = .ok () t ∧ (t.fifo id).Ring ∧
      contents t id = contents s id ++ [(List.range f.unit).map fun k => some (byteAt v k)]) ∧
    (f.unit ≤ f.used.toNat → ∃ x t u, portRead id f.unit s = .ok x t ∧ (t.fifo id).Ring ∧
      contents s id = u :: contents t id ∧
      ∀ k, k < f.unit → ∀ b, u[k]? = some (some b) → byteAt x k = b)

/-- Reserved offsets of a FIFO channel's group read 0 and ignore writes (30_encoding.md R150, R161, U19). -/
def Obligations.ReservedFifoOffsetsReadZero : Prop :=
  ∀ (s : State) (id : FifoId) (v : Word),
    (∀ i, i = .fifoRsvd28R id ∨ i = .fifoRsvd2cR id ∨ i = .fifoRsvd30R id ∨ i = .fifoRsvd34R id ∨ i = .fifoRsvd38R id ∨
      i = .fifoRsvd3cR id → exec i s = .next { s with hostData := 0#32 }) ∧
    ∀ i, i = .fifoRsvd28W id v ∨ i = .fifoRsvd2cW id v ∨ i = .fifoRsvd30W id v ∨ i = .fifoRsvd34W id v ∨
      i = .fifoRsvd38W id v ∨ i = .fifoRsvd3cW id v → exec i s = .next s

/-! ### Interrupts -/

/-- The interrupt lines (10_state.md R47, R58, 60_exceptions.md R376): the engine's is 1 exactly when an existing channel
has an enabled Done or an error, a FIFO channel's (outside delay-line mode, where U15 leaves the levels free) exactly when
an enabled level or sticky flag is 1. -/
def Obligations.InterruptLineEquations : Prop :=
  (∀ s : State, reservedClear s.cfg s.done → reservedClear s.cfg s.berr → reservedClear s.cfg s.inv → s.cfg.wf = true →
    (s.dmaIrq = true ↔ ∃ c : Chan, c.val < s.cfg.ch ∧
      ((bitOf s.done c = true ∧ bitOf s.dien c = true) ∨ bitOf s.berr c = true ∨ bitOf s.inv c = true))) ∧
  ∀ (s : State) (id : FifoId), let f := s.fifo id
    f.mode ≠ .delayLine →
    (s.fifoIrq id = true ↔ (f.afthr.toNat * 256 ≤ f.used.toNat ∧ f.afien = true) ∨
      (f.used.toNat ≤ f.aethr.toNat * 256 ∧ f.aeien = true) ∨ ((f.ovf = true ∨ f.unf = true) ∧ f.errien = true))

/-- An interrupt line is delivered only while it is 1, and delivery changes nothing in the block (60_exceptions.md R378);
that the model notes the line in `handler` is its own (assumption log 25). -/
def Obligations.InterruptDeliveredOnlyWhileLineIsOne : Prop :=
  ∀ (s : State) (l : IrqLine) (rest : List Turn), s.agenda = .deliver l :: rest →
    ∃ t, step s = .next t ∧ t = { s with agenda := rest, handler := t.handler, draws := t.draws } ∧
      (s.line l = false → t.handler = s.handler) ∧ (s.line l = true → t.handler = some l)

/-! ### Software -/

/-- `fifo_init` (44_fifo_ring.md R301, R302): an out-of-bounds configuration is rejected before any access; one in bounds
is one write of the init word. While the software's record says a mode is on there is no access (70_reset_and_hazards.md
R431); that the record is what is tested, and the error's name, are the model's (assumption log 41). -/
def Obligations.FifoInitCommandChecksBounds : Prop :=
  ∀ (p : Platform) (b : Fin 3) (f : Fin 4) (boff len width : Nat), b.val < p.nblk → (width = 16 ∨ width = 32) →
    boff ≤ 255 →
    (¬ (1 ≤ len ∧ boff + len ≤ Config.blockSections b) →
      fifoInit p true .disabled b.val f.val boff len width = .done (.error .fifoBoundsOutOfRange)) ∧
    (1 ≤ len ∧ boff + len ≤ Config.blockSections b → ∃ x : Word,
      fifoInit p true .disabled b.val f.val boff len width =
        Prog.wr32 (p.fifoReg ⟨b, f⟩ .init) x (.done (.ok ())) ∧
      x.toNat = boff + (len - 1) * 256 + (if width = 32 then 2 ^ 24 else 0)) ∧
    ∀ mode, mode ≠ .disabled →
      fifoInit p true mode b.val f.val boff len width = .done (.error .invalidParameter)

/-- Enabling both modes (44_fifo_ring.md R311, R312): rejected with `ModeConflict`, no register written. -/
def Obligations.ModeConflictWritesNothing : Prop :=
  ∀ (s : State) (b : Fin 3) (f : Fin 4), s.cfg.wf = true → b.val < s.cfg.nblk →
    ((s.fifo ⟨b, f⟩).fen = true → ∃ t, (enableDelayLine s.cfg true b.val f.val true).run [] s =
      .next (t, .error .modeConflict) ∧ t = { s with hostData := t.hostData }) ∧
    ((s.fifo ⟨b, f⟩).dlen = true → ∃ t, (enableFifo s.cfg true b.val f.val true).run [] s =
      .next (t, .error .modeConflict) ∧ t = { s with hostData := t.hostData })

/-- Software push is a clamp, not a failure (44_fifo_ring.md R325): it writes `min(n, free / w)` units and never sets
`ovf`. -/
def Obligations.PushClampsToTheFreeSize : Prop :=
  ∀ (s : State) (b : Fin 3) (g : Fin 4) (ws : List Word), let id : FifoId := ⟨b, g⟩; let f := s.fifo id
    s.cfg.wf = true → b.val < s.cfg.nblk → f.mode = .fifo → f.boff.toNat + f.len ≤ Config.blockSections b → f.Ring →
    ∃ t, (push s.cfg true b.val g.val ws (8 * f.unit)).run [] s =
        .next (t, .ok (min ws.length ((f.cap - f.used.toNat) / f.unit))) ∧
      (t.fifo id).used.toNat = f.used.toNat + min ws.length ((f.cap - f.used.toNat) / f.unit) * f.unit ∧
      (t.fifo id).ovf = f.ovf ∧ (t.fifo id).rd = f.rd
end

