-- ==== Sys2Proof/Laws/State.lean ====
section
/-! SUPPORT. For each named update of the state, what it leaves of every field: one lemma a field. -/

namespace Sys2Proof.Machine

/-! ### `State.setSeq` -/

@[simp] theorem State.setSeq_cfg (s : State) (q : SeqPhase) : (s.setSeq q).cfg = s.cfg := rfl
@[simp] theorem State.setSeq_base (s : State) (q : SeqPhase) : (s.setSeq q).base = s.base := rfl
@[simp] theorem State.setSeq_inited (s : State) (q : SeqPhase) : (s.setSeq q).inited = s.inited := rfl
@[simp] theorem State.setSeq_en (s : State) (q : SeqPhase) : (s.setSeq q).en = s.en := rfl
@[simp] theorem State.setSeq_swun (s : State) (q : SeqPhase) : (s.setSeq q).swun = s.swun := rfl
@[simp] theorem State.setSeq_pri (s : State) (q : SeqPhase) : (s.setSeq q).pri = s.pri := rfl
@[simp] theorem State.setSeq_alt (s : State) (q : SeqPhase) : (s.setSeq q).alt = s.alt := rfl
@[simp] theorem State.setSeq_dien (s : State) (q : SeqPhase) : (s.setSeq q).dien = s.dien := rfl
@[simp] theorem State.setSeq_berr (s : State) (q : SeqPhase) : (s.setSeq q).berr = s.berr := rfl
@[simp] theorem State.setSeq_inv (s : State) (q : SeqPhase) : (s.setSeq q).inv = s.inv := rfl
@[simp] theorem State.setSeq_done (s : State) (q : SeqPhase) : (s.setSeq q).done = s.done := rfl
@[simp] theorem State.setSeq_pend (s : State) (q : SeqPhase) : (s.setSeq q).pend = s.pend := rfl
@[simp] theorem State.setSeq_run (s : State) (q : SeqPhase) : (s.setSeq q).run = s.run := rfl
@[simp] theorem State.setSeq_progress (s : State) (q : SeqPhase) : (s.setSeq q).progress = s.progress := rfl
@[simp] theorem State.setSeq_mem (s : State) (q : SeqPhase) : (s.setSeq q).mem = s.mem := rfl
@[simp] theorem State.setSeq_fifos (s : State) (q : SeqPhase) : (s.setSeq q).fifos = s.fifos := rfl
@[simp] theorem State.setSeq_sram (s : State) (q : SeqPhase) : (s.setSeq q).sram = s.sram := rfl
@[simp] theorem State.setSeq_pending (s : State) (q : SeqPhase) : (s.setSeq q).pending = s.pending := rfl
@[simp] theorem State.setSeq_hostData (s : State) (q : SeqPhase) : (s.setSeq q).hostData = s.hostData := rfl
@[simp] theorem State.setSeq_moverData (s : State) (q : SeqPhase) : (s.setSeq q).moverData = s.moverData := rfl
@[simp] theorem State.setSeq_handler (s : State) (q : SeqPhase) : (s.setSeq q).handler = s.handler := rfl
@[simp] theorem State.setSeq_agenda (s : State) (q : SeqPhase) : (s.setSeq q).agenda = s.agenda := rfl
@[simp] theorem State.setSeq_draws (s : State) (q : SeqPhase) : (s.setSeq q).draws = s.draws := rfl
@[simp] theorem State.setSeq_seq (s : State) (q : SeqPhase) : (s.setSeq q).seq = q := rfl

/-! ### `State.setRem` -/

@[simp] theorem State.setRem_cfg (s : State) (c : Chan) (h : Half) (r : Option Nat) : (s.setRem c h r).cfg = s.cfg := rfl
@[simp] theorem State.setRem_base (s : State) (c : Chan) (h : Half) (r : Option Nat) : (s.setRem c h r).base = s.base := rfl
@[simp] theorem State.setRem_inited (s : State) (c : Chan) (h : Half) (r : Option Nat) : (s.setRem c h r).inited = s.inited := rfl
@[simp] theorem State.setRem_en (s : State) (c : Chan) (h : Half) (r : Option Nat) : (s.setRem c h r).en = s.en := rfl
@[simp] theorem State.setRem_swun (s : State) (c : Chan) (h : Half) (r : Option Nat) : (s.setRem c h r).swun = s.swun := rfl
@[simp] theorem State.setRem_pri (s : State) (c : Chan) (h : Half) (r : Option Nat) : (s.setRem c h r).pri = s.pri := rfl
@[simp] theorem State.setRem_alt (s : State) (c : Chan) (h : Half) (r : Option Nat) : (s.setRem c h r).alt = s.alt := rfl
@[simp] theorem State.setRem_dien (s : State) (c : Chan) (h : Half) (r : Option Nat) : (s.setRem c h r).dien = s.dien := rfl
@[simp] theorem State.setRem_berr (s : State) (c : Chan) (h : Half) (r : Option Nat) : (s.setRem c h r).berr = s.berr := rfl
@[simp] theorem State.setRem_inv (s : State) (c : Chan) (h : Half) (r : Option Nat) : (s.setRem c h r).inv = s.inv := rfl
@[simp] theorem State.setRem_done (s : State) (c : Chan) (h : Half) (r : Option Nat) : (s.setRem c h r).done = s.done := rfl
@[simp] theorem State.setRem_pend (s : State) (c : Chan) (h : Half) (r : Option Nat) : (s.setRem c h r).pend = s.pend := rfl
@[simp] theorem State.setRem_run (s : State) (c : Chan) (h : Half) (r : Option Nat) : (s.setRem c h r).run = s.run := rfl
@[simp] theorem State.setRem_seq (s : State) (c : Chan) (h : Half) (r : Option Nat) : (s.setRem c h r).seq = s.seq := rfl
@[simp] theorem State.setRem_mem (s : State) (c : Chan) (h : Half) (r : Option Nat) : (s.setRem c h r).mem = s.mem := rfl
@[simp] theorem State.setRem_fifos (s : State) (c : Chan) (h : Half) (r : Option Nat) : (s.setRem c h r).fifos = s.fifos := rfl
@[simp] theorem State.setRem_sram (s : State) (c : Chan) (h : Half) (r : Option Nat) : (s.setRem c h r).sram = s.sram := rfl
@[simp] theorem State.setRem_pending (s : State) (c : Chan) (h : Half) (r : Option Nat) : (s.setRem c h r).pending = s.pending := rfl
@[simp] theorem State.setRem_hostData (s : State) (c : Chan) (h : Half) (r : Option Nat) : (s.setRem c h r).hostData = s.hostData := rfl
@[simp] theorem State.setRem_moverData (s : State) (c : Chan) (h : Half) (r : Option Nat) : (s.setRem c h r).moverData = s.moverData := rfl
@[simp] theorem State.setRem_handler (s : State) (c : Chan) (h : Half) (r : Option Nat) : (s.setRem c h r).handler = s.handler := rfl
@[simp] theorem State.setRem_agenda (s : State) (c : Chan) (h : Half) (r : Option Nat) : (s.setRem c h r).agenda = s.agenda := rfl
@[simp] theorem State.setRem_draws (s : State) (c : Chan) (h : Half) (r : Option Nat) : (s.setRem c h r).draws = s.draws := rfl

/-! ### `State.setHalf` -/

@[simp] theorem State.setHalf_cfg (s : State) (c : Chan) (h : Half) : (s.setHalf c h).cfg = s.cfg := by cases h <;> rfl
@[simp] theorem State.setHalf_base (s : State) (c : Chan) (h : Half) : (s.setHalf c h).base = s.base := by cases h <;> rfl
@[simp] theorem State.setHalf_inited (s : State) (c : Chan) (h : Half) : (s.setHalf c h).inited = s.inited := by cases h <;> rfl
@[simp] theorem State.setHalf_en (s : State) (c : Chan) (h : Half) : (s.setHalf c h).en = s.en := by cases h <;> rfl
@[simp] theorem State.setHalf_swun (s : State) (c : Chan) (h : Half) : (s.setHalf c h).swun = s.swun := by cases h <;> rfl
@[simp] theorem State.setHalf_pri (s : State) (c : Chan) (h : Half) : (s.setHalf c h).pri = s.pri := by cases h <;> rfl
@[simp] theorem State.setHalf_dien (s : State) (c : Chan) (h : Half) : (s.setHalf c h).dien = s.dien := by cases h <;> rfl
@[simp] theorem State.setHalf_berr (s : State) (c : Chan) (h : Half) : (s.setHalf c h).berr = s.berr := by cases h <;> rfl
@[simp] theorem State.setHalf_inv (s : State) (c : Chan) (h : Half) : (s.setHalf c h).inv = s.inv := by cases h <;> rfl
@[simp] theorem State.setHalf_done (s : State) (c : Chan) (h : Half) : (s.setHalf c h).done = s.done := by cases h <;> rfl
@[simp] theorem State.setHalf_pend (s : State) (c : Chan) (h : Half) : (s.setHalf c h).pend = s.pend := by cases h <;> rfl
@[simp] theorem State.setHalf_run (s : State) (c : Chan) (h : Half) : (s.setHalf c h).run = s.run := by cases h <;> rfl
@[simp] theorem State.setHalf_progress (s : State) (c : Chan) (h : Half) : (s.setHalf c h).progress = s.progress := by cases h <;> rfl
@[simp] theorem State.setHalf_seq (s : State) (c : Chan) (h : Half) : (s.setHalf c h).seq = s.seq := by cases h <;> rfl
@[simp] theorem State.setHalf_mem (s : State) (c : Chan) (h : Half) : (s.setHalf c h).mem = s.mem := by cases h <;> rfl
@[simp] theorem State.setHalf_fifos (s : State) (c : Chan) (h : Half) : (s.setHalf c h).fifos = s.fifos := by cases h <;> rfl
@[simp] theorem State.setHalf_sram (s : State) (c : Chan) (h : Half) : (s.setHalf c h).sram = s.sram := by cases h <;> rfl
@[simp] theorem State.setHalf_pending (s : State) (c : Chan) (h : Half) : (s.setHalf c h).pending = s.pending := by cases h <;> rfl
@[simp] theorem State.setHalf_hostData (s : State) (c : Chan) (h : Half) : (s.setHalf c h).hostData = s.hostData := by cases h <;> rfl
@[simp] theorem State.setHalf_moverData (s : State) (c : Chan) (h : Half) : (s.setHalf c h).moverData = s.moverData := by cases h <;> rfl
@[simp] theorem State.setHalf_handler (s : State) (c : Chan) (h : Half) : (s.setHalf c h).handler = s.handler := by cases h <;> rfl
@[simp] theorem State.setHalf_agenda (s : State) (c : Chan) (h : Half) : (s.setHalf c h).agenda = s.agenda := by cases h <;> rfl
@[simp] theorem State.setHalf_draws (s : State) (c : Chan) (h : Half) : (s.setHalf c h).draws = s.draws := by cases h <;> rfl

/-! ### `State.setFifo` -/

@[simp] theorem State.setFifo_cfg (s : State) (id : FifoId) (f : FifoChan) : (s.setFifo id f).cfg = s.cfg := rfl
@[simp] theorem State.setFifo_base (s : State) (id : FifoId) (f : FifoChan) : (s.setFifo id f).base = s.base := rfl
@[simp] theorem State.setFifo_inited (s : State) (id : FifoId) (f : FifoChan) : (s.setFifo id f).inited = s.inited := rfl
@[simp] theorem State.setFifo_en (s : State) (id : FifoId) (f : FifoChan) : (s.setFifo id f).en = s.en := rfl
@[simp] theorem State.setFifo_swun (s : State) (id : FifoId) (f : FifoChan) : (s.setFifo id f).swun = s.swun := rfl
@[simp] theorem State.setFifo_pri (s : State) (id : FifoId) (f : FifoChan) : (s.setFifo id f).pri = s.pri := rfl
@[simp] theorem State.setFifo_alt (s : State) (id : FifoId) (f : FifoChan) : (s.setFifo id f).alt = s.alt := rfl
@[simp] theorem State.setFifo_dien (s : State) (id : FifoId) (f : FifoChan) : (s.setFifo id f).dien = s.dien := rfl
@[simp] theorem State.setFifo_berr (s : State) (id : FifoId) (f : FifoChan) : (s.setFifo id f).berr = s.berr := rfl
@[simp] theorem State.setFifo_inv (s : State) (id : FifoId) (f : FifoChan) : (s.setFifo id f).inv = s.inv := rfl
@[simp] theorem State.setFifo_done (s : State) (id : FifoId) (f : FifoChan) : (s.setFifo id f).done = s.done := rfl
@[simp] theorem State.setFifo_pend (s : State) (id : FifoId) (f : FifoChan) : (s.setFifo id f).pend = s.pend := rfl
@[simp] theorem State.setFifo_run (s : State) (id : FifoId) (f : FifoChan) : (s.setFifo id f).run = s.run := rfl
@[simp] theorem State.setFifo_progress (s : State) (id : FifoId) (f : FifoChan) : (s.setFifo id f).progress = s.progress := rfl
@[simp] theorem State.setFifo_seq (s : State) (id : FifoId) (f : FifoChan) : (s.setFifo id f).seq = s.seq := rfl
@[simp] theorem State.setFifo_mem (s : State) (id : FifoId) (f : FifoChan) : (s.setFifo id f).mem = s.mem := rfl
@[simp] theorem State.setFifo_sram (s : State) (id : FifoId) (f : FifoChan) : (s.setFifo id f).sram = s.sram := rfl
@[simp] theorem State.setFifo_pending (s : State) (id : FifoId) (f : FifoChan) : (s.setFifo id f).pending = s.pending := rfl
@[simp] theorem State.setFifo_hostData (s : State) (id : FifoId) (f : FifoChan) : (s.setFifo id f).hostData = s.hostData := rfl
@[simp] theorem State.setFifo_moverData (s : State) (id : FifoId) (f : FifoChan) : (s.setFifo id f).moverData = s.moverData := rfl
@[simp] theorem State.setFifo_handler (s : State) (id : FifoId) (f : FifoChan) : (s.setFifo id f).handler = s.handler := rfl
@[simp] theorem State.setFifo_agenda (s : State) (id : FifoId) (f : FifoChan) : (s.setFifo id f).agenda = s.agenda := rfl
@[simp] theorem State.setFifo_draws (s : State) (id : FifoId) (f : FifoChan) : (s.setFifo id f).draws = s.draws := rfl

/-! ### `State.setBlock` -/

@[simp] theorem State.setBlock_cfg (s : State) (b : Fin 3) (m : Memory) : (s.setBlock b m).cfg = s.cfg := rfl
@[simp] theorem State.setBlock_base (s : State) (b : Fin 3) (m : Memory) : (s.setBlock b m).base = s.base := rfl
@[simp] theorem State.setBlock_inited (s : State) (b : Fin 3) (m : Memory) : (s.setBlock b m).inited = s.inited := rfl
@[simp] theorem State.setBlock_en (s : State) (b : Fin 3) (m : Memory) : (s.setBlock b m).en = s.en := rfl
@[simp] theorem State.setBlock_swun (s : State) (b : Fin 3) (m : Memory) : (s.setBlock b m).swun = s.swun := rfl
@[simp] theorem State.setBlock_pri (s : State) (b : Fin 3) (m : Memory) : (s.setBlock b m).pri = s.pri := rfl
@[simp] theorem State.setBlock_alt (s : State) (b : Fin 3) (m : Memory) : (s.setBlock b m).alt = s.alt := rfl
@[simp] theorem State.setBlock_dien (s : State) (b : Fin 3) (m : Memory) : (s.setBlock b m).dien = s.dien := rfl
@[simp] theorem State.setBlock_berr (s : State) (b : Fin 3) (m : Memory) : (s.setBlock b m).berr = s.berr := rfl
@[simp] theorem State.setBlock_inv (s : State) (b : Fin 3) (m : Memory) : (s.setBlock b m).inv = s.inv := rfl
@[simp] theorem State.setBlock_done (s : State) (b : Fin 3) (m : Memory) : (s.setBlock b m).done = s.done := rfl
@[simp] theorem State.setBlock_pend (s : State) (b : Fin 3) (m : Memory) : (s.setBlock b m).pend = s.pend := rfl
@[simp] theorem State.setBlock_run (s : State) (b : Fin 3) (m : Memory) : (s.setBlock b m).run = s.run := rfl
@[simp] theorem State.setBlock_progress (s : State) (b : Fin 3) (m : Memory) : (s.setBlock b m).progress = s.progress := rfl
@[simp] theorem State.setBlock_seq (s : State) (b : Fin 3) (m : Memory) : (s.setBlock b m).seq = s.seq := rfl
@[simp] theorem State.setBlock_mem (s : State) (b : Fin 3) (m : Memory) : (s.setBlock b m).mem = s.mem := rfl
@[simp] theorem State.setBlock_fifos (s : State) (b : Fin 3) (m : Memory) : (s.setBlock b m).fifos = s.fifos := rfl
@[simp] theorem State.setBlock_pending (s : State) (b : Fin 3) (m : Memory) : (s.setBlock b m).pending = s.pending := rfl
@[simp] theorem State.setBlock_hostData (s : State) (b : Fin 3) (m : Memory) : (s.setBlock b m).hostData = s.hostData := rfl
@[simp] theorem State.setBlock_moverData (s : State) (b : Fin 3) (m : Memory) : (s.setBlock b m).moverData = s.moverData := rfl
@[simp] theorem State.setBlock_handler (s : State) (b : Fin 3) (m : Memory) : (s.setBlock b m).handler = s.handler := rfl
@[simp] theorem State.setBlock_agenda (s : State) (b : Fin 3) (m : Memory) : (s.setBlock b m).agenda = s.agenda := rfl
@[simp] theorem State.setBlock_draws (s : State) (b : Fin 3) (m : Memory) : (s.setBlock b m).draws = s.draws := rfl

/-! ### `State.toHost` -/

@[simp] theorem State.toHost_cfg (s : State) (v : Word) : (s.toHost v).cfg = s.cfg := rfl
@[simp] theorem State.toHost_base (s : State) (v : Word) : (s.toHost v).base = s.base := rfl
@[simp] theorem State.toHost_inited (s : State) (v : Word) : (s.toHost v).inited = s.inited := rfl
@[simp] theorem State.toHost_en (s : State) (v : Word) : (s.toHost v).en = s.en := rfl
@[simp] theorem State.toHost_swun (s : State) (v : Word) : (s.toHost v).swun = s.swun := rfl
@[simp] theorem State.toHost_pri (s : State) (v : Word) : (s.toHost v).pri = s.pri := rfl
@[simp] theorem State.toHost_alt (s : State) (v : Word) : (s.toHost v).alt = s.alt := rfl
@[simp] theorem State.toHost_dien (s : State) (v : Word) : (s.toHost v).dien = s.dien := rfl
@[simp] theorem State.toHost_berr (s : State) (v : Word) : (s.toHost v).berr = s.berr := rfl
@[simp] theorem State.toHost_inv (s : State) (v : Word) : (s.toHost v).inv = s.inv := rfl
@[simp] theorem State.toHost_done (s : State) (v : Word) : (s.toHost v).done = s.done := rfl
@[simp] theorem State.toHost_pend (s : State) (v : Word) : (s.toHost v).pend = s.pend := rfl
@[simp] theorem State.toHost_run (s : State) (v : Word) : (s.toHost v).run = s.run := rfl
@[simp] theorem State.toHost_progress (s : State) (v : Word) : (s.toHost v).progress = s.progress := rfl
@[simp] theorem State.toHost_seq (s : State) (v : Word) : (s.toHost v).seq = s.seq := rfl
@[simp] theorem State.toHost_mem (s : State) (v : Word) : (s.toHost v).mem = s.mem := rfl
@[simp] theorem State.toHost_fifos (s : State) (v : Word) : (s.toHost v).fifos = s.fifos := rfl
@[simp] theorem State.toHost_sram (s : State) (v : Word) : (s.toHost v).sram = s.sram := rfl
@[simp] theorem State.toHost_pending (s : State) (v : Word) : (s.toHost v).pending = s.pending := rfl
@[simp] theorem State.toHost_moverData (s : State) (v : Word) : (s.toHost v).moverData = s.moverData := rfl
@[simp] theorem State.toHost_handler (s : State) (v : Word) : (s.toHost v).handler = s.handler := rfl
@[simp] theorem State.toHost_agenda (s : State) (v : Word) : (s.toHost v).agenda = s.agenda := rfl
@[simp] theorem State.toHost_draws (s : State) (v : Word) : (s.toHost v).draws = s.draws := rfl
@[simp] theorem State.toHost_hostData (s : State) (v : Word) : (s.toHost v).hostData = v := rfl

/-! ### `selfRequest` -/

@[simp] theorem selfRequest_cfg (s : State) (c : Chan) : (selfRequest c s).cfg = s.cfg := by unfold selfRequest; split <;> rfl
@[simp] theorem selfRequest_base (s : State) (c : Chan) : (selfRequest c s).base = s.base := by unfold selfRequest; split <;> rfl
@[simp] theorem selfRequest_inited (s : State) (c : Chan) : (selfRequest c s).inited = s.inited := by unfold selfRequest; split <;> rfl
@[simp] theorem selfRequest_en (s : State) (c : Chan) : (selfRequest c s).en = s.en := by unfold selfRequest; split <;> rfl
@[simp] theorem selfRequest_swun (s : State) (c : Chan) : (selfRequest c s).swun = s.swun := by unfold selfRequest; split <;> rfl
@[simp] theorem selfRequest_pri (s : State) (c : Chan) : (selfRequest c s).pri = s.pri := by unfold selfRequest; split <;> rfl
@[simp] theorem selfRequest_alt (s : State) (c : Chan) : (selfRequest c s).alt = s.alt := by unfold selfRequest; split <;> rfl
@[simp] theorem selfRequest_dien (s : State) (c : Chan) : (selfRequest c s).dien = s.dien := by unfold selfRequest; split <;> rfl
@[simp] theorem selfRequest_berr (s : State) (c : Chan) : (selfRequest c s).berr = s.berr := by unfold selfRequest; split <;> rfl
@[simp] theorem selfRequest_inv (s : State) (c : Chan) : (selfRequest c s).inv = s.inv := by unfold selfRequest; split <;> rfl
@[simp] theorem selfRequest_done (s : State) (c : Chan) : (selfRequest c s).done = s.done := by unfold selfRequest; split <;> rfl
@[simp] theorem selfRequest_run (s : State) (c : Chan) : (selfRequest c s).run = s.run := by unfold selfRequest; split <;> rfl
@[simp] theorem selfRequest_progress (s : State) (c : Chan) : (selfRequest c s).progress = s.progress := by unfold selfRequest; split <;> rfl
@[simp] theorem selfRequest_seq (s : State) (c : Chan) : (selfRequest c s).seq = s.seq := by unfold selfRequest; split <;> rfl
@[simp] theorem selfRequest_mem (s : State) (c : Chan) : (selfRequest c s).mem = s.mem := by unfold selfRequest; split <;> rfl
@[simp] theorem selfRequest_fifos (s : State) (c : Chan) : (selfRequest c s).fifos = s.fifos := by unfold selfRequest; split <;> rfl
@[simp] theorem selfRequest_sram (s : State) (c : Chan) : (selfRequest c s).sram = s.sram := by unfold selfRequest; split <;> rfl
@[simp] theorem selfRequest_pending (s : State) (c : Chan) : (selfRequest c s).pending = s.pending := by unfold selfRequest; split <;> rfl
@[simp] theorem selfRequest_hostData (s : State) (c : Chan) : (selfRequest c s).hostData = s.hostData := by unfold selfRequest; split <;> rfl
@[simp] theorem selfRequest_moverData (s : State) (c : Chan) : (selfRequest c s).moverData = s.moverData := by unfold selfRequest; split <;> rfl
@[simp] theorem selfRequest_handler (s : State) (c : Chan) : (selfRequest c s).handler = s.handler := by unfold selfRequest; split <;> rfl
@[simp] theorem selfRequest_agenda (s : State) (c : Chan) : (selfRequest c s).agenda = s.agenda := by unfold selfRequest; split <;> rfl
@[simp] theorem selfRequest_draws (s : State) (c : Chan) : (selfRequest c s).draws = s.draws := by unfold selfRequest; split <;> rfl

/-! ### `hardwareRequest` -/

@[simp] theorem hardwareRequest_cfg (s : State) (c : Chan) : (hardwareRequest c s).cfg = s.cfg := by unfold hardwareRequest; split <;> rfl
@[simp] theorem hardwareRequest_base (s : State) (c : Chan) : (hardwareRequest c s).base = s.base := by unfold hardwareRequest; split <;> rfl
@[simp] theorem hardwareRequest_inited (s : State) (c : Chan) : (hardwareRequest c s).inited = s.inited := by unfold hardwareRequest; split <;> rfl
@[simp] theorem hardwareRequest_en (s : State) (c : Chan) : (hardwareRequest c s).en = s.en := by unfold hardwareRequest; split <;> rfl
@[simp] theorem hardwareRequest_swun (s : State) (c : Chan) : (hardwareRequest c s).swun = s.swun := by unfold hardwareRequest; split <;> rfl
@[simp] theorem hardwareRequest_pri (s : State) (c : Chan) : (hardwareRequest c s).pri = s.pri := by unfold hardwareRequest; split <;> rfl
@[simp] theorem hardwareRequest_alt (s : State) (c : Chan) : (hardwareRequest c s).alt = s.alt := by unfold hardwareRequest; split <;> rfl
@[simp] theorem hardwareRequest_dien (s : State) (c : Chan) : (hardwareRequest c s).dien = s.dien := by unfold hardwareRequest; split <;> rfl
@[simp] theorem hardwareRequest_berr (s : State) (c : Chan) : (hardwareRequest c s).berr = s.berr := by unfold hardwareRequest; split <;> rfl
@[simp] theorem hardwareRequest_inv (s : State) (c : Chan) : (hardwareRequest c s).inv = s.inv := by unfold hardwareRequest; split <;> rfl
@[simp] theorem hardwareRequest_done (s : State) (c : Chan) : (hardwareRequest c s).done = s.done := by unfold hardwareRequest; split <;> rfl
@[simp] theorem hardwareRequest_run (s : State) (c : Chan) : (hardwareRequest c s).run = s.run := by unfold hardwareRequest; split <;> rfl
@[simp] theorem hardwareRequest_progress (s : State) (c : Chan) : (hardwareRequest c s).progress = s.progress := by unfold hardwareRequest; split <;> rfl
@[simp] theorem hardwareRequest_seq (s : State) (c : Chan) : (hardwareRequest c s).seq = s.seq := by unfold hardwareRequest; split <;> rfl
@[simp] theorem hardwareRequest_mem (s : State) (c : Chan) : (hardwareRequest c s).mem = s.mem := by unfold hardwareRequest; split <;> rfl
@[simp] theorem hardwareRequest_fifos (s : State) (c : Chan) : (hardwareRequest c s).fifos = s.fifos := by unfold hardwareRequest; split <;> rfl
@[simp] theorem hardwareRequest_sram (s : State) (c : Chan) : (hardwareRequest c s).sram = s.sram := by unfold hardwareRequest; split <;> rfl
@[simp] theorem hardwareRequest_pending (s : State) (c : Chan) : (hardwareRequest c s).pending = s.pending := by unfold hardwareRequest; split <;> rfl
@[simp] theorem hardwareRequest_hostData (s : State) (c : Chan) : (hardwareRequest c s).hostData = s.hostData := by unfold hardwareRequest; split <;> rfl
@[simp] theorem hardwareRequest_moverData (s : State) (c : Chan) : (hardwareRequest c s).moverData = s.moverData := by unfold hardwareRequest; split <;> rfl
@[simp] theorem hardwareRequest_handler (s : State) (c : Chan) : (hardwareRequest c s).handler = s.handler := by unfold hardwareRequest; split <;> rfl
@[simp] theorem hardwareRequest_agenda (s : State) (c : Chan) : (hardwareRequest c s).agenda = s.agenda := by unfold hardwareRequest; split <;> rfl
@[simp] theorem hardwareRequest_draws (s : State) (c : Chan) : (hardwareRequest c s).draws = s.draws := by unfold hardwareRequest; split <;> rfl

/-! ### `softwareRequests` -/

@[simp] theorem softwareRequests_cfg (s : State) (v : Word) : (softwareRequests v s).cfg = s.cfg := rfl
@[simp] theorem softwareRequests_base (s : State) (v : Word) : (softwareRequests v s).base = s.base := rfl
@[simp] theorem softwareRequests_inited (s : State) (v : Word) : (softwareRequests v s).inited = s.inited := rfl
@[simp] theorem softwareRequests_en (s : State) (v : Word) : (softwareRequests v s).en = s.en := rfl
@[simp] theorem softwareRequests_swun (s : State) (v : Word) : (softwareRequests v s).swun = s.swun := rfl
@[simp] theorem softwareRequests_pri (s : State) (v : Word) : (softwareRequests v s).pri = s.pri := rfl
@[simp] theorem softwareRequests_alt (s : State) (v : Word) : (softwareRequests v s).alt = s.alt := rfl
@[simp] theorem softwareRequests_dien (s : State) (v : Word) : (softwareRequests v s).dien = s.dien := rfl
@[simp] theorem softwareRequests_berr (s : State) (v : Word) : (softwareRequests v s).berr = s.berr := rfl
@[simp] theorem softwareRequests_inv (s : State) (v : Word) : (softwareRequests v s).inv = s.inv := rfl
@[simp] theorem softwareRequests_done (s : State) (v : Word) : (softwareRequests v s).done = s.done := rfl
@[simp] theorem softwareRequests_run (s : State) (v : Word) : (softwareRequests v s).run = s.run := rfl
@[simp] theorem softwareRequests_progress (s : State) (v : Word) : (softwareRequests v s).progress = s.progress := rfl
@[simp] theorem softwareRequests_seq (s : State) (v : Word) : (softwareRequests v s).seq = s.seq := rfl
@[simp] theorem softwareRequests_mem (s : State) (v : Word) : (softwareRequests v s).mem = s.mem := rfl
@[simp] theorem softwareRequests_fifos (s : State) (v : Word) : (softwareRequests v s).fifos = s.fifos := rfl
@[simp] theorem softwareRequests_sram (s : State) (v : Word) : (softwareRequests v s).sram = s.sram := rfl
@[simp] theorem softwareRequests_pending (s : State) (v : Word) : (softwareRequests v s).pending = s.pending := rfl
@[simp] theorem softwareRequests_hostData (s : State) (v : Word) : (softwareRequests v s).hostData = s.hostData := rfl
@[simp] theorem softwareRequests_moverData (s : State) (v : Word) : (softwareRequests v s).moverData = s.moverData := rfl
@[simp] theorem softwareRequests_handler (s : State) (v : Word) : (softwareRequests v s).handler = s.handler := rfl
@[simp] theorem softwareRequests_agenda (s : State) (v : Word) : (softwareRequests v s).agenda = s.agenda := rfl
@[simp] theorem softwareRequests_draws (s : State) (v : Word) : (softwareRequests v s).draws = s.draws := rfl

/-! ### `cleanUp` -/

@[simp] theorem cleanUp_cfg (s : State) (c : Chan) : (cleanUp c s).cfg = s.cfg := by unfold cleanUp; split <;> rfl
@[simp] theorem cleanUp_base (s : State) (c : Chan) : (cleanUp c s).base = s.base := by unfold cleanUp; split <;> rfl
@[simp] theorem cleanUp_inited (s : State) (c : Chan) : (cleanUp c s).inited = s.inited := by unfold cleanUp; split <;> rfl
@[simp] theorem cleanUp_en (s : State) (c : Chan) : (cleanUp c s).en = s.en := by unfold cleanUp; split <;> rfl
@[simp] theorem cleanUp_swun (s : State) (c : Chan) : (cleanUp c s).swun = s.swun := by unfold cleanUp; split <;> rfl
@[simp] theorem cleanUp_pri (s : State) (c : Chan) : (cleanUp c s).pri = s.pri := by unfold cleanUp; split <;> rfl
@[simp] theorem cleanUp_alt (s : State) (c : Chan) : (cleanUp c s).alt = s.alt := by unfold cleanUp; split <;> rfl
@[simp] theorem cleanUp_dien (s : State) (c : Chan) : (cleanUp c s).dien = s.dien := by unfold cleanUp; split <;> rfl
@[simp] theorem cleanUp_berr (s : State) (c : Chan) : (cleanUp c s).berr = s.berr := by unfold cleanUp; split <;> rfl
@[simp] theorem cleanUp_inv (s : State) (c : Chan) : (cleanUp c s).inv = s.inv := by unfold cleanUp; split <;> rfl
@[simp] theorem cleanUp_done (s : State) (c : Chan) : (cleanUp c s).done = s.done := by unfold cleanUp; split <;> rfl
@[simp] theorem cleanUp_seq (s : State) (c : Chan) : (cleanUp c s).seq = s.seq := by unfold cleanUp; split <;> rfl
@[simp] theorem cleanUp_mem (s : State) (c : Chan) : (cleanUp c s).mem = s.mem := by unfold cleanUp; split <;> rfl
@[simp] theorem cleanUp_fifos (s : State) (c : Chan) : (cleanUp c s).fifos = s.fifos := by unfold cleanUp; split <;> rfl
@[simp] theorem cleanUp_sram (s : State) (c : Chan) : (cleanUp c s).sram = s.sram := by unfold cleanUp; split <;> rfl
@[simp] theorem cleanUp_pending (s : State) (c : Chan) : (cleanUp c s).pending = s.pending := by unfold cleanUp; split <;> rfl
@[simp] theorem cleanUp_hostData (s : State) (c : Chan) : (cleanUp c s).hostData = s.hostData := by unfold cleanUp; split <;> rfl
@[simp] theorem cleanUp_moverData (s : State) (c : Chan) : (cleanUp c s).moverData = s.moverData := by unfold cleanUp; split <;> rfl
@[simp] theorem cleanUp_handler (s : State) (c : Chan) : (cleanUp c s).handler = s.handler := by unfold cleanUp; split <;> rfl
@[simp] theorem cleanUp_agenda (s : State) (c : Chan) : (cleanUp c s).agenda = s.agenda := by unfold cleanUp; split <;> rfl
@[simp] theorem cleanUp_draws (s : State) (c : Chan) : (cleanUp c s).draws = s.draws := by unfold cleanUp; split <;> rfl

/-! ### `clearEnables` -/

@[simp] theorem clearEnables_cfg (s : State) (v : Word) : (clearEnables v s).cfg = s.cfg := rfl
@[simp] theorem clearEnables_base (s : State) (v : Word) : (clearEnables v s).base = s.base := rfl
@[simp] theorem clearEnables_inited (s : State) (v : Word) : (clearEnables v s).inited = s.inited := rfl
@[simp] theorem clearEnables_swun (s : State) (v : Word) : (clearEnables v s).swun = s.swun := rfl
@[simp] theorem clearEnables_pri (s : State) (v : Word) : (clearEnables v s).pri = s.pri := rfl
@[simp] theorem clearEnables_alt (s : State) (v : Word) : (clearEnables v s).alt = s.alt := rfl
@[simp] theorem clearEnables_dien (s : State) (v : Word) : (clearEnables v s).dien = s.dien := rfl
@[simp] theorem clearEnables_berr (s : State) (v : Word) : (clearEnables v s).berr = s.berr := rfl
@[simp] theorem clearEnables_inv (s : State) (v : Word) : (clearEnables v s).inv = s.inv := rfl
@[simp] theorem clearEnables_done (s : State) (v : Word) : (clearEnables v s).done = s.done := rfl
@[simp] theorem clearEnables_seq (s : State) (v : Word) : (clearEnables v s).seq = s.seq := rfl
@[simp] theorem clearEnables_mem (s : State) (v : Word) : (clearEnables v s).mem = s.mem := rfl
@[simp] theorem clearEnables_fifos (s : State) (v : Word) : (clearEnables v s).fifos = s.fifos := rfl
@[simp] theorem clearEnables_sram (s : State) (v : Word) : (clearEnables v s).sram = s.sram := rfl
@[simp] theorem clearEnables_pending (s : State) (v : Word) : (clearEnables v s).pending = s.pending := rfl
@[simp] theorem clearEnables_hostData (s : State) (v : Word) : (clearEnables v s).hostData = s.hostData := rfl
@[simp] theorem clearEnables_moverData (s : State) (v : Word) : (clearEnables v s).moverData = s.moverData := rfl
@[simp] theorem clearEnables_handler (s : State) (v : Word) : (clearEnables v s).handler = s.handler := rfl
@[simp] theorem clearEnables_agenda (s : State) (v : Word) : (clearEnables v s).agenda = s.agenda := rfl
@[simp] theorem clearEnables_draws (s : State) (v : Word) : (clearEnables v s).draws = s.draws := rfl

/-! ### `raiseEvent` -/

@[simp] theorem raiseEvent_cfg (s : State) (e : Event) (c : Chan) : (raiseEvent e c s).cfg = s.cfg := by cases e <;> simp [raiseEvent]
@[simp] theorem raiseEvent_base (s : State) (e : Event) (c : Chan) : (raiseEvent e c s).base = s.base := by cases e <;> simp [raiseEvent]
@[simp] theorem raiseEvent_inited (s : State) (e : Event) (c : Chan) : (raiseEvent e c s).inited = s.inited := by cases e <;> simp [raiseEvent]
@[simp] theorem raiseEvent_swun (s : State) (e : Event) (c : Chan) : (raiseEvent e c s).swun = s.swun := by cases e <;> simp [raiseEvent]
@[simp] theorem raiseEvent_pri (s : State) (e : Event) (c : Chan) : (raiseEvent e c s).pri = s.pri := by cases e <;> simp [raiseEvent]
@[simp] theorem raiseEvent_alt (s : State) (e : Event) (c : Chan) : (raiseEvent e c s).alt = s.alt := by cases e <;> simp [raiseEvent]
@[simp] theorem raiseEvent_dien (s : State) (e : Event) (c : Chan) : (raiseEvent e c s).dien = s.dien := by cases e <;> simp [raiseEvent]
@[simp] theorem raiseEvent_mem (s : State) (e : Event) (c : Chan) : (raiseEvent e c s).mem = s.mem := by cases e <;> simp [raiseEvent]
@[simp] theorem raiseEvent_fifos (s : State) (e : Event) (c : Chan) : (raiseEvent e c s).fifos = s.fifos := by cases e <;> simp [raiseEvent]
@[simp] theorem raiseEvent_sram (s : State) (e : Event) (c : Chan) : (raiseEvent e c s).sram = s.sram := by cases e <;> simp [raiseEvent]
@[simp] theorem raiseEvent_pending (s : State) (e : Event) (c : Chan) : (raiseEvent e c s).pending = s.pending := by cases e <;> simp [raiseEvent]
@[simp] theorem raiseEvent_hostData (s : State) (e : Event) (c : Chan) : (raiseEvent e c s).hostData = s.hostData := by cases e <;> simp [raiseEvent]
@[simp] theorem raiseEvent_moverData (s : State) (e : Event) (c : Chan) : (raiseEvent e c s).moverData = s.moverData := by cases e <;> simp [raiseEvent]
@[simp] theorem raiseEvent_handler (s : State) (e : Event) (c : Chan) : (raiseEvent e c s).handler = s.handler := by cases e <;> simp [raiseEvent]
@[simp] theorem raiseEvent_agenda (s : State) (e : Event) (c : Chan) : (raiseEvent e c s).agenda = s.agenda := by cases e <;> simp [raiseEvent]
@[simp] theorem raiseEvent_draws (s : State) (e : Event) (c : Chan) : (raiseEvent e c s).draws = s.draws := by cases e <;> simp [raiseEvent]

/-! ### `acknowledge` -/

@[simp] theorem acknowledge_cfg (s : State) (e : Event) (v : Word) : (acknowledge e v s).cfg = s.cfg := by cases e <;> rfl
@[simp] theorem acknowledge_base (s : State) (e : Event) (v : Word) : (acknowledge e v s).base = s.base := by cases e <;> rfl
@[simp] theorem acknowledge_inited (s : State) (e : Event) (v : Word) : (acknowledge e v s).inited = s.inited := by cases e <;> rfl
@[simp] theorem acknowledge_en (s : State) (e : Event) (v : Word) : (acknowledge e v s).en = s.en := by cases e <;> rfl
@[simp] theorem acknowledge_swun (s : State) (e : Event) (v : Word) : (acknowledge e v s).swun = s.swun := by cases e <;> rfl
@[simp] theorem acknowledge_pri (s : State) (e : Event) (v : Word) : (acknowledge e v s).pri = s.pri := by cases e <;> rfl
@[simp] theorem acknowledge_alt (s : State) (e : Event) (v : Word) : (acknowledge e v s).alt = s.alt := by cases e <;> rfl
@[simp] theorem acknowledge_dien (s : State) (e : Event) (v : Word) : (acknowledge e v s).dien = s.dien := by cases e <;> rfl
@[simp] theorem acknowledge_pend (s : State) (e : Event) (v : Word) : (acknowledge e v s).pend = s.pend := by cases e <;> rfl
@[simp] theorem acknowledge_run (s : State) (e : Event) (v : Word) : (acknowledge e v s).run = s.run := by cases e <;> rfl
@[simp] theorem acknowledge_progress (s : State) (e : Event) (v : Word) : (acknowledge e v s).progress = s.progress := by cases e <;> rfl
@[simp] theorem acknowledge_seq (s : State) (e : Event) (v : Word) : (acknowledge e v s).seq = s.seq := by cases e <;> rfl
@[simp] theorem acknowledge_mem (s : State) (e : Event) (v : Word) : (acknowledge e v s).mem = s.mem := by cases e <;> rfl
@[simp] theorem acknowledge_fifos (s : State) (e : Event) (v : Word) : (acknowledge e v s).fifos = s.fifos := by cases e <;> rfl
@[simp] theorem acknowledge_sram (s : State) (e : Event) (v : Word) : (acknowledge e v s).sram = s.sram := by cases e <;> rfl
@[simp] theorem acknowledge_pending (s : State) (e : Event) (v : Word) : (acknowledge e v s).pending = s.pending := by cases e <;> rfl
@[simp] theorem acknowledge_hostData (s : State) (e : Event) (v : Word) : (acknowledge e v s).hostData = s.hostData := by cases e <;> rfl
@[simp] theorem acknowledge_moverData (s : State) (e : Event) (v : Word) : (acknowledge e v s).moverData = s.moverData := by cases e <;> rfl
@[simp] theorem acknowledge_handler (s : State) (e : Event) (v : Word) : (acknowledge e v s).handler = s.handler := by cases e <;> rfl
@[simp] theorem acknowledge_agenda (s : State) (e : Event) (v : Word) : (acknowledge e v s).agenda = s.agenda := by cases e <;> rfl
@[simp] theorem acknowledge_draws (s : State) (e : Event) (v : Word) : (acknowledge e v s).draws = s.draws := by cases e <;> rfl

/-! ### `raiseOverflow` -/

@[simp] theorem raiseOverflow_cfg (s : State) (id : FifoId) : (raiseOverflow id s).cfg = s.cfg := rfl
@[simp] theorem raiseOverflow_base (s : State) (id : FifoId) : (raiseOverflow id s).base = s.base := rfl
@[simp] theorem raiseOverflow_inited (s : State) (id : FifoId) : (raiseOverflow id s).inited = s.inited := rfl
@[simp] theorem raiseOverflow_en (s : State) (id : FifoId) : (raiseOverflow id s).en = s.en := rfl
@[simp] theorem raiseOverflow_swun (s : State) (id : FifoId) : (raiseOverflow id s).swun = s.swun := rfl
@[simp] theorem raiseOverflow_pri (s : State) (id : FifoId) : (raiseOverflow id s).pri = s.pri := rfl
@[simp] theorem raiseOverflow_alt (s : State) (id : FifoId) : (raiseOverflow id s).alt = s.alt := rfl
@[simp] theorem raiseOverflow_dien (s : State) (id : FifoId) : (raiseOverflow id s).dien = s.dien := rfl
@[simp] theorem raiseOverflow_berr (s : State) (id : FifoId) : (raiseOverflow id s).berr = s.berr := rfl
@[simp] theorem raiseOverflow_inv (s : State) (id : FifoId) : (raiseOverflow id s).inv = s.inv := rfl
@[simp] theorem raiseOverflow_done (s : State) (id : FifoId) : (raiseOverflow id s).done = s.done := rfl
@[simp] theorem raiseOverflow_pend (s : State) (id : FifoId) : (raiseOverflow id s).pend = s.pend := rfl
@[simp] theorem raiseOverflow_run (s : State) (id : FifoId) : (raiseOverflow id s).run = s.run := rfl
@[simp] theorem raiseOverflow_progress (s : State) (id : FifoId) : (raiseOverflow id s).progress = s.progress := rfl
@[simp] theorem raiseOverflow_seq (s : State) (id : FifoId) : (raiseOverflow id s).seq = s.seq := rfl
@[simp] theorem raiseOverflow_mem (s : State) (id : FifoId) : (raiseOverflow id s).mem = s.mem := rfl
@[simp] theorem raiseOverflow_sram (s : State) (id : FifoId) : (raiseOverflow id s).sram = s.sram := rfl
@[simp] theorem raiseOverflow_pending (s : State) (id : FifoId) : (raiseOverflow id s).pending = s.pending := rfl
@[simp] theorem raiseOverflow_hostData (s : State) (id : FifoId) : (raiseOverflow id s).hostData = s.hostData := rfl
@[simp] theorem raiseOverflow_moverData (s : State) (id : FifoId) : (raiseOverflow id s).moverData = s.moverData := rfl
@[simp] theorem raiseOverflow_handler (s : State) (id : FifoId) : (raiseOverflow id s).handler = s.handler := rfl
@[simp] theorem raiseOverflow_agenda (s : State) (id : FifoId) : (raiseOverflow id s).agenda = s.agenda := rfl
@[simp] theorem raiseOverflow_draws (s : State) (id : FifoId) : (raiseOverflow id s).draws = s.draws := rfl

/-! ### `raiseUnderflow` -/

@[simp] theorem raiseUnderflow_cfg (s : State) (id : FifoId) : (raiseUnderflow id s).cfg = s.cfg := rfl
@[simp] theorem raiseUnderflow_base (s : State) (id : FifoId) : (raiseUnderflow id s).base = s.base := rfl
@[simp] theorem raiseUnderflow_inited (s : State) (id : FifoId) : (raiseUnderflow id s).inited = s.inited := rfl
@[simp] theorem raiseUnderflow_en (s : State) (id : FifoId) : (raiseUnderflow id s).en = s.en := rfl
@[simp] theorem raiseUnderflow_swun (s : State) (id : FifoId) : (raiseUnderflow id s).swun = s.swun := rfl
@[simp] theorem raiseUnderflow_pri (s : State) (id : FifoId) : (raiseUnderflow id s).pri = s.pri := rfl
@[simp] theorem raiseUnderflow_alt (s : State) (id : FifoId) : (raiseUnderflow id s).alt = s.alt := rfl
@[simp] theorem raiseUnderflow_dien (s : State) (id : FifoId) : (raiseUnderflow id s).dien = s.dien := rfl
@[simp] theorem raiseUnderflow_berr (s : State) (id : FifoId) : (raiseUnderflow id s).berr = s.berr := rfl
@[simp] theorem raiseUnderflow_inv (s : State) (id : FifoId) : (raiseUnderflow id s).inv = s.inv := rfl
@[simp] theorem raiseUnderflow_done (s : State) (id : FifoId) : (raiseUnderflow id s).done = s.done := rfl
@[simp] theorem raiseUnderflow_pend (s : State) (id : FifoId) : (raiseUnderflow id s).pend = s.pend := rfl
@[simp] theorem raiseUnderflow_run (s : State) (id : FifoId) : (raiseUnderflow id s).run = s.run := rfl
@[simp] theorem raiseUnderflow_progress (s : State) (id : FifoId) : (raiseUnderflow id s).progress = s.progress := rfl
@[simp] theorem raiseUnderflow_seq (s : State) (id : FifoId) : (raiseUnderflow id s).seq = s.seq := rfl
@[simp] theorem raiseUnderflow_mem (s : State) (id : FifoId) : (raiseUnderflow id s).mem = s.mem := rfl
@[simp] theorem raiseUnderflow_sram (s : State) (id : FifoId) : (raiseUnderflow id s).sram = s.sram := rfl
@[simp] theorem raiseUnderflow_pending (s : State) (id : FifoId) : (raiseUnderflow id s).pending = s.pending := rfl
@[simp] theorem raiseUnderflow_hostData (s : State) (id : FifoId) : (raiseUnderflow id s).hostData = s.hostData := rfl
@[simp] theorem raiseUnderflow_moverData (s : State) (id : FifoId) : (raiseUnderflow id s).moverData = s.moverData := rfl
@[simp] theorem raiseUnderflow_handler (s : State) (id : FifoId) : (raiseUnderflow id s).handler = s.handler := rfl
@[simp] theorem raiseUnderflow_agenda (s : State) (id : FifoId) : (raiseUnderflow id s).agenda = s.agenda := rfl
@[simp] theorem raiseUnderflow_draws (s : State) (id : FifoId) : (raiseUnderflow id s).draws = s.draws := rfl

/-! ### `storeUnit` -/

@[simp] theorem storeUnit_cfg (s : State) (id : FifoId) (v : Word) (u : BitVec 17) : (storeUnit id v u s).cfg = s.cfg := rfl
@[simp] theorem storeUnit_base (s : State) (id : FifoId) (v : Word) (u : BitVec 17) : (storeUnit id v u s).base = s.base := rfl
@[simp] theorem storeUnit_inited (s : State) (id : FifoId) (v : Word) (u : BitVec 17) : (storeUnit id v u s).inited = s.inited := rfl
@[simp] theorem storeUnit_en (s : State) (id : FifoId) (v : Word) (u : BitVec 17) : (storeUnit id v u s).en = s.en := rfl
@[simp] theorem storeUnit_swun (s : State) (id : FifoId) (v : Word) (u : BitVec 17) : (storeUnit id v u s).swun = s.swun := rfl
@[simp] theorem storeUnit_pri (s : State) (id : FifoId) (v : Word) (u : BitVec 17) : (storeUnit id v u s).pri = s.pri := rfl
@[simp] theorem storeUnit_alt (s : State) (id : FifoId) (v : Word) (u : BitVec 17) : (storeUnit id v u s).alt = s.alt := rfl
@[simp] theorem storeUnit_dien (s : State) (id : FifoId) (v : Word) (u : BitVec 17) : (storeUnit id v u s).dien = s.dien := rfl
@[simp] theorem storeUnit_berr (s : State) (id : FifoId) (v : Word) (u : BitVec 17) : (storeUnit id v u s).berr = s.berr := rfl
@[simp] theorem storeUnit_inv (s : State) (id : FifoId) (v : Word) (u : BitVec 17) : (storeUnit id v u s).inv = s.inv := rfl
@[simp] theorem storeUnit_done (s : State) (id : FifoId) (v : Word) (u : BitVec 17) : (storeUnit id v u s).done = s.done := rfl
@[simp] theorem storeUnit_pend (s : State) (id : FifoId) (v : Word) (u : BitVec 17) : (storeUnit id v u s).pend = s.pend := rfl
@[simp] theorem storeUnit_run (s : State) (id : FifoId) (v : Word) (u : BitVec 17) : (storeUnit id v u s).run = s.run := rfl
@[simp] theorem storeUnit_progress (s : State) (id : FifoId) (v : Word) (u : BitVec 17) : (storeUnit id v u s).progress = s.progress := rfl
@[simp] theorem storeUnit_seq (s : State) (id : FifoId) (v : Word) (u : BitVec 17) : (storeUnit id v u s).seq = s.seq := rfl
@[simp] theorem storeUnit_mem (s : State) (id : FifoId) (v : Word) (u : BitVec 17) : (storeUnit id v u s).mem = s.mem := rfl
@[simp] theorem storeUnit_pending (s : State) (id : FifoId) (v : Word) (u : BitVec 17) : (storeUnit id v u s).pending = s.pending := rfl
@[simp] theorem storeUnit_hostData (s : State) (id : FifoId) (v : Word) (u : BitVec 17) : (storeUnit id v u s).hostData = s.hostData := rfl
@[simp] theorem storeUnit_moverData (s : State) (id : FifoId) (v : Word) (u : BitVec 17) : (storeUnit id v u s).moverData = s.moverData := rfl
@[simp] theorem storeUnit_handler (s : State) (id : FifoId) (v : Word) (u : BitVec 17) : (storeUnit id v u s).handler = s.handler := rfl
@[simp] theorem storeUnit_agenda (s : State) (id : FifoId) (v : Word) (u : BitVec 17) : (storeUnit id v u s).agenda = s.agenda := rfl
@[simp] theorem storeUnit_draws (s : State) (id : FifoId) (v : Word) (u : BitVec 17) : (storeUnit id v u s).draws = s.draws := rfl

/-! ### `takeUnit` -/

@[simp] theorem takeUnit_cfg (s : State) (id : FifoId) (u : BitVec 17) : (takeUnit id u s).cfg = s.cfg := rfl
@[simp] theorem takeUnit_base (s : State) (id : FifoId) (u : BitVec 17) : (takeUnit id u s).base = s.base := rfl
@[simp] theorem takeUnit_inited (s : State) (id : FifoId) (u : BitVec 17) : (takeUnit id u s).inited = s.inited := rfl
@[simp] theorem takeUnit_en (s : State) (id : FifoId) (u : BitVec 17) : (takeUnit id u s).en = s.en := rfl
@[simp] theorem takeUnit_swun (s : State) (id : FifoId) (u : BitVec 17) : (takeUnit id u s).swun = s.swun := rfl
@[simp] theorem takeUnit_pri (s : State) (id : FifoId) (u : BitVec 17) : (takeUnit id u s).pri = s.pri := rfl
@[simp] theorem takeUnit_alt (s : State) (id : FifoId) (u : BitVec 17) : (takeUnit id u s).alt = s.alt := rfl
@[simp] theorem takeUnit_dien (s : State) (id : FifoId) (u : BitVec 17) : (takeUnit id u s).dien = s.dien := rfl
@[simp] theorem takeUnit_berr (s : State) (id : FifoId) (u : BitVec 17) : (takeUnit id u s).berr = s.berr := rfl
@[simp] theorem takeUnit_inv (s : State) (id : FifoId) (u : BitVec 17) : (takeUnit id u s).inv = s.inv := rfl
@[simp] theorem takeUnit_done (s : State) (id : FifoId) (u : BitVec 17) : (takeUnit id u s).done = s.done := rfl
@[simp] theorem takeUnit_pend (s : State) (id : FifoId) (u : BitVec 17) : (takeUnit id u s).pend = s.pend := rfl
@[simp] theorem takeUnit_run (s : State) (id : FifoId) (u : BitVec 17) : (takeUnit id u s).run = s.run := rfl
@[simp] theorem takeUnit_progress (s : State) (id : FifoId) (u : BitVec 17) : (takeUnit id u s).progress = s.progress := rfl
@[simp] theorem takeUnit_seq (s : State) (id : FifoId) (u : BitVec 17) : (takeUnit id u s).seq = s.seq := rfl
@[simp] theorem takeUnit_mem (s : State) (id : FifoId) (u : BitVec 17) : (takeUnit id u s).mem = s.mem := rfl
@[simp] theorem takeUnit_sram (s : State) (id : FifoId) (u : BitVec 17) : (takeUnit id u s).sram = s.sram := rfl
@[simp] theorem takeUnit_pending (s : State) (id : FifoId) (u : BitVec 17) : (takeUnit id u s).pending = s.pending := rfl
@[simp] theorem takeUnit_hostData (s : State) (id : FifoId) (u : BitVec 17) : (takeUnit id u s).hostData = s.hostData := rfl
@[simp] theorem takeUnit_moverData (s : State) (id : FifoId) (u : BitVec 17) : (takeUnit id u s).moverData = s.moverData := rfl
@[simp] theorem takeUnit_handler (s : State) (id : FifoId) (u : BitVec 17) : (takeUnit id u s).handler = s.handler := rfl
@[simp] theorem takeUnit_agenda (s : State) (id : FifoId) (u : BitVec 17) : (takeUnit id u s).agenda = s.agenda := rfl

/-! ### `drainWrite` -/

@[simp] theorem drainWrite_cfg (s : State) (i : Nat) : (drainWrite i s).cfg = s.cfg := by unfold drainWrite; split <;> rfl
@[simp] theorem drainWrite_base (s : State) (i : Nat) : (drainWrite i s).base = s.base := by unfold drainWrite; split <;> rfl
@[simp] theorem drainWrite_inited (s : State) (i : Nat) : (drainWrite i s).inited = s.inited := by unfold drainWrite; split <;> rfl
@[simp] theorem drainWrite_en (s : State) (i : Nat) : (drainWrite i s).en = s.en := by unfold drainWrite; split <;> rfl
@[simp] theorem drainWrite_swun (s : State) (i : Nat) : (drainWrite i s).swun = s.swun := by unfold drainWrite; split <;> rfl
@[simp] theorem drainWrite_pri (s : State) (i : Nat) : (drainWrite i s).pri = s.pri := by unfold drainWrite; split <;> rfl
@[simp] theorem drainWrite_alt (s : State) (i : Nat) : (drainWrite i s).alt = s.alt := by unfold drainWrite; split <;> rfl
@[simp] theorem drainWrite_dien (s : State) (i : Nat) : (drainWrite i s).dien = s.dien := by unfold drainWrite; split <;> rfl
@[simp] theorem drainWrite_berr (s : State) (i : Nat) : (drainWrite i s).berr = s.berr := by unfold drainWrite; split <;> rfl
@[simp] theorem drainWrite_inv (s : State) (i : Nat) : (drainWrite i s).inv = s.inv := by unfold drainWrite; split <;> rfl
@[simp] theorem drainWrite_done (s : State) (i : Nat) : (drainWrite i s).done = s.done := by unfold drainWrite; split <;> rfl
@[simp] theorem drainWrite_pend (s : State) (i : Nat) : (drainWrite i s).pend = s.pend := by unfold drainWrite; split <;> rfl
@[simp] theorem drainWrite_run (s : State) (i : Nat) : (drainWrite i s).run = s.run := by unfold drainWrite; split <;> rfl
@[simp] theorem drainWrite_progress (s : State) (i : Nat) : (drainWrite i s).progress = s.progress := by unfold drainWrite; split <;> rfl
@[simp] theorem drainWrite_seq (s : State) (i : Nat) : (drainWrite i s).seq = s.seq := by unfold drainWrite; split <;> rfl
@[simp] theorem drainWrite_fifos (s : State) (i : Nat) : (drainWrite i s).fifos = s.fifos := by unfold drainWrite; split <;> rfl
@[simp] theorem drainWrite_sram (s : State) (i : Nat) : (drainWrite i s).sram = s.sram := by unfold drainWrite; split <;> rfl
@[simp] theorem drainWrite_hostData (s : State) (i : Nat) : (drainWrite i s).hostData = s.hostData := by unfold drainWrite; split <;> rfl
@[simp] theorem drainWrite_moverData (s : State) (i : Nat) : (drainWrite i s).moverData = s.moverData := by unfold drainWrite; split <;> rfl
@[simp] theorem drainWrite_handler (s : State) (i : Nat) : (drainWrite i s).handler = s.handler := by unfold drainWrite; split <;> rfl
@[simp] theorem drainWrite_agenda (s : State) (i : Nat) : (drainWrite i s).agenda = s.agenda := by unfold drainWrite; split <;> rfl
@[simp] theorem drainWrite_draws (s : State) (i : Nat) : (drainWrite i s).draws = s.draws := by unfold drainWrite; split <;> rfl

/-! ### `completeAndStop` -/

@[simp] theorem completeAndStop_cfg (s : State) (c : Chan) : (completeAndStop c s).cfg = s.cfg := by simp [completeAndStop, raiseEvent]
@[simp] theorem completeAndStop_base (s : State) (c : Chan) : (completeAndStop c s).base = s.base := by simp [completeAndStop, raiseEvent]
@[simp] theorem completeAndStop_inited (s : State) (c : Chan) : (completeAndStop c s).inited = s.inited := by simp [completeAndStop, raiseEvent]
@[simp] theorem completeAndStop_swun (s : State) (c : Chan) : (completeAndStop c s).swun = s.swun := by simp [completeAndStop, raiseEvent]
@[simp] theorem completeAndStop_pri (s : State) (c : Chan) : (completeAndStop c s).pri = s.pri := by simp [completeAndStop, raiseEvent]
@[simp] theorem completeAndStop_alt (s : State) (c : Chan) : (completeAndStop c s).alt = s.alt := by simp [completeAndStop, raiseEvent]
@[simp] theorem completeAndStop_dien (s : State) (c : Chan) : (completeAndStop c s).dien = s.dien := by simp [completeAndStop, raiseEvent]
@[simp] theorem completeAndStop_berr (s : State) (c : Chan) : (completeAndStop c s).berr = s.berr := by simp [completeAndStop, raiseEvent]
@[simp] theorem completeAndStop_inv (s : State) (c : Chan) : (completeAndStop c s).inv = s.inv := by simp [completeAndStop, raiseEvent]
@[simp] theorem completeAndStop_pend (s : State) (c : Chan) : (completeAndStop c s).pend = s.pend := by simp [completeAndStop, raiseEvent]
@[simp] theorem completeAndStop_run (s : State) (c : Chan) : (completeAndStop c s).run = s.run := by simp [completeAndStop, raiseEvent]
@[simp] theorem completeAndStop_progress (s : State) (c : Chan) : (completeAndStop c s).progress = s.progress := by simp [completeAndStop, raiseEvent]
@[simp] theorem completeAndStop_seq (s : State) (c : Chan) : (completeAndStop c s).seq = s.seq := by simp [completeAndStop, raiseEvent]
@[simp] theorem completeAndStop_mem (s : State) (c : Chan) : (completeAndStop c s).mem = s.mem := by simp [completeAndStop, raiseEvent]
@[simp] theorem completeAndStop_fifos (s : State) (c : Chan) : (completeAndStop c s).fifos = s.fifos := by simp [completeAndStop, raiseEvent]
@[simp] theorem completeAndStop_sram (s : State) (c : Chan) : (completeAndStop c s).sram = s.sram := by simp [completeAndStop, raiseEvent]
@[simp] theorem completeAndStop_pending (s : State) (c : Chan) : (completeAndStop c s).pending = s.pending := by simp [completeAndStop, raiseEvent]
@[simp] theorem completeAndStop_hostData (s : State) (c : Chan) : (completeAndStop c s).hostData = s.hostData := by simp [completeAndStop, raiseEvent]
@[simp] theorem completeAndStop_moverData (s : State) (c : Chan) : (completeAndStop c s).moverData = s.moverData := by simp [completeAndStop, raiseEvent]
@[simp] theorem completeAndStop_handler (s : State) (c : Chan) : (completeAndStop c s).handler = s.handler := by simp [completeAndStop, raiseEvent]
@[simp] theorem completeAndStop_agenda (s : State) (c : Chan) : (completeAndStop c s).agenda = s.agenda := by simp [completeAndStop, raiseEvent]
@[simp] theorem completeAndStop_draws (s : State) (c : Chan) : (completeAndStop c s).draws = s.draws := by simp [completeAndStop, raiseEvent]

/-! ### `completeAndSwitch` -/

@[simp] theorem completeAndSwitch_cfg (s : State) (c : Chan) : (completeAndSwitch c s).cfg = s.cfg := by simp [completeAndSwitch, raiseEvent]
@[simp] theorem completeAndSwitch_base (s : State) (c : Chan) : (completeAndSwitch c s).base = s.base := by simp [completeAndSwitch, raiseEvent]
@[simp] theorem completeAndSwitch_inited (s : State) (c : Chan) : (completeAndSwitch c s).inited = s.inited := by simp [completeAndSwitch, raiseEvent]
@[simp] theorem completeAndSwitch_en (s : State) (c : Chan) : (completeAndSwitch c s).en = s.en := by simp [completeAndSwitch, raiseEvent]
@[simp] theorem completeAndSwitch_swun (s : State) (c : Chan) : (completeAndSwitch c s).swun = s.swun := by simp [completeAndSwitch, raiseEvent]
@[simp] theorem completeAndSwitch_pri (s : State) (c : Chan) : (completeAndSwitch c s).pri = s.pri := by simp [completeAndSwitch, raiseEvent]
@[simp] theorem completeAndSwitch_dien (s : State) (c : Chan) : (completeAndSwitch c s).dien = s.dien := by simp [completeAndSwitch, raiseEvent]
@[simp] theorem completeAndSwitch_berr (s : State) (c : Chan) : (completeAndSwitch c s).berr = s.berr := by simp [completeAndSwitch, raiseEvent]
@[simp] theorem completeAndSwitch_inv (s : State) (c : Chan) : (completeAndSwitch c s).inv = s.inv := by simp [completeAndSwitch, raiseEvent]
@[simp] theorem completeAndSwitch_pend (s : State) (c : Chan) : (completeAndSwitch c s).pend = s.pend := by simp [completeAndSwitch, raiseEvent]
@[simp] theorem completeAndSwitch_run (s : State) (c : Chan) : (completeAndSwitch c s).run = s.run := by simp [completeAndSwitch, raiseEvent]
@[simp] theorem completeAndSwitch_progress (s : State) (c : Chan) : (completeAndSwitch c s).progress = s.progress := by simp [completeAndSwitch, raiseEvent]
@[simp] theorem completeAndSwitch_seq (s : State) (c : Chan) : (completeAndSwitch c s).seq = s.seq := by simp [completeAndSwitch, raiseEvent]
@[simp] theorem completeAndSwitch_mem (s : State) (c : Chan) : (completeAndSwitch c s).mem = s.mem := by simp [completeAndSwitch, raiseEvent]
@[simp] theorem completeAndSwitch_fifos (s : State) (c : Chan) : (completeAndSwitch c s).fifos = s.fifos := by simp [completeAndSwitch, raiseEvent]
@[simp] theorem completeAndSwitch_sram (s : State) (c : Chan) : (completeAndSwitch c s).sram = s.sram := by simp [completeAndSwitch, raiseEvent]
@[simp] theorem completeAndSwitch_pending (s : State) (c : Chan) : (completeAndSwitch c s).pending = s.pending := by simp [completeAndSwitch, raiseEvent]
@[simp] theorem completeAndSwitch_hostData (s : State) (c : Chan) : (completeAndSwitch c s).hostData = s.hostData := by simp [completeAndSwitch, raiseEvent]
@[simp] theorem completeAndSwitch_moverData (s : State) (c : Chan) : (completeAndSwitch c s).moverData = s.moverData := by simp [completeAndSwitch, raiseEvent]
@[simp] theorem completeAndSwitch_handler (s : State) (c : Chan) : (completeAndSwitch c s).handler = s.handler := by simp [completeAndSwitch, raiseEvent]
@[simp] theorem completeAndSwitch_agenda (s : State) (c : Chan) : (completeAndSwitch c s).agenda = s.agenda := by simp [completeAndSwitch, raiseEvent]
@[simp] theorem completeAndSwitch_draws (s : State) (c : Chan) : (completeAndSwitch c s).draws = s.draws := by simp [completeAndSwitch, raiseEvent]

/-! ### `linkTo` -/

@[simp] theorem linkTo_cfg (s : State) (h : Half) (c : Chan) : (linkTo h c s).cfg = s.cfg := by simp [linkTo]
@[simp] theorem linkTo_base (s : State) (h : Half) (c : Chan) : (linkTo h c s).base = s.base := by simp [linkTo]
@[simp] theorem linkTo_inited (s : State) (h : Half) (c : Chan) : (linkTo h c s).inited = s.inited := by simp [linkTo]
@[simp] theorem linkTo_en (s : State) (h : Half) (c : Chan) : (linkTo h c s).en = s.en := by simp [linkTo]
@[simp] theorem linkTo_swun (s : State) (h : Half) (c : Chan) : (linkTo h c s).swun = s.swun := by simp [linkTo]
@[simp] theorem linkTo_pri (s : State) (h : Half) (c : Chan) : (linkTo h c s).pri = s.pri := by simp [linkTo]
@[simp] theorem linkTo_dien (s : State) (h : Half) (c : Chan) : (linkTo h c s).dien = s.dien := by simp [linkTo]
@[simp] theorem linkTo_berr (s : State) (h : Half) (c : Chan) : (linkTo h c s).berr = s.berr := by simp [linkTo]
@[simp] theorem linkTo_inv (s : State) (h : Half) (c : Chan) : (linkTo h c s).inv = s.inv := by simp [linkTo]
@[simp] theorem linkTo_done (s : State) (h : Half) (c : Chan) : (linkTo h c s).done = s.done := by simp [linkTo]
@[simp] theorem linkTo_run (s : State) (h : Half) (c : Chan) : (linkTo h c s).run = s.run := by simp [linkTo]
@[simp] theorem linkTo_progress (s : State) (h : Half) (c : Chan) : (linkTo h c s).progress = s.progress := by simp [linkTo]
@[simp] theorem linkTo_seq (s : State) (h : Half) (c : Chan) : (linkTo h c s).seq = s.seq := by simp [linkTo]
@[simp] theorem linkTo_mem (s : State) (h : Half) (c : Chan) : (linkTo h c s).mem = s.mem := by simp [linkTo]
@[simp] theorem linkTo_fifos (s : State) (h : Half) (c : Chan) : (linkTo h c s).fifos = s.fifos := by simp [linkTo]
@[simp] theorem linkTo_sram (s : State) (h : Half) (c : Chan) : (linkTo h c s).sram = s.sram := by simp [linkTo]
@[simp] theorem linkTo_pending (s : State) (h : Half) (c : Chan) : (linkTo h c s).pending = s.pending := by simp [linkTo]
@[simp] theorem linkTo_hostData (s : State) (h : Half) (c : Chan) : (linkTo h c s).hostData = s.hostData := by simp [linkTo]
@[simp] theorem linkTo_moverData (s : State) (h : Half) (c : Chan) : (linkTo h c s).moverData = s.moverData := by simp [linkTo]
@[simp] theorem linkTo_handler (s : State) (h : Half) (c : Chan) : (linkTo h c s).handler = s.handler := by simp [linkTo]
@[simp] theorem linkTo_agenda (s : State) (h : Half) (c : Chan) : (linkTo h c s).agenda = s.agenda := by simp [linkTo]
@[simp] theorem linkTo_draws (s : State) (h : Half) (c : Chan) : (linkTo h c s).draws = s.draws := by simp [linkTo]

/-! ### `granted` -/

@[simp] theorem granted_cfg (s : State) (c : Chan) : (granted c s).cfg = s.cfg := rfl
@[simp] theorem granted_base (s : State) (c : Chan) : (granted c s).base = s.base := rfl
@[simp] theorem granted_inited (s : State) (c : Chan) : (granted c s).inited = s.inited := rfl
@[simp] theorem granted_en (s : State) (c : Chan) : (granted c s).en = s.en := rfl
@[simp] theorem granted_swun (s : State) (c : Chan) : (granted c s).swun = s.swun := rfl
@[simp] theorem granted_pri (s : State) (c : Chan) : (granted c s).pri = s.pri := rfl
@[simp] theorem granted_alt (s : State) (c : Chan) : (granted c s).alt = s.alt := rfl
@[simp] theorem granted_dien (s : State) (c : Chan) : (granted c s).dien = s.dien := rfl
@[simp] theorem granted_berr (s : State) (c : Chan) : (granted c s).berr = s.berr := rfl
@[simp] theorem granted_inv (s : State) (c : Chan) : (granted c s).inv = s.inv := rfl
@[simp] theorem granted_done (s : State) (c : Chan) : (granted c s).done = s.done := rfl
@[simp] theorem granted_progress (s : State) (c : Chan) : (granted c s).progress = s.progress := rfl
@[simp] theorem granted_seq (s : State) (c : Chan) : (granted c s).seq = s.seq := rfl
@[simp] theorem granted_mem (s : State) (c : Chan) : (granted c s).mem = s.mem := rfl
@[simp] theorem granted_fifos (s : State) (c : Chan) : (granted c s).fifos = s.fifos := rfl
@[simp] theorem granted_sram (s : State) (c : Chan) : (granted c s).sram = s.sram := rfl
@[simp] theorem granted_pending (s : State) (c : Chan) : (granted c s).pending = s.pending := rfl
@[simp] theorem granted_hostData (s : State) (c : Chan) : (granted c s).hostData = s.hostData := rfl
@[simp] theorem granted_moverData (s : State) (c : Chan) : (granted c s).moverData = s.moverData := rfl
@[simp] theorem granted_handler (s : State) (c : Chan) : (granted c s).handler = s.handler := rfl
@[simp] theorem granted_agenda (s : State) (c : Chan) : (granted c s).agenda = s.agenda := rfl

end Sys2Proof.Machine
end

