-- ==== Sys2Proof/Laws/Access.lean ====
section
/-! SUPPORT. Channel bits, progress, FIFO channels and SRAM blocks: what reads after a write, one lemma each. -/

namespace Sys2Proof.Machine

/-! ### Channel bits -/

theorem getLsbD_chanBit (c d : Chan) : (chanBit c).getLsbD d.val = decide (c = d) := by
  revert c d; decide

@[simp] theorem bitOf_chanBit (c d : Chan) : bitOf (chanBit c) d = decide (c = d) := getLsbD_chanBit c d

@[simp] theorem bitOf_or (x y : Word) (d : Chan) : bitOf (x ||| y) d = (bitOf x d || bitOf y d) := by
  simp [bitOf]

@[simp] theorem bitOf_and (x y : Word) (d : Chan) : bitOf (x &&& y) d = (bitOf x d && bitOf y d) := by
  simp [bitOf]

@[simp] theorem bitOf_not (x : Word) (d : Chan) : bitOf (~~~x) d = !bitOf x d := by
  simp [bitOf, d.isLt]

@[simp] theorem bitOf_zero (d : Chan) : bitOf 0#32 d = false := by simp [bitOf]

@[simp] theorem bitOf_withBit (x : Word) (c d : Chan) : bitOf (withBit x c) d = (bitOf x d || decide (c = d)) := by
  simp [withBit]

@[simp] theorem bitOf_withoutBit (x : Word) (c d : Chan) :
    bitOf (withoutBit x c) d = (bitOf x d && !decide (c = d)) := by
  simp [withoutBit]

/-- Two per-channel words with the same bits are equal. -/
theorem word_ext {x y : Word} (h : ∀ c : Chan, bitOf x c = bitOf y c) : x = y := by
  apply BitVec.eq_of_getLsbD_eq
  intro i hi
  exact h ⟨i, hi⟩

/-- The bits of channels that exist. -/
theorem bitOf_chanMask (p : Platform) (c : Chan) : bitOf p.chanMask c = decide (c.val < p.ch) := by
  unfold bitOf Platform.chanMask
  simp only [BitVec.getLsbD_ofNat, c.isLt, decide_true, Bool.true_and]
  rw [Nat.testBit_two_pow_sub_one]

@[simp] theorem bitOf_setOnes (p : Platform) (x v : Word) (c : Chan) :
    bitOf (setOnes p x v) c = (bitOf x c || (bitOf v c && bitOf p.chanMask c)) := by
  simp [setOnes]

@[simp] theorem bitOf_clearOnes (p : Platform) (x v : Word) (c : Chan) :
    bitOf (clearOnes p x v) c = (bitOf x c && !(bitOf v c && bitOf p.chanMask c)) := by
  simp [clearOnes]

/-! ### Progress -/

@[simp] theorem Progress.get_put (q : Progress) (h g : Half) (r : Option Nat) :
    (q.put h r).get g = if h = g then r else q.get g := by
  cases h <;> cases g <;> simp [Progress.get, Progress.put]

@[simp] theorem Progress.get_idle (h : Half) : Progress.idle.get h = none := by cases h <;> rfl

@[simp] theorem State.rem_setRem (s : State) (c d : Chan) (h g : Half) (r : Option Nat) :
    (s.setRem c h r).rem d g = if c = d ∧ h = g then r else s.rem d g := by
  unfold State.rem State.setRem
  by_cases hcd : c = d
  · subst hcd; simp
  · have : c.val ≠ d.val := fun hv => hcd (Fin.ext hv)
    simp [this, hcd]

/-- Progress read through a state whose progress is the same. -/
theorem State.rem_congr {s t : State} (h : s.progress = t.progress) (c : Chan) (g : Half) : s.rem c g = t.rem c g := by
  unfold State.rem; simp [h]

@[simp] theorem State.rem_setSeq (s : State) (q : SeqPhase) (c : Chan) (h : Half) : (s.setSeq q).rem c h = s.rem c h := rfl

/-- What a clean-up leaves of the progress. -/
theorem cleanUp_rem (s : State) (c d : Chan) (h : Half) :
    (cleanUp c s).rem d h = if bitOf s.en c = false ∧ c = d then none else s.rem d h := by
  unfold cleanUp
  by_cases he : bitOf s.en c = true
  · simp [he]
  · simp only [he, Bool.false_eq_true, if_false]
    unfold State.rem
    by_cases hcd : c = d
    · subst hcd; simp
    · have : c.val ≠ d.val := fun hv => hcd (Fin.ext hv)
      simp [this, hcd]

/-- What a host clear of enable bits leaves of the progress. -/
theorem clearEnables_rem (s : State) (v : Word) (d : Chan) (h : Half) :
    (clearEnables v s).rem d h =
      if bitOf (v &&& s.cfg.chanMask) d ∧ s.seq.curChan ≠ some d then none else s.rem d h := by
  unfold clearEnables State.rem
  rcases hq : s.seq.curChan with _ | c <;> simp only [Vector.getElem_ofFn]
  · split <;> simp_all
  · by_cases hcd : c = d
    · subst hcd; simp
    · split <;> simp_all

/-! ### FIFO channels and SRAM blocks -/

theorem fifoIndex_inj {x y : FifoId} (h : (fifoIndex x).val = (fifoIndex y).val) : x = y := by
  obtain ⟨⟨a, ha⟩, ⟨b, hb⟩⟩ := x
  obtain ⟨⟨c, hc⟩, ⟨d, hd⟩⟩ := y
  simp only [fifoIndex] at h
  have h1 : a = c := by omega
  have h2 : b = d := by omega
  subst h1; subst h2; rfl

@[simp] theorem State.fifo_setFifo (s : State) (x y : FifoId) (f : FifoChan) :
    (s.setFifo x f).fifo y = if x = y then f else s.fifo y := by
  unfold State.fifo State.setFifo
  by_cases h : x = y
  · subst h; simp
  · have : (fifoIndex x).val ≠ (fifoIndex y).val := fun hv => h (fifoIndex_inj hv)
    simp [this, h]

@[simp] theorem State.block_setBlock (s : State) (x y : Fin 3) (m : Memory) :
    (s.setBlock x m).block y = if x = y then m else s.block y := by
  unfold State.block State.setBlock
  by_cases h : x = y
  · subst h; simp
  · have : x.val ≠ y.val := fun hv => h (Fin.ext hv)
    simp [this, h]

@[simp] theorem State.fifo_setBlock (s : State) (b : Fin 3) (m : Memory) (x : FifoId) :
    (s.setBlock b m).fifo x = s.fifo x := rfl

@[simp] theorem State.block_setFifo (s : State) (x : FifoId) (f : FifoChan) (b : Fin 3) :
    (s.setFifo x f).block b = s.block b := rfl

/-- A FIFO channel read through a state whose channels are the same. -/
theorem State.fifo_congr {s t : State} (h : s.fifos = t.fifos) (x : FifoId) : s.fifo x = t.fifo x := by
  unfold State.fifo; simp [h]

/-- A block read through a state whose blocks are the same. -/
theorem State.block_congr {s t : State} (h : s.sram = t.sram) (b : Fin 3) : s.block b = t.block b := by
  unfold State.block; simp [h]

end Sys2Proof.Machine
end

