-- ==== Sys2Proof/Laws/Memory.lean ====
section
/-! SUPPORT. The memory laws: a byte reads back, the others are left alone, and every operation keeps the canonical
form. -/

namespace Sys2Proof.Machine

/-- One byte read after one byte written. -/
@[simp] theorem Memory.readByte_writeByte (m : Memory) (a b : Nat) (v : Byte) :
    (m.writeByte a v).readByte b = if a = b then some v else m.readByte b := by
  induction m with
  | nil => simp [Memory.writeByte, Memory.readByte]
  | cons x m ih =>
    obtain ⟨k, y⟩ := x
    unfold Memory.writeByte
    split
    · simp [Memory.readByte]
    · split
      · next h => subst h; simp only [Memory.readByte]; split <;> simp_all
      · next h1 h2 =>
        simp only [Memory.readByte, ih]
        split
        · next hk => rw [if_neg]; omega
        · rfl

/-- An address that no cell names reads as before. -/
theorem Memory.readByte_writeCells_of_notMem (cells : List Host.Cell) (m : Memory) (b : Nat)
    (h : ∀ x ∈ cells, x.1 ≠ b) : (m.writeCells cells).readByte b = m.readByte b := by
  unfold Memory.writeCells
  induction cells generalizing m with
  | nil => rfl
  | cons x cells ih =>
    simp only [List.foldl_cons]
    rw [ih _ (fun y hy => h y (List.mem_cons_of_mem _ hy))]
    simp [h x List.mem_cons_self]

/-- The first address of a sorted list is below every other. -/
theorem Memory.wf_tail {x : Host.Cell} {m : Memory} (h : Memory.wf (x :: m) = true) : Memory.wf m = true := by
  cases m with
  | nil => rfl
  | cons y m => simp only [Memory.wf, Bool.and_eq_true] at h; exact h.2

/-- Writing a byte keeps the canonical form, and a head above a bound stays above it. -/
theorem Memory.writeByte_wf_bound (m : Memory) (a : Nat) (v : Byte) (h : m.wf = true) :
    (m.writeByte a v).wf = true ∧
      ∀ k y, k < a → Memory.wf ((k, y) :: m) = true → Memory.wf ((k, y) :: m.writeByte a v) = true := by
  induction m with
  | nil => simp [Memory.writeByte, Memory.wf]
  | cons x m ih =>
    obtain ⟨j, z⟩ := x
    have ih := ih (Memory.wf_tail h)
    unfold Memory.writeByte
    split
    · next hlt =>
      refine ⟨?_, ?_⟩
      · simp [Memory.wf, hlt, h]
      · intro k y hk _; simp [Memory.wf, hk, hlt, h]
    · split
      · next heq =>
        subst heq
        have hm : Memory.wf ((a, v) :: m) = true := by
          cases m with
          | nil => rfl
          | cons y m => simpa [Memory.wf] using h
        exact ⟨hm, fun k y hk _ => by simp [Memory.wf, hk, hm]⟩
      · next h1 h2 =>
        have hj : Memory.wf ((j, z) :: Memory.writeByte m a v) = true := ih.2 j z (by omega) h
        refine ⟨hj, fun k y hk hky => ?_⟩
        simp only [Memory.wf, Bool.and_eq_true, decide_eq_true_eq] at hky ⊢
        exact ⟨hky.1, hj⟩

/-- Writing a byte keeps the canonical form. -/
theorem Memory.writeByte_wf (m : Memory) (a : Nat) (v : Byte) (h : m.wf = true) : (m.writeByte a v).wf = true :=
  (Memory.writeByte_wf_bound m a v h).1

/-- Writing cells keeps the canonical form. -/
theorem Memory.writeCells_wf (cells : List Host.Cell) (m : Memory) (h : m.wf = true) : (m.writeCells cells).wf = true := by
  unfold Memory.writeCells
  induction cells generalizing m with
  | nil => exact h
  | cons x cells ih => exact ih _ (Memory.writeByte_wf m x.1 x.2 h)

/-- The memory of the reset state has the canonical form. -/
theorem reset_memory_wf : State.reset.mem.wf = true := rfl

/-- The SRAM blocks of the reset state have the canonical form. -/
theorem reset_block_wf (b : Fin 3) : (State.reset.block b).wf = true := by
  revert b; decide

/-! ### Addresses and cells -/

@[simp] theorem byteAddrs_length (a : Word) (n : Nat) : (byteAddrs a n).length = n := by simp [byteAddrs]

@[simp] theorem bytesOfWord_length (n : Nat) (v : Word) : (bytesOfWord n v).length = n := by
  change (lowBytes n v).length = n
  simp [lowBytes]

/-- A cell of a stored value is at one of the access's addresses. -/
theorem mem_cellsOf {addrs : List Nat} {v : Word} {x : Host.Cell} (h : x ∈ cellsOf addrs v) : x.1 ∈ addrs := by
  unfold cellsOf at h
  exact (List.of_mem_zip h).1

/-- An address outside an access reads as before it. -/
theorem readByte_store_outside (m : Memory) (addrs : List Nat) (v : Word) (b : Nat) (h : b ∉ addrs) :
    (m.writeCells (cellsOf addrs v)).readByte b = m.readByte b :=
  Memory.readByte_writeCells_of_notMem _ _ _ fun _ hx he => h (he ▸ mem_cellsOf hx)

end Sys2Proof.Machine
end

