-- ==== Sys2Proof/Laws/Fifo.lean ====
section
/-! SUPPORT. What the accesses of the FIFO-SRAM controller can do: one frame lemma for each shared operation, and the
arithmetic of units and capacities. -/

namespace Sys2Proof.Machine

/-- What an access of the engine, or of a FIFO channel by anyone, may change: memory, FIFO channels, SRAM and the draw
counter, and it keeps the canonical forms and the legal modes. -/
structure DataFrame (s t : State) : Prop where
  eq : t = { s with mem := t.mem, fifos := t.fifos, sram := t.sram, draws := t.draws }
  memory : s.mem.wf = true → t.mem.wf = true
  blocks : (∀ b : Fin 3, (s.block b).wf = true) → ∀ b : Fin 3, (t.block b).wf = true
  modes : (∀ id : FifoId, (s.fifo id).mode ≠ .both) → ∀ id : FifoId, (t.fifo id).mode ≠ .both

/-- Nothing changed. -/
theorem DataFrame.refl (s : State) : DataFrame s s := ⟨rfl, fun h => h, fun h => h, fun h => h⟩

/-- Only the draw counter changed. -/
theorem DataFrame.draws (s : State) (n : Nat) : DataFrame s { s with draws := n } := ⟨rfl, fun h => h, fun h => h, fun h => h⟩

/-- One FIFO channel changed, to a legal mode or with its mode bits kept. -/
theorem DataFrame.setFifo (s : State) (id : FifoId) (f : FifoChan)
    (h : f.mode ≠ .both ∨ (f.fen = (s.fifo id).fen ∧ f.dlen = (s.fifo id).dlen)) : DataFrame s (s.setFifo id f) := by
  refine ⟨rfl, fun h => h, fun h => h, fun hm x => ?_⟩
  rw [State.fifo_setFifo]
  split
  · rcases h with h | ⟨h1, h2⟩
    · exact h
    · have := hm id
      simpa [FifoChan.mode, h1, h2] using this
  · exact hm x

/-- One change after another. -/
theorem DataFrame.trans {s t u : State} (h : DataFrame s t) (k : DataFrame t u) : DataFrame s u :=
  ⟨by rw [k.eq, h.eq], fun m => k.memory (h.memory m), fun m => k.blocks (h.blocks m), fun m => k.modes (h.modes m)⟩

/-! ### Units and capacities -/

theorem FifoChan.unit_cases (f : FifoChan) : (f.w32 = true ∧ f.unit = 4) ∨ (f.w32 = false ∧ f.unit = 2) := by
  unfold FifoChan.unit; cases f.w32 <;> simp

theorem FifoChan.unit_pos (f : FifoChan) : 0 < f.unit := by
  rcases f.unit_cases with ⟨_, h⟩ | ⟨_, h⟩ <;> omega

theorem FifoChan.cap_pos (f : FifoChan) : 0 < f.cap := by
  unfold FifoChan.cap FifoChan.len Config.sectionBytes; omega

/-- A capacity is a whole number of units. -/
theorem FifoChan.cap_mod_unit (f : FifoChan) : f.cap % f.unit = 0 := by
  unfold FifoChan.cap FifoChan.len Config.sectionBytes
  rcases f.unit_cases with ⟨_, h⟩ | ⟨_, h⟩ <;> rw [h] <;> omega

theorem blockSections_le (b : Fin 3) : Config.blockSections b ≤ 256 := by
  unfold Config.blockSections; split <;> omega

/-- A channel in bounds has at most 65536 bytes, so a 17-bit pointer holds every count and place of it. -/
theorem FifoChan.cap_le (f : FifoChan) (b : Fin 3) (h : f.boff.toNat + f.len ≤ Config.blockSections b) :
    f.cap ≤ 65536 := by
  have := blockSections_le b
  unfold FifoChan.cap Config.sectionBytes; omega

theorem FifoChan.inBounds_iff (f : FifoChan) (b : Fin 3) :
    f.inBounds b = true ↔ f.boff.toNat + f.len ≤ Config.blockSections b := by
  simp [FifoChan.inBounds]

/-- A wrapped pointer as a number. -/
theorem FifoChan.wrap_toNat (f : FifoChan) (x : Nat) (h : f.cap ≤ 65536) : (f.wrap x).toNat = x % f.cap := by
  have := Nat.mod_lt x f.cap_pos
  unfold FifoChan.wrap
  rw [BitVec.toNat_ofNat, Nat.mod_eq_of_lt]; omega

/-! ### Frames -/

theorem fifoInitWrite_frame {id : FifoId} {v : Word} {s t : State} (h : fifoInitWrite id v s = .ok () t) :
    DataFrame s t := by
  unfold fifoInitWrite at h
  dsimp only at h
  split at h
  · cases h
  · cases h; exact DataFrame.setFifo _ _ _ (.inr ⟨rfl, rfl⟩)

theorem fifoCtrlWrite_frame {id : FifoId} {v : Word} {s t : State} (h : fifoCtrlWrite id v s = .ok () t) :
    DataFrame s t := by
  unfold fifoCtrlWrite at h
  dsimp only at h
  split at h
  · cases h
  next hm =>
    split at h
    · split at h
      · cases h; exact DataFrame.setFifo _ _ _ (.inl hm)
      · cases h
    · cases h; exact DataFrame.setFifo _ _ _ (.inl hm)

theorem fifoDlLenWrite_frame {id : FifoId} {v : Word} {s t : State} (h : fifoDlLenWrite id v s = .ok () t) :
    DataFrame s t := by
  unfold fifoDlLenWrite at h
  dsimp only at h
  split at h
  · split at h
    · cases h; exact DataFrame.setFifo _ _ _ (.inr ⟨rfl, rfl⟩)
    · cases h
  · cases h; exact DataFrame.setFifo _ _ _ (.inr ⟨rfl, rfl⟩)

theorem storeUnit_frame (id : FifoId) (v : Word) (u : BitVec 17) (s : State) : DataFrame s (storeUnit id v u s) := by
  have h : DataFrame s (s.setBlock id.blk ((s.block id.blk).writeCells (cellsOf ((s.fifo id).unitAddrs (s.fifo id).wr) v))) := by
    refine ⟨rfl, fun h => h, fun hb b => ?_, fun h => h⟩
    rw [State.block_setBlock]
    split
    · exact Memory.writeCells_wf _ _ (hb _)
    · exact hb b
  exact h.trans (DataFrame.setFifo _ _ _ (.inr ⟨rfl, rfl⟩))

theorem takeUnit_frame (id : FifoId) (u : BitVec 17) (s : State) : DataFrame s (takeUnit id u s) :=
  (DataFrame.setFifo s id { s.fifo id with rd := (s.fifo id).wrap ((s.fifo id).rd.toNat + (s.fifo id).unit), used := u }
    (.inr ⟨rfl, rfl⟩)).trans (DataFrame.draws _ _)

/-- A port write answers a next state only in three ways: discarded, overflowed, or stored. -/
theorem portWrite_cases {id : FifoId} {n : Nat} {v : Word} {s t : State} (h : portWrite id n v s = .ok () t) :
    n = (s.fifo id).unit ∧ (s.fifo id).inBounds id.blk = true ∧
    ((((s.fifo id).mode = .disabled) ∧ t = s) ∨
     ((s.fifo id).mode = .fifo ∧ (s.fifo id).cap < (s.fifo id).used.toNat + (s.fifo id).unit ∧ t = raiseOverflow id s) ∨
     ((s.fifo id).mode = .fifo ∧ (s.fifo id).used.toNat + (s.fifo id).unit ≤ (s.fifo id).cap ∧
       t = storeUnit id v ((s.fifo id).used + BitVec.ofNat 17 (s.fifo id).unit) s) ∨
     ((s.fifo id).mode = .delayLine ∧ t = storeUnit id v (s.fifo id).used s)) := by
  unfold portWrite portRefusal at h
  dsimp only at h
  by_cases hn : n = (s.fifo id).unit
  · by_cases hb : (s.fifo id).inBounds id.blk = true
    · refine ⟨hn, hb, ?_⟩
      simp only [hn, hb, ne_eq, not_true_eq_false, if_false, Bool.not_true, Bool.false_eq_true] at h
      split at h
      · cases h; exact .inl ⟨‹_›, rfl⟩
      · split at h
        · cases h; exact .inr (.inl ⟨‹_›, ‹_›, rfl⟩)
        · cases h; exact .inr (.inr (.inl ⟨‹_›, by omega, rfl⟩))
      · cases h; exact .inr (.inr (.inr ⟨‹_›, rfl⟩))
      · cases h
    · simp [hn, hb] at h
  · simp [hn] at h

/-- A port read answers a value only in three ways: a draw, an underflow, or the unit at the read pointer. -/
theorem portRead_cases {id : FifoId} {n : Nat} {v : Word} {s t : State} (h : portRead id n s = .ok v t) :
    n = (s.fifo id).unit ∧ (s.fifo id).inBounds id.blk = true ∧
    (((s.fifo id).mode = .disabled ∧ v = drawnValue n s.draws ∧ t = { s with draws := s.draws + n }) ∨
     ((s.fifo id).mode = .fifo ∧ (s.fifo id).used.toNat < (s.fifo id).unit ∧ v = drawnValue n s.draws ∧
       t = { raiseUnderflow id s with draws := s.draws + n }) ∨
     ((s.fifo id).mode = .fifo ∧ (s.fifo id).unit ≤ (s.fifo id).used.toNat ∧ v = unitAt id s ∧
       t = takeUnit id ((s.fifo id).used - BitVec.ofNat 17 (s.fifo id).unit) s) ∨
     ((s.fifo id).mode = .delayLine ∧ v = unitAt id s ∧ t = takeUnit id (s.fifo id).used s)) := by
  unfold portRead portRefusal at h
  dsimp only at h
  by_cases hn : n = (s.fifo id).unit
  · by_cases hb : (s.fifo id).inBounds id.blk = true
    · refine ⟨hn, hb, ?_⟩
      simp only [hn, hb, ne_eq, not_true_eq_false, if_false, Bool.not_true, Bool.false_eq_true] at h
      split at h
      · cases h; exact .inl ⟨‹_›, by rw [hn], by rw [hn]⟩
      · split at h
        · cases h; exact .inr (.inl ⟨‹_›, ‹_›, by rw [hn], by rw [hn]⟩)
        · cases h; exact .inr (.inr (.inl ⟨‹_›, by omega, rfl, rfl⟩))
      · cases h; exact .inr (.inr (.inr ⟨‹_›, rfl, rfl⟩))
      · cases h
    · simp [hn, hb] at h
  · simp [hn] at h

theorem portWrite_frame {id : FifoId} {n : Nat} {v : Word} {s t : State} (h : portWrite id n v s = .ok () t) :
    DataFrame s t := by
  obtain ⟨-, -, ⟨-, rfl⟩ | ⟨-, -, rfl⟩ | ⟨-, -, rfl⟩ | ⟨-, rfl⟩⟩ := portWrite_cases h
  · exact DataFrame.refl _
  · exact DataFrame.setFifo _ _ _ (.inr ⟨rfl, rfl⟩)
  · exact storeUnit_frame _ _ _ _
  · exact storeUnit_frame _ _ _ _

theorem portRead_frame {id : FifoId} {n : Nat} {v : Word} {s t : State} (h : portRead id n s = .ok v t) :
    DataFrame s t := by
  obtain ⟨-, -, ⟨-, -, rfl⟩ | ⟨-, -, -, rfl⟩ | ⟨-, -, -, rfl⟩ | ⟨-, -, rfl⟩⟩ := portRead_cases h
  · exact DataFrame.draws _ _
  · exact (DataFrame.setFifo s id { s.fifo id with unf := true } (.inr ⟨rfl, rfl⟩)).trans (DataFrame.draws _ _)
  · exact takeUnit_frame _ _ _
  · exact takeUnit_frame _ _ _

/-- A port write touches no main memory and takes no draw. -/
theorem portWrite_fields {id : FifoId} {n : Nat} {v : Word} {s t : State} (h : portWrite id n v s = .ok () t) :
    t = { s with fifos := t.fifos, sram := t.sram } := by
  obtain ⟨-, -, ⟨-, rfl⟩ | ⟨-, -, rfl⟩ | ⟨-, -, rfl⟩ | ⟨-, rfl⟩⟩ := portWrite_cases h <;> rfl

/-- A port read stores nothing. -/
theorem portRead_fields {id : FifoId} {n : Nat} {v : Word} {s t : State} (h : portRead id n s = .ok v t) :
    t = { s with fifos := t.fifos, draws := t.draws } := by
  obtain ⟨-, -, ⟨-, -, rfl⟩ | ⟨-, -, -, rfl⟩ | ⟨-, -, -, rfl⟩ | ⟨-, -, rfl⟩⟩ := portRead_cases h <;> rfl

/-- A port access is never a bus error. -/
theorem portWrite_ne_busErr (id : FifoId) (n : Nat) (v : Word) (s : State) : portWrite id n v s ≠ .busErr := by
  unfold portWrite
  dsimp only
  repeat' split
  all_goals exact fun h => by cases h

theorem portRead_ne_busErr (id : FifoId) (n : Nat) (s : State) : portRead id n s ≠ .busErr := by
  unfold portRead
  dsimp only
  repeat' split
  all_goals exact fun h => by cases h

theorem fifoWrite32_frame {id : FifoId} {r : FifoRegister} {v : Word} {s t : State}
    (h : fifoWrite32 id r v s = .ok () t) : DataFrame s t := by
  cases r
  case init => exact fifoInitWrite_frame h
  case ctrl => exact fifoCtrlWrite_frame h
  case dlLen => exact fifoDlLenWrite_frame h
  case port => exact portWrite_frame h
  case afThr | aeThr | stat => cases h; exact DataFrame.setFifo _ _ _ (.inr ⟨rfl, rfl⟩)
  all_goals cases h; exact DataFrame.refl _

theorem fifoRead32_frame {id : FifoId} {r : FifoRegister} {v : Word} {s t : State}
    (h : fifoRead32 id r s = .ok v t) : DataFrame s t := by
  cases r
  case port => exact portRead_frame h
  case stat => cases h; exact DataFrame.draws _ _
  all_goals cases h; exact DataFrame.refl _

theorem fifoWrite32_fields {id : FifoId} {r : FifoRegister} {v : Word} {s t : State}
    (h : fifoWrite32 id r v s = .ok () t) : t = { s with fifos := t.fifos, sram := t.sram } := by
  cases r
  case port => exact portWrite_fields h
  all_goals
    simp only [fifoWrite32, fifoInitWrite, fifoCtrlWrite, fifoAfThrWrite, fifoAeThrWrite, fifoDlLenWrite,
      fifoStatWrite] at h
    repeat' split at h
    all_goals cases h; try rfl

theorem fifoRead32_fields {id : FifoId} {r : FifoRegister} {v : Word} {s t : State} (h : fifoRead32 id r s = .ok v t) :
    t = { s with fifos := t.fifos, draws := t.draws } := by
  cases r
  case port => exact portRead_fields h
  all_goals cases h; rfl

theorem fifoWrite32_ne_busErr (id : FifoId) (r : FifoRegister) (v : Word) (s : State) :
    fifoWrite32 id r v s ≠ .busErr := by
  cases r
  case port => exact portWrite_ne_busErr _ _ _ _
  all_goals
    simp only [fifoWrite32, fifoInitWrite, fifoCtrlWrite, fifoAfThrWrite, fifoAeThrWrite, fifoDlLenWrite, fifoStatWrite]
    repeat' split
    all_goals exact fun h => by cases h

theorem fifoRead32_ne_busErr (id : FifoId) (r : FifoRegister) (s : State) : fifoRead32 id r s ≠ .busErr := by
  cases r
  case port => exact portRead_ne_busErr _ _ _
  all_goals exact fun h => by cases h

end Sys2Proof.Machine
end

