-- ==== Sys2Proof/Laws/Bus.lean ====
section
/-! SUPPORT. Words and bytes, and what an engine access can do: when it is a bus error, its frame, and loads and stores of
RAM byte by byte. -/

namespace Sys2Proof

/-! ### Words and bytes -/

/-- A bit of the value some little-endian bytes stand for. -/
theorem getLsbD_wordOfBytes (bs : List Byte) (i : Nat) (hi : i < 32) :
    (wordOfBytes bs).getLsbD i = (bs[i / 8]?.getD 0#8).getLsbD (i % 8) := by
  change (wordOfLow bs).getLsbD i = _
  induction bs generalizing i with
  | nil => simp [wordOfLow]
  | cons b bs ih =>
    unfold wordOfLow
    simp only [BitVec.getLsbD_or, BitVec.getLsbD_setWidth, BitVec.getLsbD_shiftLeft, hi, decide_true, Bool.true_and]
    by_cases h8 : i < 8
    · have h0 : i / 8 = 0 := by omega
      have hm : i % 8 = i := by omega
      simp [h8, h0, hm]
    · obtain ⟨j, rfl⟩ : ∃ j, i = j + 8 := ⟨i - 8, by omega⟩
      have h1 : (j + 8) / 8 = j / 8 + 1 := by omega
      have h2 : (j + 8) % 8 = j % 8 := by omega
      simp [h1, h2, ih j (by omega)]

/-- A byte of the value some little-endian bytes stand for. -/
theorem byte_wordOfBytes (bs : List Byte) (j : Nat) (hj : j < 4) :
    ((wordOfBytes bs) >>> (8 * j)).setWidth 8 = bs[j]?.getD 0#8 := by
  apply BitVec.eq_of_getLsbD_eq
  intro i hi
  simp only [BitVec.getLsbD_setWidth, BitVec.getLsbD_ushiftRight, hi, decide_true, Bool.true_and]
  rw [getLsbD_wordOfBytes _ _ (by omega)]
  rw [show (8 * j + i) / 8 = j by omega, show (8 * j + i) % 8 = i by omega]

/-- The value of `n` bytes is below `2 ^ (8 * n)`. -/
theorem wordOfBytes_lt (bs : List Byte) : (wordOfBytes bs).toNat < 2 ^ (8 * bs.length) := by
  apply Nat.lt_pow_two_of_testBit
  intro i hi
  rw [BitVec.testBit_toNat]
  by_cases h32 : i < 32
  · rw [getLsbD_wordOfBytes _ _ h32, List.getElem?_eq_none (by omega)]; simp
  · exact BitVec.getLsbD_of_ge _ _ (by omega)

/-- The bytes of a value. -/
theorem getElem?_bytesOfWord (n : Nat) (v : Word) (j : Nat) (hj : j < n) :
    (bytesOfWord n v)[j]? = some ((v >>> (8 * j)).setWidth 8) := by
  change (lowBytes n v)[j]? = _
  simp [lowBytes, hj]

/-- A value read back from its `n` low bytes. -/
theorem wordOfBytes_bytesOfWord (n : Nat) (v : Word) :
    wordOfBytes (bytesOfWord n v) = BitVec.ofNat 32 (v.toNat % 2 ^ (8 * n)) := by
  apply BitVec.eq_of_getLsbD_eq
  intro i hi
  rw [getLsbD_wordOfBytes _ _ hi]
  simp only [BitVec.getLsbD_ofNat, hi, decide_true, Bool.true_and, Nat.testBit_mod_two_pow]
  by_cases h : i < 8 * n
  · rw [getElem?_bytesOfWord _ _ _ (by omega)]
    simp only [Option.getD_some, BitVec.getLsbD_setWidth, BitVec.getLsbD_ushiftRight, h, decide_true, Bool.true_and]
    rw [show 8 * (i / 8) + i % 8 = i by omega]
    simp [BitVec.getLsbD, Nat.mod_lt]
  · rw [List.getElem?_eq_none (by simp; omega)]; simp [h]

namespace Machine

/-! ### Addresses of an access -/

theorem getElem?_byteAddrs (a : Word) (n j : Nat) (hj : j < n) :
    (byteAddrs a n)[j]? = some (a + BitVec.ofNat 32 j).toNat := by
  simp [byteAddrs, hj]

theorem mem_byteAddrs (a : Word) (n x : Nat) : x ∈ byteAddrs a n ↔ ∃ j, j < n ∧ (a + BitVec.ofNat 32 j).toNat = x := by
  simp [byteAddrs]

/-- The addresses of an access are different. -/
theorem byteAddrs_nodup (a : Word) (n : Nat) (hn : n ≤ 2 ^ 32) : (byteAddrs a n).Nodup := by
  unfold byteAddrs
  rw [List.nodup_map_iff_inj_on List.nodup_range]
  intro x hx y hy h
  simp only [List.mem_range] at hx hy
  have h := congrArg (fun z => BitVec.ofNat 32 z - a) h
  simp only [BitVec.ofNat_toNat, BitVec.setWidth_eq] at h
  have h : BitVec.ofNat 32 x = BitVec.ofNat 32 y := by
    have e : ∀ b : Word, a + b - a = b := fun b => by rw [BitVec.add_comm, BitVec.add_sub_cancel]
    rwa [e, e] at h
  have h := congrArg BitVec.toNat h
  simp only [BitVec.toNat_ofNat] at h
  rwa [Nat.mod_eq_of_lt (by omega), Nat.mod_eq_of_lt (by omega)] at h

/-- The places of a unit are different. -/
theorem unitAddrs_nodup (f : FifoChan) (ptr : BitVec 17) : (f.unitAddrs ptr).Nodup := by
  unfold FifoChan.unitAddrs
  rw [List.nodup_map_iff_inj_on List.nodup_range]
  intro x _ y _ h; omega

theorem getElem?_unitAddrs (f : FifoChan) (ptr : BitVec 17) (j : Nat) (hj : j < f.unit) :
    (f.unitAddrs ptr)[j]? = some (f.pbase + ptr.toNat + j) := by
  simp [FifoChan.unitAddrs, hj]

theorem mem_unitAddrs (f : FifoChan) (ptr : BitVec 17) (x : Nat) :
    x ∈ f.unitAddrs ptr ↔ ∃ j, j < f.unit ∧ f.pbase + ptr.toNat + j = x := by
  simp [FifoChan.unitAddrs]

@[simp] theorem unitAddrs_length (f : FifoChan) (ptr : BitVec 17) : (f.unitAddrs ptr).length = f.unit := by
  simp [FifoChan.unitAddrs]

/-! ### Loads and stores -/

/-- The cell written last at an address that no later cell names. -/
theorem readByte_writeCells_zip (addrs : List Nat) (bs : List Byte) (m : Memory) (h : addrs.Nodup) (j a : Nat) (b : Byte)
    (ha : addrs[j]? = some a) (hb : bs[j]? = some b) : (m.writeCells (addrs.zip bs)).readByte a = some b := by
  induction addrs generalizing bs m j with
  | nil => simp at ha
  | cons x addrs ih =>
    cases bs with
    | nil => simp at hb
    | cons y bs =>
      have hx := List.nodup_cons.mp h
      unfold Memory.writeCells
      rw [List.zip_cons_cons, List.foldl_cons]
      cases j with
      | zero =>
        simp only [List.getElem?_cons_zero, Option.some.injEq] at ha hb
        subst ha hb
        have := Memory.readByte_writeCells_of_notMem (addrs.zip bs) (m.writeByte x y) x
          (fun p hp he => hx.1 (he ▸ (List.of_mem_zip hp).1))
        unfold Memory.writeCells at this
        rw [this]; simp
      | succ j =>
        have := ih bs (m.writeByte x y) hx.2 j (by simpa using ha) (by simpa using hb)
        unfold Memory.writeCells at this
        exact this

/-- A stored value's byte `j` stands at the `j`-th address. -/
theorem readByte_store_inside (m : Memory) (addrs : List Nat) (v : Word) (h : addrs.Nodup) (j a : Nat)
    (ha : addrs[j]? = some a) : (m.writeCells (cellsOf addrs v)).readByte a = some ((v >>> (8 * j)).setWidth 8) := by
  have hj : j < addrs.length := by
    by_contra hn; rw [List.getElem?_eq_none (by omega)] at ha; cases ha
  exact readByte_writeCells_zip addrs _ m h j a _ ha (getElem?_bytesOfWord _ _ _ hj)

/-- A loaded value's byte `j` is the one at the `j`-th address, or a draw. -/
theorem byte_loadValue (look : Nat → Option Byte) (addrs : List Nat) (n j a : Nat) (hj : j < 4)
    (ha : addrs[j]? = some a) :
    ((loadValue look addrs n) >>> (8 * j)).setWidth 8 = (look a).getD (Config.draw (n + j)) := by
  unfold loadValue
  rw [byte_wordOfBytes _ _ hj]
  simp [List.getElem?_mapIdx, ha]

theorem loadValue_lt (look : Nat → Option Byte) (addrs : List Nat) (n : Nat) :
    (loadValue look addrs n).toNat < 2 ^ (8 * addrs.length) := by
  have := wordOfBytes_lt (addrs.mapIdx fun k a => (look a).getD (Config.draw (n + k)))
  simpa [loadValue] using this

/-- If every byte is there, no draw is taken. -/
theorem drawsAfter_eq (look : Nat → Option Byte) (addrs : List Nat) (n : Nat) (h : ∀ a ∈ addrs, look a ≠ none) :
    drawsAfter look addrs n = n := by
  unfold drawsAfter
  rw [if_pos]
  rw [List.all_eq_true]
  intro a ha
  exact Option.isSome_iff_ne_none.mpr (h a ha)

/-! ### Engine accesses -/

/-- When an access is a bus error (20_memory.md R100). -/
theorem isBusError_iff (p : Platform) (a : Word) (n : Nat) :
    isBusError p a n = true ↔ a.toNat % n ≠ 0 ∨ ∃ j, j < n ∧
      (p.isProtected (a + BitVec.ofNat 32 j) = true ∨ p.mapped (a + BitVec.ofNat 32 j) = .nothing) := by
  simp [isBusError]

theorem allRam_iff (p : Platform) (a : Word) (n : Nat) :
    allRam p a n = true ↔ ∀ j, j < n → p.mapped (a + BitVec.ofNat 32 j) = .ram := by
  simp [allRam]

/-- An access to a register window is refused, or a port's, or another register's. -/
theorem engineRegister_cases {α : Type} (a : Word) (n : Nat) (port : FifoId → Acc α) (reg : FifoId → FifoRegister → Acc α)
    (s : State) : (∃ r, engineRegister a n port reg s = .refused r) ∨ (∃ id, engineRegister a n port reg s = port id) ∨
      ∃ id r, engineRegister a n port reg s = reg id r := by
  unfold engineRegister
  repeat' split
  all_goals first
    | exact .inl ⟨_, rfl⟩
    | exact .inr (.inl ⟨_, rfl⟩)
    | exact .inr (.inr ⟨_, _, rfl⟩)

theorem engineRead_busErr_iff (a : Word) (n : Nat) (s : State) :
    engineRead a n s = .busErr ↔ isBusError s.cfg a n = true := by
  unfold engineRead
  split
  · simp_all
  · refine ⟨fun h => ?_, fun h => absurd h ‹_›⟩
    split at h
    · cases h
    · obtain ⟨r, e⟩ | ⟨id, e⟩ | ⟨id, r, e⟩ := engineRegister_cases a n (fun id => portRead id n s)
        (fun id r => fifoRead32 id r s) s <;> rw [e] at h
      · cases h
      · exact absurd h (portRead_ne_busErr _ _ _)
      · exact absurd h (fifoRead32_ne_busErr _ _ _)

theorem engineWrite_busErr_iff (a : Word) (n : Nat) (v : Word) (s : State) :
    engineWrite a n v s = .busErr ↔ isBusError s.cfg a n = true := by
  unfold engineWrite
  split
  · simp_all
  · refine ⟨fun h => ?_, fun h => absurd h ‹_›⟩
    split at h
    · cases h
    · obtain ⟨r, e⟩ | ⟨id, e⟩ | ⟨id, r, e⟩ := engineRegister_cases a n (fun id => portWrite id n v s)
        (fun id r => fifoWrite32 id r v s) s <;> rw [e] at h
      · cases h
      · exact absurd h (portWrite_ne_busErr _ _ _ _)
      · exact absurd h (fifoWrite32_ne_busErr _ _ _ _)

theorem engineRead_frame {a : Word} {n : Nat} {v : Word} {s t : State} (h : engineRead a n s = .ok v t) :
    DataFrame s t := by
  unfold engineRead at h
  split at h
  · cases h
  · split at h
    · cases h; exact DataFrame.draws _ _
    · obtain ⟨r, e⟩ | ⟨id, e⟩ | ⟨id, r, e⟩ := engineRegister_cases a n (fun id => portRead id n s)
        (fun id r => fifoRead32 id r s) s <;> rw [e] at h
      · cases h
      · exact portRead_frame h
      · exact fifoRead32_frame h

theorem engineWrite_frame {a : Word} {n : Nat} {v : Word} {s t : State} (h : engineWrite a n v s = .ok () t) :
    DataFrame s t := by
  unfold engineWrite at h
  split at h
  · cases h
  · split at h
    · cases h; exact ⟨rfl, fun hm => Memory.writeCells_wf _ _ hm, fun h => h, fun h => h⟩
    · obtain ⟨r, e⟩ | ⟨id, e⟩ | ⟨id, r, e⟩ := engineRegister_cases a n (fun id => portWrite id n v s)
        (fun id r => fifoWrite32 id r v s) s <;> rw [e] at h
      · cases h
      · exact portWrite_frame h
      · exact fifoWrite32_frame h

/-- An engine read stores nothing: only a FIFO channel's registers and the draw counter can change. -/
theorem engineRead_fields {a : Word} {n : Nat} {v : Word} {s t : State} (h : engineRead a n s = .ok v t) :
    t = { s with fifos := t.fifos, draws := t.draws } := by
  unfold engineRead at h
  split at h
  · cases h
  · split at h
    · cases h; rfl
    · obtain ⟨r, e⟩ | ⟨id, e⟩ | ⟨id, r, e⟩ := engineRegister_cases a n (fun id => portRead id n s)
        (fun id r => fifoRead32 id r s) s <;> rw [e] at h
      · cases h
      · exact portRead_fields h
      · exact fifoRead32_fields h

/-- An engine write takes no draw. -/
theorem engineWrite_fields {a : Word} {n : Nat} {v : Word} {s t : State} (h : engineWrite a n v s = .ok () t) :
    t = { s with mem := t.mem, fifos := t.fifos, sram := t.sram } := by
  unfold engineWrite at h
  split at h
  · cases h
  · split at h
    · cases h; rfl
    · obtain ⟨r, e⟩ | ⟨id, e⟩ | ⟨id, r, e⟩ := engineRegister_cases a n (fun id => portWrite id n v s)
        (fun id r => fifoWrite32 id r v s) s <;> rw [e] at h
      · cases h
      · rw [portWrite_fields h]
      · rw [fifoWrite32_fields h]

/-- An engine read of RAM (20_memory.md R96). -/
theorem engineRead_ram (a : Word) (n : Nat) (s : State) (hb : isBusError s.cfg a n = false) (hr : allRam s.cfg a n = true) :
    engineRead a n s = .ok (loadValue s.mem.readByte (byteAddrs a n) s.draws)
      { s with draws := drawsAfter s.mem.readByte (byteAddrs a n) s.draws } := by
  simp [engineRead, hb, hr]

/-- An engine write of RAM (20_memory.md R97). -/
theorem engineWrite_ram (a : Word) (n : Nat) (v : Word) (s : State) (hb : isBusError s.cfg a n = false)
    (hr : allRam s.cfg a n = true) :
    engineWrite a n v s = .ok () { s with mem := s.mem.writeCells (cellsOf (byteAddrs a n) v) } := by
  simp [engineWrite, hb, hr]

end Machine

end Sys2Proof
end

