-- ==== Sys2Proof/Laws/Cycles.lean ====
section
/-! SUPPORT. What the events, the requests and the parts of a descriptor's cycle can do, one lemma for each shared
operation: the bits after an event, and what a next state of admission, of a unit and of a period end is. -/

namespace Sys2Proof.Machine

/-! ### Events and clean-up -/

@[simp] theorem bitOf_withoutBit_self (x : Word) (c : Chan) : bitOf (withoutBit x c) c = false := by simp

/-- A clean-up of an enabled channel does nothing. -/
theorem cleanUp_enabled {c : Chan} {s : State} (h : bitOf s.en c = true) : cleanUp c s = s := by simp [cleanUp, h]

/-- A clean-up of a disabled channel. -/
theorem cleanUp_disabled {c : Chan} {s : State} (h : bitOf s.en c = false) :
    cleanUp c s = { s with pend := withoutBit s.pend c, run := withoutBit s.run c,
                           progress := s.progress.set c.val Progress.idle } := by
  simp [cleanUp, h]

/-- `raise BusErr(c)`, written out (60_exceptions.md R372). -/
theorem raiseEvent_busErr (c : Chan) (s : State) :
    raiseEvent .busErr c s =
      { s with berr := withBit s.berr c, en := withoutBit s.en c, seq := .idle, pend := withoutBit s.pend c,
               run := withoutBit s.run c, progress := s.progress.set c.val Progress.idle } := by
  simp only [raiseEvent]; rw [cleanUp_disabled]; exact bitOf_withoutBit_self _ _

/-- `raise InvDesc(c)`, written out (60_exceptions.md R373). -/
theorem raiseEvent_invDesc (c : Chan) (s : State) :
    raiseEvent .invDesc c s =
      { s with inv := withBit s.inv c, en := withoutBit s.en c, seq := .idle, pend := withoutBit s.pend c,
               run := withoutBit s.run c, progress := s.progress.set c.val Progress.idle } := by
  simp only [raiseEvent]; rw [cleanUp_disabled]; exact bitOf_withoutBit_self _ _

/-- The progress after one channel's is cleared. -/
theorem rem_of_clear {s t : State} {c : Chan} (h : t.progress = s.progress.set c.val Progress.idle) (d : Chan) (g : Half) :
    t.rem d g = if d = c then none else s.rem d g := by
  unfold State.rem
  by_cases hcd : d = c
  · subst hcd; simp [h]
  · have : c.val ≠ d.val := fun hv => hcd (Fin.ext hv.symm)
    simp [h, this, hcd]

/-- Putting back what is there changes nothing. -/
theorem State.setRem_self (s : State) (c : Chan) (h : Half) : s.setRem c h (s.rem c h) = s := by
  have : (s.progress[c.val]).put h ((s.progress[c.val]).get h) = s.progress[c.val] := by cases h <;> rfl
  unfold State.setRem State.rem; rw [this]; simp

/-! ### The actions at a period end -/

/-- What a continuation or completion action may do for channel `c`: bits of `en`, `pend`, `alt` and `done` of that
channel only, and no enable is set. -/
structure ActionFrame (c : Chan) (s t : State) : Prop where
  eq : t = { s with en := t.en, pend := t.pend, alt := t.alt, done := t.done }
  en_le : ∀ d, bitOf t.en d = true → bitOf s.en d = true
  en : ∀ d, d ≠ c → bitOf t.en d = bitOf s.en d
  pend : ∀ d, d ≠ c → bitOf t.pend d = bitOf s.pend d
  alt : ∀ d, d ≠ c → bitOf t.alt d = bitOf s.alt d
  done : ∀ d, d ≠ c → bitOf t.done d = bitOf s.done d
  done_ge : ∀ d, bitOf s.done d = true → bitOf t.done d = true

theorem ActionFrame.refl (c : Chan) (s : State) : ActionFrame c s s :=
  ⟨rfl, fun _ h => h, fun _ _ => rfl, fun _ _ => rfl, fun _ _ => rfl, fun _ _ => rfl, fun _ h => h⟩

theorem ActionFrame.trans {c : Chan} {s t u : State} (a : ActionFrame c s t) (b : ActionFrame c t u) :
    ActionFrame c s u :=
  ⟨by rw [b.eq, a.eq], fun d h => a.en_le d (b.en_le d h), fun d h => (b.en d h).trans (a.en d h),
    fun d h => (b.pend d h).trans (a.pend d h), fun d h => (b.alt d h).trans (a.alt d h),
    fun d h => (b.done d h).trans (a.done d h), fun d h => b.done_ge d (a.done_ge d h)⟩

theorem selfRequest_frame (c : Chan) (s : State) : ActionFrame c s (selfRequest c s) := by
  unfold selfRequest
  split
  · refine ⟨rfl, fun _ h => h, fun _ _ => rfl, fun d h => ?_, fun _ _ => rfl, fun _ _ => rfl, fun _ h => h⟩
    simp [Ne.symm h]
  · exact ActionFrame.refl c s

theorem setHalf_frame (c : Chan) (h : Half) (s : State) : ActionFrame c s (s.setHalf c h) := by
  cases h
  all_goals
    refine ⟨rfl, fun _ h => h, fun _ _ => rfl, fun _ _ => rfl, fun d h => ?_, fun _ _ => rfl, fun _ h => h⟩
    simp [State.setHalf, Ne.symm h]

theorem raiseDone_frame (c : Chan) (s : State) : ActionFrame c s (raiseEvent .done c s) := by
  refine ⟨rfl, fun _ h => h, fun _ _ => rfl, fun _ _ => rfl, fun _ _ => rfl, fun d h => ?_, fun d h => ?_⟩
  · simp [raiseEvent, Ne.symm h]
  · simp [raiseEvent, h]

theorem completeAndStop_frame (c : Chan) (s : State) : ActionFrame c s (completeAndStop c s) := by
  refine (raiseDone_frame c s).trans
    ⟨rfl, fun d h => ?_, fun d h => ?_, fun _ _ => rfl, fun _ _ => rfl, fun _ _ => rfl, fun _ h => h⟩
  · simp [completeAndStop] at h; exact h.1
  · simp [completeAndStop, Ne.symm h]

theorem completeAndSwitch_frame (c : Chan) (s : State) : ActionFrame c s (completeAndSwitch c s) :=
  (raiseDone_frame c s).trans (setHalf_frame c _ _)

theorem linkTo_frame (h : Half) (c : Chan) (s : State) : ActionFrame c s (linkTo h c s) :=
  (setHalf_frame c h s).trans (selfRequest_frame c _)

/-- Where a request buys one period, the wait for the next is no action. -/
@[simp] theorem awaitRequest_period (c : Chan) (s : State) : awaitRequest .period c s = s := rfl

/-- Where a request buys the cycle, the channel requests itself. -/
@[simp] theorem awaitRequest_cycle (c : Chan) (s : State) : awaitRequest .cycle c s = selfRequest c s := rfl

theorem awaitRequest_frame (buys : RequestBuys) (c : Chan) (s : State) : ActionFrame c s (awaitRequest buys c s) := by
  cases buys
  · exact ActionFrame.refl c s
  · exact selfRequest_frame c s

/-- What both actions of a cycle rule keep. -/
def CycleRule.Framed (rule : CycleRule) : Prop :=
  ∀ c s, ActionFrame c s (rule.continuation c s) ∧ ActionFrame c s (rule.completion c s)

theorem basicRule_framed : basicRule.Framed := fun c s => ⟨awaitRequest_frame _ c s, completeAndStop_frame c s⟩

theorem autoreqRule_framed : autoreqRule.Framed := fun c s => ⟨selfRequest_frame c s, completeAndStop_frame c s⟩

theorem pingpongRule_framed : pingpongRule.Framed := fun c s => ⟨awaitRequest_frame _ c s, completeAndSwitch_frame c s⟩

theorem sgpriRule_framed : sgpriRule.Framed := fun c s => ⟨linkTo_frame _ c s, linkTo_frame _ c s⟩

theorem sgaltRule_framed : sgaltRule.Framed := fun c s => ⟨selfRequest_frame c s, linkTo_frame _ c s⟩

/-! ### The parts of a cycle -/

/-- Admission answers a next state in two ways: the event, or the period begun. -/
theorem admit_cases {rule : CycleRule} {d : Desc} {c : Chan} {h : Half} {w : RawDesc} {s t : State}
    (hx : admission rule d c h w s = .next t) :
    (d.malformed = true ∧ t = raiseEvent .invDesc c s) ∨
    (d.malformed = false ∧ rule.refuse h d = none ∧
      t = (s.setRem c h (some ((s.rem c h).getD d.count))).setSeq
        (.period c h (d.periodLength ((s.rem c h).getD d.count)) w)) := by
  unfold admission at hx
  split at hx
  · cases hx; exact .inl ⟨‹_›, rfl⟩
  · split at hx
    · cases hx
    · cases hx; exact .inr ⟨by simpa using ‹¬d.malformed = true›, ‹_›, rfl⟩

/-- A unit's read answers a next state in two ways: the value held, or the event. -/
theorem unitRead_cases {d : Desc} {c : Chan} {h : Half} {k : Nat} {w : RawDesc} {s t : State}
    (hx : unitRead d c h k w s = .next t) :
    (∃ v u, engineRead (d.srcAddr ((s.rem c h).getD 0)) d.wid.bytes s = .ok v u ∧ DataFrame s u ∧
      t = u.setSeq (.moving c h k w v)) ∨
    (isBusError s.cfg (d.srcAddr ((s.rem c h).getD 0)) d.wid.bytes = true ∧ t = raiseEvent .busErr c s) := by
  unfold unitRead at hx
  split at hx
  · cases hx; exact .inl ⟨_, _, ‹_›, engineRead_frame ‹_›, rfl⟩
  · cases hx; exact .inr ⟨(engineRead_busErr_iff _ _ _).1 ‹_›, rfl⟩
  · cases hx

/-- A unit's write answers a next state in two ways: the unit moved, or the event. -/
theorem unitWrite_cases {rule : CycleRule} {d : Desc} {c : Chan} {h : Half} {k : Nat} {w : RawDesc} {v : Word}
    {s t : State} (hx : unitWrite rule d c h k w v s = .next t) :
    (∃ u, engineWrite (d.dstAddr (rule.dstUnits ((s.rem c h).getD 0))) d.wid.bytes v s = .ok () u ∧ DataFrame s u ∧
      t = (u.setRem c h (some ((s.rem c h).getD 0 - 1))).setSeq (.period c h (k - 1) w)) ∨
    (isBusError s.cfg (d.dstAddr (rule.dstUnits ((s.rem c h).getD 0))) d.wid.bytes = true ∧
      t = raiseEvent .busErr c s) := by
  unfold unitWrite at hx
  dsimp only at hx
  split at hx
  · cases hx; exact .inl ⟨_, ‹_›, engineWrite_frame ‹_›, rfl⟩
  · cases hx; exact .inr ⟨(engineWrite_busErr_iff _ _ _ _).1 ‹_›, rfl⟩
  · cases hx

/-- A period end is the continuation or the completion action, then the clean-up. -/
theorem periodEnd_eq (rule : CycleRule) (c : Chan) (h : Half) (s : State) :
    periodEnd rule c h s =
      if 0 < (s.rem c h).getD 0 then cleanUp c (rule.continuation c (s.setSeq .idle))
      else cleanUp c (rule.completion c ((s.setSeq .idle).setRem c h none)) := by
  unfold periodEnd; dsimp only; rw [State.rem_setSeq]

/-- What a descriptor of the sequencer's hands does at each phase. -/
theorem runDescriptor_fetched {rule : CycleRule} {d : Desc} {s : State} {c : Chan} {h : Half} {w : RawDesc}
    (hs : s.seq = .fetched c h w) : runDescriptor rule d s = admission rule d c h w s := by
  unfold runDescriptor; rw [hs]

theorem runDescriptor_period {rule : CycleRule} {d : Desc} {s : State} {c : Chan} {h : Half} {k : Nat} {w : RawDesc}
    (hs : s.seq = .period c h k w) (hk : k ≠ 0) : runDescriptor rule d s = unitRead d c h k w s := by
  unfold runDescriptor; rw [hs]; simp [hk]

theorem runDescriptor_end {rule : CycleRule} {d : Desc} {s : State} {c : Chan} {h : Half} {w : RawDesc}
    (hs : s.seq = .period c h 0 w) : runDescriptor rule d s = .next (periodEnd rule c h s) := by
  unfold runDescriptor; rw [hs]; simp

theorem runDescriptor_moving {rule : CycleRule} {d : Desc} {s : State} {c : Chan} {h : Half} {k : Nat} {w : RawDesc}
    {v : Word} (hs : s.seq = .moving c h k w v) : runDescriptor rule d s = unitWrite rule d c h k w v s := by
  unfold runDescriptor; rw [hs]

/-- An invalid type's meaning is the event. -/
theorem runInvalid_fetched {s : State} {c : Chan} {h : Half} {w : RawDesc} (hs : s.seq = .fetched c h w) :
    runInvalid s = .next (raiseEvent .invDesc c s) := by
  unfold runInvalid; rw [hs]

/-- When the fields of a descriptor are valid (30_encoding.md R139). -/
theorem malformed_eq_false_iff (d : Desc) :
    d.malformed = false ↔ d.wid ≠ .reserved ∧ d.wid.code ≤ d.sinc.code ∧ d.wid.code ≤ d.dinc.code := by
  unfold Desc.malformed
  cases d.wid <;> cases d.sinc <;> cases d.dinc <;> decide

/-- The instruction three words hold is one of the five moving types, run by its rule, or an invalid type. -/
theorem exec_decodeWords (w0 w1 w2 : Word) (s : State) :
    (∃ d rule, rule.Framed ∧ exec (decodeWords w0 w1 w2) s = runDescriptor rule d s) ∨
    exec (decodeWords w0 w1 w2) s = runInvalid s := by
  unfold decodeWords
  dsimp only
  split
  · exact .inr rfl
  split
  · exact .inl ⟨_, _, basicRule_framed, rfl⟩
  split
  · exact .inl ⟨_, _, autoreqRule_framed, rfl⟩
  split
  · exact .inl ⟨_, _, pingpongRule_framed, rfl⟩
  split
  · exact .inl ⟨_, _, sgpriRule_framed, rfl⟩
  split
  · exact .inl ⟨_, _, sgaltRule_framed, rfl⟩
  split
  · exact .inr rfl
  · exact .inr rfl

end Sys2Proof.Machine
end

