-- ==== Sys2Proof/Laws/Decode.lean ====
section
/-! SUPPORT. The layout: registers at their offsets and addresses, and the fields of a control word that is written. -/

namespace Sys2Proof

/-! ### Registers and addresses -/

theorem dmaRegisterAt?_offset (r : DmaRegister) : dmaRegisterAt? r.offset = some r := by cases r <;> rfl

theorem fifoRegisterAt?_offset (r : FifoRegister) : fifoRegisterAt? r.offset = some r := by cases r <;> rfl

/-- Inside a register there is no register. -/
theorem fifoRegisterAt?_inside (r : FifoRegister) (k : Nat) (h0 : 0 < k) (h4 : k < 4) :
    fifoRegisterAt? (r.offset + k) = none := by
  have h : ∀ k : Fin 3, fifoRegisterAt? (r.offset + (k.val + 1)) = none := by cases r <;> decide
  obtain ⟨j, rfl⟩ : ∃ j, k = j + 1 := ⟨k - 1, by omega⟩
  exact h ⟨j, by omega⟩

theorem DmaRegister.offset_lt (r : DmaRegister) : r.offset + 4 ≤ 64 := by cases r <;> decide

theorem FifoRegister.offset_lt (r : FifoRegister) : r.offset + 4 ≤ 64 := by cases r <;> decide

/-- The offset of a register's address is the register's. -/
theorem dmaOffset?_dmaReg (p : Platform) (r : DmaRegister) : p.dmaOffset? (p.dmaReg r) = some r.offset := by
  have h := r.offset_lt
  unfold Platform.dmaOffset? Platform.dmaReg Config.dmaBlockBytes
  have e : (p.dmaBase + BitVec.ofNat 32 r.offset - p.dmaBase).toNat = r.offset := by
    rw [BitVec.add_comm, BitVec.add_sub_cancel, BitVec.toNat_ofNat]; omega
  simp only [e]
  rw [if_pos (by omega)]

/-- The distance of a FIFO register's address, or of a byte of it, from the start of its block. -/
theorem fifoReg_distance (p : Platform) (id : FifoId) (r : FifoRegister) (k : Nat) (hk : k < 4) :
    (p.fifoReg id r + BitVec.ofNat 32 k - p.fifoBase).toNat = (4 * id.blk.val + id.chan.val) * 64 + r.offset + k := by
  have h := r.offset_lt
  unfold Platform.fifoReg Config.fifoChannels Config.fifoGroupBytes
  have e : ∀ x y z : Word, x + y + z - x = y + z := fun x y z => by
    rw [BitVec.add_assoc, BitVec.add_comm x, BitVec.add_sub_cancel]
  rw [e, BitVec.toNat_add, BitVec.toNat_ofNat, BitVec.toNat_ofNat]
  omega

/-- A byte of a register of an existing FIFO channel: it lies in no register of the DMA block, and in that channel's group
at its offset. -/
theorem fifoOffset?_fifoReg (p : Platform) (id : FifoId) (r : FifoRegister) (k : Nat) (hk : k < 4) (hw : p.wf = true)
    (hb : id.blk.val < p.nblk) :
    p.dmaOffset? (p.fifoReg id r + BitVec.ofNat 32 k) = none ∧
    p.fifoOffset? (p.fifoReg id r + BitVec.ofNat 32 k) = some (id, r.offset + k) ∧
    p.mapped (p.fifoReg id r + BitVec.ofNat 32 k) = .fifoReg := by
  have hd := fifoReg_distance p id r k hk
  have h := r.offset_lt
  unfold Platform.wf at hw
  simp only [Config.dmaBlockBytes, Config.fifoGroupBytes, Config.fifoChannels, Bool.and_eq_true, BitVec.toNat_sub] at hw
  obtain ⟨⟨-, hw1⟩, hw2⟩ := hw
  have hw1 := of_decide_eq_true hw1
  have hw2 := of_decide_eq_true hw2
  have hF := p.fifoBase.isLt
  have hD := p.dmaBase.isLt
  obtain ⟨b, f⟩ := id
  have hf := f.isLt
  have hb3 := b.isLt
  dsimp only at hb hd
  generalize hm : (4 * b.val + f.val) * 64 + r.offset + k = m at hd
  have hin : m < p.nblk * 4 * 64 := by omega
  generalize p.fifoReg ⟨b, f⟩ r + BitVec.ofNat 32 k = a at hd
  have hout : ¬ (a - p.dmaBase).toNat < 64 := by
    have ha := a.isLt
    rw [BitVec.toNat_sub] at hd ⊢
    omega
  refine ⟨?_, ?_, ?_⟩
  · unfold Platform.dmaOffset? Config.dmaBlockBytes
    simp only [hout, if_false]
  · unfold Platform.fifoOffset? Config.fifoGroupBytes Config.fifoChannels
    simp only [hd]
    rw [if_pos hin]
    simp only [Option.some.injEq, Prod.mk.injEq, FifoId.mk.injEq]
    refine ⟨⟨Fin.ext ?_, Fin.ext ?_⟩, by omega⟩
    · simp only [Fin.val_ofNat]; omega
    · simp only [Fin.val_ofNat]; omega
  · unfold Platform.mapped Config.fifoGroupBytes Config.fifoChannels Config.dmaBlockBytes
    rw [if_neg hout, hd, if_pos hin]

/-! ### Fields of a control word -/

/-- A control word, field by field from the top. -/
theorem controlWord_eq (cyc : BitVec 3) (d : Desc) : controlWord cyc d =
    d.dinc.toBits ++ 0#2 ++ d.sinc.toBits ++ d.wid.toBits ++ 0#6 ++ d.rpow ++ d.nm1 ++ 0#1 ++ cyc := by
  apply BitVec.eq_of_getLsbD_eq
  intro i hi
  unfold controlWord Layout.cycPos Layout.nm1Pos Layout.rpowPos Layout.widPos Layout.sincPos Layout.dincPos
  simp only [BitVec.getLsbD_or, BitVec.getLsbD_shiftLeft, BitVec.getLsbD_setWidth, BitVec.getLsbD_append]
  interval_cases i <;> simp

/-- The fields of a control word are read back as they were written. -/
theorem descOfWords_controlWord (cyc : BitVec 3) (d : Desc) :
    descOfWords d.srcEnd d.dstEnd (controlWord cyc d) = d ∧ (controlWord cyc d).extractLsb' Layout.cycPos 3 = cyc := by
  obtain ⟨a, b, n, r, w, si, di⟩ := d
  unfold descOfWords Layout.cycPos Layout.nm1Pos Layout.rpowPos Layout.widPos Layout.sincPos Layout.dincPos
  rw [controlWord_eq]
  dsimp only
  have e1 : (di.toBits ++ 0#2 ++ si.toBits ++ w.toBits ++ 0#6 ++ r ++ n ++ 0#1 ++ cyc).extractLsb' 4 10 = n := by
    apply BitVec.eq_of_getLsbD_eq; intro i hi
    simp only [BitVec.getLsbD_extractLsb', BitVec.getLsbD_append]; interval_cases i <;> simp
  have e2 : (di.toBits ++ 0#2 ++ si.toBits ++ w.toBits ++ 0#6 ++ r ++ n ++ 0#1 ++ cyc).extractLsb' 14 4 = r := by
    apply BitVec.eq_of_getLsbD_eq; intro i hi
    simp only [BitVec.getLsbD_extractLsb', BitVec.getLsbD_append]; interval_cases i <;> simp
  have e3 : (di.toBits ++ 0#2 ++ si.toBits ++ w.toBits ++ 0#6 ++ r ++ n ++ 0#1 ++ cyc).extractLsb' 24 2 = w.toBits := by
    apply BitVec.eq_of_getLsbD_eq; intro i hi
    simp only [BitVec.getLsbD_extractLsb', BitVec.getLsbD_append]; interval_cases i <;> simp
  have e4 : (di.toBits ++ 0#2 ++ si.toBits ++ w.toBits ++ 0#6 ++ r ++ n ++ 0#1 ++ cyc).extractLsb' 26 2 = si.toBits := by
    apply BitVec.eq_of_getLsbD_eq; intro i hi
    simp only [BitVec.getLsbD_extractLsb', BitVec.getLsbD_append]; interval_cases i <;> simp
  have e5 : (di.toBits ++ 0#2 ++ si.toBits ++ w.toBits ++ 0#6 ++ r ++ n ++ 0#1 ++ cyc).extractLsb' 30 2 = di.toBits := by
    apply BitVec.eq_of_getLsbD_eq; intro i hi
    simp only [BitVec.getLsbD_extractLsb', BitVec.getLsbD_append]; interval_cases i <;> simp
  refine ⟨?_, ?_⟩
  · rw [e1, e2, e3, e4, e5]
    cases w <;> cases si <;> cases di <;> rfl
  · apply BitVec.eq_of_getLsbD_eq; intro i hi
    simp only [BitVec.getLsbD_extractLsb', BitVec.getLsbD_append]; interval_cases i <;> simp

end Sys2Proof
end

