-- ==== Sys2Proof/Laws/PerInstr.lean ====
section
/-! SUPPORT. The per-instruction family `TableRow`: every instruction's encoding has the bits its row of
spec/opcode_table.json fixes. -/

namespace Sys2Proof.Laws.TableRow

/-- What the bits of a row are bits of (spec/opcode_table.json, "format" and "space"). -/
inductive RowKind where
  | control
  | dmaOffset
  | fifoOffset
  deriving DecidableEq, Repr

/-- The "format" and "space" of an instruction's row. -/
def rowKind : Instr → RowKind
  | .stop _ => .control
  | .basic _ => .control
  | .autoreq _ => .control
  | .pingpong _ => .control
  | .sgpri _ => .control
  | .sgalt _ => .control
  | .rsvd6 _ => .control
  | .rsvd7 _ => .control
  | .dmaBasePtrW _ => .dmaOffset
  | .dmaBasePtrR => .dmaOffset
  | .dmaAltBasePtrR => .dmaOffset
  | .dmaAltBasePtrW _ => .dmaOffset
  | .dmaEnSetW _ => .dmaOffset
  | .dmaEnSetR => .dmaOffset
  | .dmaEnStatW _ => .dmaOffset
  | .dmaEnStatR => .dmaOffset
  | .dmaSwunmaskSetW _ => .dmaOffset
  | .dmaSwunmaskSetR => .dmaOffset
  | .dmaSwunmaskClrW _ => .dmaOffset
  | .dmaSwunmaskClrR => .dmaOffset
  | .dmaPriSetW _ => .dmaOffset
  | .dmaPriSetR => .dmaOffset
  | .dmaPriClrW _ => .dmaOffset
  | .dmaPriClrR => .dmaOffset
  | .dmaAltSetW _ => .dmaOffset
  | .dmaAltSetR => .dmaOffset
  | .dmaAltClrW _ => .dmaOffset
  | .dmaAltClrR => .dmaOffset
  | .dmaDoneIenSetW _ => .dmaOffset
  | .dmaDoneIenSetR => .dmaOffset
  | .dmaDoneIenClrW _ => .dmaOffset
  | .dmaDoneIenClrR => .dmaOffset
  | .dmaSwreqW _ => .dmaOffset
  | .dmaSwreqR => .dmaOffset
  | .dmaBuserrStatW _ => .dmaOffset
  | .dmaBuserrStatR => .dmaOffset
  | .dmaInvdescStatW _ => .dmaOffset
  | .dmaInvdescStatR => .dmaOffset
  | .dmaDoneStatW _ => .dmaOffset
  | .dmaDoneStatR => .dmaOffset
  | .fifoInitW _ _ => .fifoOffset
  | .fifoInitR _ => .fifoOffset
  | .fifoCtrlW _ _ => .fifoOffset
  | .fifoCtrlR _ => .fifoOffset
  | .fifoAfThrW _ _ => .fifoOffset
  | .fifoAfThrR _ => .fifoOffset
  | .fifoAeThrW _ _ => .fifoOffset
  | .fifoAeThrR _ => .fifoOffset
  | .fifoDlLenW _ _ => .fifoOffset
  | .fifoDlLenR _ => .fifoOffset
  | .fifoRdptrW _ _ => .fifoOffset
  | .fifoRdptrR _ => .fifoOffset
  | .fifoWrptrW _ _ => .fifoOffset
  | .fifoWrptrR _ => .fifoOffset
  | .fifoUsedW _ _ => .fifoOffset
  | .fifoUsedR _ => .fifoOffset
  | .fifoStatW _ _ => .fifoOffset
  | .fifoStatR _ => .fifoOffset
  | .portW16 _ _ => .fifoOffset
  | .portW32 _ _ => .fifoOffset
  | .portR16 _ => .fifoOffset
  | .portR32 _ => .fifoOffset
  | .fifoRsvd28W _ _ => .fifoOffset
  | .fifoRsvd28R _ => .fifoOffset
  | .fifoRsvd2cW _ _ => .fifoOffset
  | .fifoRsvd2cR _ => .fifoOffset
  | .fifoRsvd30W _ _ => .fifoOffset
  | .fifoRsvd30R _ => .fifoOffset
  | .fifoRsvd34W _ _ => .fifoOffset
  | .fifoRsvd34R _ => .fifoOffset
  | .fifoRsvd38W _ _ => .fifoOffset
  | .fifoRsvd38R _ => .fifoOffset
  | .fifoRsvd3cW _ _ => .fifoOffset
  | .fifoRsvd3cR _ => .fifoOffset

/-- The "match" of an instruction's row. -/
def tableMatch : Instr → Nat
  | .stop _ => 0x00
  | .basic _ => 0x01
  | .autoreq _ => 0x02
  | .pingpong _ => 0x03
  | .sgpri _ => 0x04
  | .sgalt _ => 0x05
  | .rsvd6 _ => 0x06
  | .rsvd7 _ => 0x07
  | .dmaBasePtrW _ => 0x00
  | .dmaBasePtrR => 0x00
  | .dmaAltBasePtrR => 0x04
  | .dmaAltBasePtrW _ => 0x04
  | .dmaEnSetW _ => 0x08
  | .dmaEnSetR => 0x08
  | .dmaEnStatW _ => 0x0C
  | .dmaEnStatR => 0x0C
  | .dmaSwunmaskSetW _ => 0x10
  | .dmaSwunmaskSetR => 0x10
  | .dmaSwunmaskClrW _ => 0x14
  | .dmaSwunmaskClrR => 0x14
  | .dmaPriSetW _ => 0x18
  | .dmaPriSetR => 0x18
  | .dmaPriClrW _ => 0x1C
  | .dmaPriClrR => 0x1C
  | .dmaAltSetW _ => 0x20
  | .dmaAltSetR => 0x20
  | .dmaAltClrW _ => 0x24
  | .dmaAltClrR => 0x24
  | .dmaDoneIenSetW _ => 0x28
  | .dmaDoneIenSetR => 0x28
  | .dmaDoneIenClrW _ => 0x2C
  | .dmaDoneIenClrR => 0x2C
  | .dmaSwreqW _ => 0x30
  | .dmaSwreqR => 0x30
  | .dmaBuserrStatW _ => 0x34
  | .dmaBuserrStatR => 0x34
  | .dmaInvdescStatW _ => 0x38
  | .dmaInvdescStatR => 0x38
  | .dmaDoneStatW _ => 0x3C
  | .dmaDoneStatR => 0x3C
  | .fifoInitW _ _ => 0x00
  | .fifoInitR _ => 0x00
  | .fifoCtrlW _ _ => 0x04
  | .fifoCtrlR _ => 0x04
  | .fifoAfThrW _ _ => 0x08
  | .fifoAfThrR _ => 0x08
  | .fifoAeThrW _ _ => 0x0C
  | .fifoAeThrR _ => 0x0C
  | .fifoDlLenW _ _ => 0x10
  | .fifoDlLenR _ => 0x10
  | .fifoRdptrW _ _ => 0x14
  | .fifoRdptrR _ => 0x14
  | .fifoWrptrW _ _ => 0x18
  | .fifoWrptrR _ => 0x18
  | .fifoUsedW _ _ => 0x1C
  | .fifoUsedR _ => 0x1C
  | .fifoStatW _ _ => 0x20
  | .fifoStatR _ => 0x20
  | .portW16 _ _ => 0x24
  | .portW32 _ _ => 0x24
  | .portR16 _ => 0x24
  | .portR32 _ => 0x24
  | .fifoRsvd28W _ _ => 0x28
  | .fifoRsvd28R _ => 0x28
  | .fifoRsvd2cW _ _ => 0x2C
  | .fifoRsvd2cR _ => 0x2C
  | .fifoRsvd30W _ _ => 0x30
  | .fifoRsvd30R _ => 0x30
  | .fifoRsvd34W _ _ => 0x34
  | .fifoRsvd34R _ => 0x34
  | .fifoRsvd38W _ _ => 0x38
  | .fifoRsvd38R _ => 0x38
  | .fifoRsvd3cW _ _ => 0x3C
  | .fifoRsvd3cR _ => 0x3C

/-- The address of a host access; `FENCE` has none. -/
def opAddr : HostOp → Option Word
  | .rd32 a => some a
  | .wr32 a _ => some a
  | .rd16 a => some a
  | .wr16 a _ => some a
  | .fence => none

/-- The bits of a code that a row of a kind fixes: control[2:0], or the offset in the register block or group. -/
def rowBits (p : Platform) (k : RowKind) (c : Code) : Option Nat :=
  match k, c with
  | .control, .desc bytes => some ((wordOfBytes ((bytes.drop 8).take 4)).toNat % 8)
  | .dmaOffset, .access op => (opAddr op).map fun a => (a - p.dmaBase).toNat
  | .fifoOffset, .access op => (opAddr op).map fun a => (a - p.fifoBase).toNat % 64
  | _, _ => none

/-- An instruction's encoding has the bits its row fixes. -/
def Statement (i : Instr) : Prop := ∀ p : Platform, rowBits p (rowKind i) (encode p i) = some (tableMatch i)

/-- The bytes of a descriptor hold its control word in bytes 8 to 11. -/
theorem control_of_encodeDesc (cyc : BitVec 3) (d : Desc) :
    wordOfBytes ((((wordsOfDesc cyc d).flatMap (bytesOfWord Config.wordBytes)).drop 8).take 4) = controlWord cyc d := by
  change wordOfLow (((([d.srcEnd, d.dstEnd, controlWord cyc d, 0#32]).flatMap (lowBytes 4)).drop 8).take 4) = _
  simp only [lowBytes, List.range, List.range.loop, List.map, List.flatMap_cons, List.flatMap_nil, List.cons_append,
    List.nil_append, List.drop, List.take, wordOfLow]
  generalize controlWord cyc d = w
  apply BitVec.eq_of_getLsbD_eq
  intro i hi
  simp only [BitVec.getLsbD_or, BitVec.getLsbD_setWidth, BitVec.getLsbD_shiftLeft, BitVec.getLsbD_ushiftRight]
  rcases (by omega : i < 8 ∨ (8 ≤ i ∧ i < 16) ∨ (16 ≤ i ∧ i < 24) ∨ (24 ≤ i ∧ i < 32)) with h | h | h | h
  all_goals
    obtain ⟨j, rfl⟩ : ∃ j, i = j := ⟨i, rfl⟩
    interval_cases i <;> simp

/-- The cycle type is the low bits of the control word. -/
theorem controlWord_mod (cyc : BitVec 3) (d : Desc) : (controlWord cyc d).toNat % 8 = cyc.toNat := by
  have h : (controlWord cyc d).toNat % 8 = ((controlWord cyc d).setWidth 3).toNat := by simp
  rw [h]
  congr 1
  apply BitVec.eq_of_getLsbD_eq
  intro i hi
  simp only [controlWord, BitVec.getLsbD_setWidth, BitVec.getLsbD_or, BitVec.getLsbD_shiftLeft]
  interval_cases i <;> simp [Layout.cycPos, Layout.nm1Pos, Layout.rpowPos, Layout.widPos, Layout.sincPos, Layout.dincPos]

theorem desc_row (cyc : BitVec 3) (d : Desc) (p : Platform) :
    rowBits p .control (encodeDesc cyc d) = some cyc.toNat := by
  simp only [rowBits, encodeDesc, control_of_encodeDesc, controlWord_mod]

theorem dma_row (p : Platform) (r : DmaRegister) : (p.dmaReg r - p.dmaBase).toNat = r.offset := by
  unfold Platform.dmaReg
  rw [BitVec.add_comm, BitVec.add_sub_cancel]
  cases r <;> rfl

theorem fifo_row (p : Platform) (id : FifoId) (r : FifoRegister) :
    (p.fifoReg id r - p.fifoBase).toNat % 64 = r.offset := by
  have h : r.offset < 64 := by cases r <;> decide
  unfold Platform.fifoReg
  obtain ⟨⟨b, hb⟩, ⟨f, hf⟩⟩ := id
  rw [show ∀ x y : Word, x + y - x = y by intro x y; rw [BitVec.add_comm, BitVec.add_sub_cancel]]
  simp only [BitVec.toNat_ofNat, Config.fifoGroupBytes, Config.fifoChannels]
  omega

theorem stop (d : Desc) : Statement (.stop d) :=
  fun p => desc_row _ d p

theorem basic (d : Desc) : Statement (.basic d) :=
  fun p => desc_row _ d p

theorem autoreq (d : Desc) : Statement (.autoreq d) :=
  fun p => desc_row _ d p

theorem pingpong (d : Desc) : Statement (.pingpong d) :=
  fun p => desc_row _ d p

theorem sgpri (d : Desc) : Statement (.sgpri d) :=
  fun p => desc_row _ d p

theorem sgalt (d : Desc) : Statement (.sgalt d) :=
  fun p => desc_row _ d p

theorem rsvd6 (d : Desc) : Statement (.rsvd6 d) :=
  fun p => desc_row _ d p

theorem rsvd7 (d : Desc) : Statement (.rsvd7 d) :=
  fun p => desc_row _ d p

theorem dmaBasePtrW (v : Word) : Statement (.dmaBasePtrW v) :=
  fun p => congrArg some (dma_row p _)

theorem dmaBasePtrR : Statement .dmaBasePtrR :=
  fun p => congrArg some (dma_row p _)

theorem dmaAltBasePtrR : Statement .dmaAltBasePtrR :=
  fun p => congrArg some (dma_row p _)

theorem dmaAltBasePtrW (v : Word) : Statement (.dmaAltBasePtrW v) :=
  fun p => congrArg some (dma_row p _)

theorem dmaEnSetW (v : Word) : Statement (.dmaEnSetW v) :=
  fun p => congrArg some (dma_row p _)

theorem dmaEnSetR : Statement .dmaEnSetR :=
  fun p => congrArg some (dma_row p _)

theorem dmaEnStatW (v : Word) : Statement (.dmaEnStatW v) :=
  fun p => congrArg some (dma_row p _)

theorem dmaEnStatR : Statement .dmaEnStatR :=
  fun p => congrArg some (dma_row p _)

theorem dmaSwunmaskSetW (v : Word) : Statement (.dmaSwunmaskSetW v) :=
  fun p => congrArg some (dma_row p _)

theorem dmaSwunmaskSetR : Statement .dmaSwunmaskSetR :=
  fun p => congrArg some (dma_row p _)

theorem dmaSwunmaskClrW (v : Word) : Statement (.dmaSwunmaskClrW v) :=
  fun p => congrArg some (dma_row p _)

theorem dmaSwunmaskClrR : Statement .dmaSwunmaskClrR :=
  fun p => congrArg some (dma_row p _)

theorem dmaPriSetW (v : Word) : Statement (.dmaPriSetW v) :=
  fun p => congrArg some (dma_row p _)

theorem dmaPriSetR : Statement .dmaPriSetR :=
  fun p => congrArg some (dma_row p _)

theorem dmaPriClrW (v : Word) : Statement (.dmaPriClrW v) :=
  fun p => congrArg some (dma_row p _)

theorem dmaPriClrR : Statement .dmaPriClrR :=
  fun p => congrArg some (dma_row p _)

theorem dmaAltSetW (v : Word) : Statement (.dmaAltSetW v) :=
  fun p => congrArg some (dma_row p _)

theorem dmaAltSetR : Statement .dmaAltSetR :=
  fun p => congrArg some (dma_row p _)

theorem dmaAltClrW (v : Word) : Statement (.dmaAltClrW v) :=
  fun p => congrArg some (dma_row p _)

theorem dmaAltClrR : Statement .dmaAltClrR :=
  fun p => congrArg some (dma_row p _)

theorem dmaDoneIenSetW (v : Word) : Statement (.dmaDoneIenSetW v) :=
  fun p => congrArg some (dma_row p _)

theorem dmaDoneIenSetR : Statement .dmaDoneIenSetR :=
  fun p => congrArg some (dma_row p _)

theorem dmaDoneIenClrW (v : Word) : Statement (.dmaDoneIenClrW v) :=
  fun p => congrArg some (dma_row p _)

theorem dmaDoneIenClrR : Statement .dmaDoneIenClrR :=
  fun p => congrArg some (dma_row p _)

theorem dmaSwreqW (v : Word) : Statement (.dmaSwreqW v) :=
  fun p => congrArg some (dma_row p _)

theorem dmaSwreqR : Statement .dmaSwreqR :=
  fun p => congrArg some (dma_row p _)

theorem dmaBuserrStatW (v : Word) : Statement (.dmaBuserrStatW v) :=
  fun p => congrArg some (dma_row p _)

theorem dmaBuserrStatR : Statement .dmaBuserrStatR :=
  fun p => congrArg some (dma_row p _)

theorem dmaInvdescStatW (v : Word) : Statement (.dmaInvdescStatW v) :=
  fun p => congrArg some (dma_row p _)

theorem dmaInvdescStatR : Statement .dmaInvdescStatR :=
  fun p => congrArg some (dma_row p _)

theorem dmaDoneStatW (v : Word) : Statement (.dmaDoneStatW v) :=
  fun p => congrArg some (dma_row p _)

theorem dmaDoneStatR : Statement .dmaDoneStatR :=
  fun p => congrArg some (dma_row p _)

theorem fifoInitW (id : FifoId) (v : Word) : Statement (.fifoInitW id v) :=
  fun p => congrArg some (fifo_row p id _)

theorem fifoInitR (id : FifoId) : Statement (.fifoInitR id) :=
  fun p => congrArg some (fifo_row p id _)

theorem fifoCtrlW (id : FifoId) (v : Word) : Statement (.fifoCtrlW id v) :=
  fun p => congrArg some (fifo_row p id _)

theorem fifoCtrlR (id : FifoId) : Statement (.fifoCtrlR id) :=
  fun p => congrArg some (fifo_row p id _)

theorem fifoAfThrW (id : FifoId) (v : Word) : Statement (.fifoAfThrW id v) :=
  fun p => congrArg some (fifo_row p id _)

theorem fifoAfThrR (id : FifoId) : Statement (.fifoAfThrR id) :=
  fun p => congrArg some (fifo_row p id _)

theorem fifoAeThrW (id : FifoId) (v : Word) : Statement (.fifoAeThrW id v) :=
  fun p => congrArg some (fifo_row p id _)

theorem fifoAeThrR (id : FifoId) : Statement (.fifoAeThrR id) :=
  fun p => congrArg some (fifo_row p id _)

theorem fifoDlLenW (id : FifoId) (v : Word) : Statement (.fifoDlLenW id v) :=
  fun p => congrArg some (fifo_row p id _)

theorem fifoDlLenR (id : FifoId) : Statement (.fifoDlLenR id) :=
  fun p => congrArg some (fifo_row p id _)

theorem fifoRdptrW (id : FifoId) (v : Word) : Statement (.fifoRdptrW id v) :=
  fun p => congrArg some (fifo_row p id _)

theorem fifoRdptrR (id : FifoId) : Statement (.fifoRdptrR id) :=
  fun p => congrArg some (fifo_row p id _)

theorem fifoWrptrW (id : FifoId) (v : Word) : Statement (.fifoWrptrW id v) :=
  fun p => congrArg some (fifo_row p id _)

theorem fifoWrptrR (id : FifoId) : Statement (.fifoWrptrR id) :=
  fun p => congrArg some (fifo_row p id _)

theorem fifoUsedW (id : FifoId) (v : Word) : Statement (.fifoUsedW id v) :=
  fun p => congrArg some (fifo_row p id _)

theorem fifoUsedR (id : FifoId) : Statement (.fifoUsedR id) :=
  fun p => congrArg some (fifo_row p id _)

theorem fifoStatW (id : FifoId) (v : Word) : Statement (.fifoStatW id v) :=
  fun p => congrArg some (fifo_row p id _)

theorem fifoStatR (id : FifoId) : Statement (.fifoStatR id) :=
  fun p => congrArg some (fifo_row p id _)

theorem portW16 (id : FifoId) (v : Half16) : Statement (.portW16 id v) :=
  fun p => congrArg some (fifo_row p id _)

theorem portW32 (id : FifoId) (v : Word) : Statement (.portW32 id v) :=
  fun p => congrArg some (fifo_row p id _)

theorem portR16 (id : FifoId) : Statement (.portR16 id) :=
  fun p => congrArg some (fifo_row p id _)

theorem portR32 (id : FifoId) : Statement (.portR32 id) :=
  fun p => congrArg some (fifo_row p id _)

theorem fifoRsvd28W (id : FifoId) (v : Word) : Statement (.fifoRsvd28W id v) :=
  fun p => congrArg some (fifo_row p id _)

theorem fifoRsvd28R (id : FifoId) : Statement (.fifoRsvd28R id) :=
  fun p => congrArg some (fifo_row p id _)

theorem fifoRsvd2cW (id : FifoId) (v : Word) : Statement (.fifoRsvd2cW id v) :=
  fun p => congrArg some (fifo_row p id _)

theorem fifoRsvd2cR (id : FifoId) : Statement (.fifoRsvd2cR id) :=
  fun p => congrArg some (fifo_row p id _)

theorem fifoRsvd30W (id : FifoId) (v : Word) : Statement (.fifoRsvd30W id v) :=
  fun p => congrArg some (fifo_row p id _)

theorem fifoRsvd30R (id : FifoId) : Statement (.fifoRsvd30R id) :=
  fun p => congrArg some (fifo_row p id _)

theorem fifoRsvd34W (id : FifoId) (v : Word) : Statement (.fifoRsvd34W id v) :=
  fun p => congrArg some (fifo_row p id _)

theorem fifoRsvd34R (id : FifoId) : Statement (.fifoRsvd34R id) :=
  fun p => congrArg some (fifo_row p id _)

theorem fifoRsvd38W (id : FifoId) (v : Word) : Statement (.fifoRsvd38W id v) :=
  fun p => congrArg some (fifo_row p id _)

theorem fifoRsvd38R (id : FifoId) : Statement (.fifoRsvd38R id) :=
  fun p => congrArg some (fifo_row p id _)

theorem fifoRsvd3cW (id : FifoId) (v : Word) : Statement (.fifoRsvd3cW id v) :=
  fun p => congrArg some (fifo_row p id _)

theorem fifoRsvd3cR (id : FifoId) : Statement (.fifoRsvd3cR id) :=
  fun p => congrArg some (fifo_row p id _)

end Sys2Proof.Laws.TableRow
end

