-- ==== Sys2Proof/Laws/Turns.lean ====
section
/-! SUPPORT. What a turn can do: the sequencer's phases, the grant, the fetch, the host's accesses and the other agents'
turns, one lemma for each. -/

namespace Sys2Proof.Machine

/-! ### One step -/

/-- The sequencer's turn, by name. -/
theorem step_seq {s : State} {rest : List Turn} (h : s.agenda = .seq :: rest) :
    step s = seqTurn { s with agenda := rest } := by
  unfold step; rw [h]; rfl

/-- The sequencer's turn, on an empty agenda. -/
theorem step_empty {s : State} (h : s.agenda = []) : step s = seqTurn s := by
  unfold step; rw [h]

/-- Any turn. -/
theorem step_turn {s : State} {t : Turn} {rest : List Turn} (h : s.agenda = t :: rest) :
    step s = runTurn t { s with agenda := rest } := by
  unfold step; rw [h]

/-! ### The sequencer -/

/-- The addresses of the three words the fetch reads. -/
@[simp] theorem descWordAddr_src (a : Word) : descWordAddr a Layout.srcWord = a := BitVec.add_zero a

@[simp] theorem descWordAddr_dst (a : Word) : descWordAddr a Layout.dstWord = a + 4#32 := rfl

@[simp] theorem descWordAddr_control (a : Word) : descWordAddr a Layout.controlWord = a + 8#32 := rfl

/-- A read of the fetch goes on with the value, or ends the grant with the event. -/
theorem fetchRead_cases {c : Chan} {a : Word} {go : Word → State → Host.Outcome State Fault Refusal} {s t : State}
    (hx : fetchRead c a go s = .next t) :
    (∃ v u, engineRead a 4 s = .ok v u ∧ DataFrame s u ∧ go v u = .next t) ∨
    (isBusError s.cfg a 4 = true ∧ t = raiseEvent .busErr c s) := by
  unfold fetchRead at hx
  split at hx
  · exact .inl ⟨_, _, ‹_›, engineRead_frame ‹_›, hx⟩
  · cases hx; exact .inr ⟨(engineRead_busErr_iff _ _ _).1 ‹_›, rfl⟩
  · cases hx

theorem mem_candidates {s : State} {c : Chan} :
    c ∈ candidates s ↔ c.val < s.cfg.ch ∧ bitOf s.en c = true ∧ bitOf s.pend c = true := by
  simp [candidates, and_assoc]

/-- A contender is a candidate, of high priority if any candidate is. -/
theorem mem_contenders {s : State} {c : Chan} :
    c ∈ contenders s ↔ c ∈ candidates s ∧ ((∃ d ∈ candidates s, bitOf s.pri d = true) → bitOf s.pri c = true) := by
  unfold contenders
  dsimp only
  split
  · next h =>
    have h : ∀ d ∈ candidates s, ¬bitOf s.pri d = true := by simpa [List.filter_eq_nil_iff] using h
    exact ⟨fun hc => ⟨hc, fun ⟨d, hd, hp⟩ => absurd hp (h d hd)⟩, fun hc => hc.1⟩
  · next h =>
    have h : ∃ d ∈ candidates s, bitOf s.pri d = true := by
      by_contra hn
      apply h
      simp only [List.isEmpty_iff, List.filter_eq_nil_iff]
      exact fun d hd hp => hn ⟨d, hd, hp⟩
    rw [List.mem_filter]
    exact ⟨fun hc => ⟨hc.1, fun _ => hc.2⟩, fun hc => ⟨hc.1, hc.2 h⟩⟩

/-- What arbitration chooses is a contender. -/
theorem arbitrate_mem {s : State} {c : Chan} (h : arbitrate s = some c) : c ∈ contenders s := by
  unfold arbitrate at h
  dsimp only at h
  split at h
  · exact List.mem_of_head? h
  · exact List.mem_of_getElem? h

/-- The sequencer at rest grants. -/
theorem seqTurn_idle {s : State} (h : s.seq = .idle) : seqTurn s = grant s := by unfold seqTurn; rw [h]

theorem grant_none {s : State} (h : arbitrate s = none) : grant s = .next s := by unfold grant; rw [h]

/-- A grant: the request is taken, and word 0 of the live slot is read. -/
theorem grant_some {s : State} {c : Chan} (h : arbitrate s = some c) :
    grant s = fetchRead c (s.slot c (s.half c))
      (fun w0 t => .next (t.setSeq (.fetch1 c (s.half c) (s.slot c (s.half c)) w0))) (granted c s) := by
  unfold grant; rw [h]
  dsimp only
  rw [descWordAddr_src]
  rfl

theorem seqTurn_fetch1 {s : State} {c : Chan} {h : Half} {a w0 : Word} (hs : s.seq = .fetch1 c h a w0) :
    seqTurn s = fetchRead c (a + 4#32) (fun w1 t => .next (t.setSeq (.fetch2 c h a w0 w1))) s := by
  unfold seqTurn; rw [hs]; rfl

theorem seqTurn_fetch2 {s : State} {c : Chan} {h : Half} {a w0 w1 : Word} (hs : s.seq = .fetch2 c h a w0 w1) :
    seqTurn s = fetchRead c (a + 8#32)
      (fun w2 t => exec (decodeWords w0 w1 w2) (t.setSeq (.fetched c h ⟨w0, w1, w2⟩))) s := by
  unfold seqTurn; rw [hs]; rfl

theorem seqTurn_period {s : State} {c : Chan} {h : Half} {k : Nat} {d : RawDesc} (hs : s.seq = .period c h k d) :
    seqTurn s = exec (decodeWords d.w0 d.w1 d.w2) s := by
  unfold seqTurn; rw [hs]

theorem seqTurn_moving {s : State} {c : Chan} {h : Half} {k : Nat} {d : RawDesc} {v : Word}
    (hs : s.seq = .moving c h k d v) : seqTurn s = exec (decodeWords d.w0 d.w1 d.w2) s := by
  unfold seqTurn; rw [hs]

/-! ### The host -/

/-- A host access to a register is the decoded instruction. -/
theorem hostAccess_register {a : Word} {op : HostOp} {ram : Host.Outcome State Fault Refusal} {s : State} {i : Instr}
    (hm : s.cfg.mapped a = .dmaReg ∨ s.cfg.mapped a = .fifoReg) (hd : decodeAccess s.cfg op = .ok i) :
    hostAccess a op ram s = exec i s := by
  unfold hostAccess
  rcases hm with hm | hm <;> rw [hm] <;> simp only [hd]

/-- A host access elsewhere is the RAM access. -/
theorem hostAccess_ram {a : Word} {op : HostOp} {ram : Host.Outcome State Fault Refusal} {s : State}
    (hm : s.cfg.mapped a = .ram ∨ s.cfg.mapped a = .nothing) : hostAccess a op ram s = ram := by
  unfold hostAccess
  rcases hm with hm | hm <;> rw [hm]

/-- An address with an offset in the DMA block is mapped to it. -/
theorem mapped_of_dmaOffset {p : Platform} {a : Word} {off : Nat} (h : p.dmaOffset? a = some off) :
    p.mapped a = .dmaReg := by
  unfold Platform.dmaOffset? at h
  dsimp only at h
  split at h
  · unfold Platform.mapped; rw [if_pos ‹_›]
  · cases h

/-- An address with an offset in the FIFO block is mapped to a register. -/
theorem mapped_of_fifoOffset {p : Platform} {a : Word} {x : FifoId × Nat} (h : p.fifoOffset? a = some x) :
    p.mapped a = .dmaReg ∨ p.mapped a = .fifoReg := by
  unfold Platform.fifoOffset? at h
  dsimp only at h
  split at h
  · next hlt =>
    unfold Platform.mapped; simp only [if_pos hlt]
    split
    · exact .inl rfl
    · exact .inr rfl
  · cases h

/-- A host read of RAM answers a next state in one way. -/
theorem hostRamRead_cases {a : Word} {n : Nat} {s t : State} (h : hostRamRead a n s = .next t) :
    allRam s.cfg a n = true ∧
      t = { s with hostData := loadValue s.hostByte (byteAddrs a n) s.draws,
                   draws := drawsAfter s.hostByte (byteAddrs a n) s.draws } := by
  unfold hostRamRead at h
  split at h
  · cases h; exact ⟨‹_›, rfl⟩
  · cases h

/-- A host write of RAM answers a next state in one way. -/
theorem hostRamWrite_cases {a : Word} {n : Nat} {v : Word} {s t : State} (h : hostRamWrite a n v s = .next t) :
    allRam s.cfg a n = true ∧ t = { s with pending := s.pending ++ [cellsOf (byteAddrs a n) v] } := by
  unfold hostRamWrite at h
  split at h
  · cases h; exact ⟨‹_›, rfl⟩
  · cases h

/-- A drain moves one pending write to memory, or does nothing. -/
theorem drainWrite_cases (i : Nat) (s : State) :
    (∃ x rest, takePending s.pending i = some (x, rest) ∧
      drainWrite i s = { s with mem := s.mem.writeCells x, pending := rest }) ∨
    (takePending s.pending i = none ∧ drainWrite i s = s) := by
  unfold drainWrite
  split
  · exact .inl ⟨_, _, ‹_›, rfl⟩
  · exact .inr ⟨‹_›, rfl⟩

/-- Two writes touch no common address. -/
theorem overlaps_eq_false_iff (x y : List Host.Cell) : overlaps x y = false ↔ ∀ p ∈ x, ∀ q ∈ y, p.1 ≠ q.1 := by
  unfold overlaps
  rw [List.any_eq_false]
  refine forall₂_congr fun p _ => ?_
  rw [List.any_eq_true]
  push Not
  simp

/-- A drain keeps the canonical form of memory. -/
theorem drainWrite_memory (i : Nat) (s : State) (h : s.mem.wf = true) : (drainWrite i s).mem.wf = true := by
  rcases drainWrite_cases i s with ⟨x, rest, -, e⟩ | ⟨-, e⟩ <;> rw [e]
  · exact Memory.writeCells_wf _ _ h
  · exact h

end Sys2Proof.Machine
end

