-- ==== Sys2Proof/Tests/Slice0.lean ====
section
/-! SUPPORT. The model's own tests. Expected values are those of spec/95_test_vectors.md (its numbers B1, G1, X1, F1, ... are
cited) or worked out by hand from the rule cited. Below them, for each statement with hypotheses, states and operands that
meet them. -/

open Sys2Proof Sys2Proof.Machine Sys2Proof.Spec

namespace Sys2Proof.Tests

/-! ### Helpers -/

/-- Something of the next state, if there is one. -/
def got {α : Type} (o : Host.Outcome State Fault Refusal) (f : State → α) : Option α :=
  match o with
  | .next s => some (f s)
  | .fault _ => none
  | .refused _ => none

/-- Why there is no next state. -/
def why (o : Host.Outcome State Fault Refusal) : Option Refusal :=
  match o with
  | .refused r => some r
  | .next _ => none
  | .fault _ => none

/-- Channel 3 enabled and running, software-triggered, the table at 0x20001000 (95_test_vectors.md, example parameters). -/
def chan3 : State :=
  { State.reset with base := 0x20001000#32, inited := true, en := 8#32, swun := 8#32, run := 8#32 }

/-- The descriptor B1: 8 words from 0x20000000 to 0x20000100, `BASIC`, 4 units a period. -/
def rawB1 : RawDesc := ⟨0x2000001F#32, 0x2000011F#32, 0x8A008071#32⟩

/-- Its fields. -/
def descB1 : Desc := ⟨0x2000001F#32, 0x2000011F#32, 7#10, 2#4, .byte4, .inc4, .inc4⟩

/-- The message of program P3: 12 words from 0x20004000 to the alternate slot of channel 0. -/
def descMsg : Desc := ⟨0x2000402F#32, 0x2000120F#32, 11#10, 2#4, .byte4, .inc4, .inc4⟩

/-- Channel 3 with its descriptor fetched on a half. -/
def fetchedOn (h : Half) (w : RawDesc) : State := { chan3 with seq := .fetched 3 h w }

/-- Channel 3 in a period of `k` units with `r` left. -/
def inPeriod (h : Half) (k r : Nat) : State := { chan3 with seq := .period 3 h k rawB1 }.setRem 3 h (some r)

/-- The same with a unit's value read. -/
def midUnit (h : Half) (k r : Nat) (v : Word) : State := { chan3 with seq := .moving 3 h k rawB1 v }.setRem 3 h (some r)

/-- The word 0x11110000 at 0x20000000. -/
def sourceWord : Memory := [(0x20000000, 0#8), (0x20000001, 0#8), (0x20000002, 0x11#8), (0x20000003, 0x11#8)]

/-- FIFO channel (2, 0) of 95_test_vectors.md 2.4: 8 sections, 32-bit, FIFO mode, thresholds 6 and 1. -/
def fifo8 : FifoChan :=
  { FifoChan.reset with lenm1 := 7#16, w32 := true, fen := true, afthr := 6#16, aethr := 1#16 }

/-- FIFO channel (1, 2) of F18: 4 sections at section 16, 16-bit, FIFO mode. -/
def fifo16 : FifoChan := { FifoChan.reset with boff := 16#8, lenm1 := 3#16, fen := true }

/-- The reset state with registers for FIFO channel (2, 0). -/
def fifoAt (f : FifoChan) : State := State.reset.setFifo ⟨2, 0⟩ f

/-! ### WellFormed: each check has a term it refuses -/

/-- A FIFO instruction of a block the platform does not have (00_scope.md R10). -/
theorem test_wf_refuses_absent_block :
    (Instr.fifoUsedR ⟨2, 0⟩).wf { Platform.sample with nblk := 2 } = false := by decide

theorem test_wf_accepts_present_block : (Instr.fifoUsedR ⟨2, 0⟩).wf Platform.sample = true := by decide

/-- `CH` = 0, `NBLK` = 4, an unaligned base and overlapping blocks are no platforms (00_scope.md R9, R10). -/
theorem test_wf_refuses_platforms :
    { Platform.sample with ch := 0 }.wf = false ∧ { Platform.sample with ch := 33 }.wf = false ∧
    { Platform.sample with nblk := 4 }.wf = false ∧ { Platform.sample with dmaBase := 0x40001002#32 }.wf = false ∧
    { Platform.sample with fifoBase := 0x40002002#32 }.wf = false ∧
    { Platform.sample with dmaBase := 0x40002040#32 }.wf = false ∧
    { Platform.sample with dmaBase := 0x40001FE0#32 }.wf = false ∧ Platform.sample.wf = true := by decide

/-! ### Decoding: a word written out from the spec's encoding for every constructor -/

/-- The eight cycle types (30_encoding.md R134), the other fields as in B1 (95_test_vectors.md 2.1). -/
theorem test_decode_descriptors :
    [0x8A008070#32, 0x8A008071#32, 0x8A008072#32, 0x8A008073#32, 0x8A008074#32, 0x8A008075#32, 0x8A008076#32,
     0x8A008077#32].map (decodeWords 0x2000001F#32 0x2000011F#32) =
    [.stop descB1, .basic descB1, .autoreq descB1, .pingpong descB1, .sgpri descB1, .sgalt descB1, .rsvd6 descB1,
     .rsvd7 descB1] := by decide

/-- B4 and B10: the control words 0x4D008021 and 0xCA0281F1 (95_test_vectors.md 2.1). -/
theorem test_decode_fields :
    descOfWords 0#32 0#32 0x4D008021#32 = ⟨0#32, 0#32, 2#10, 2#4, .byte2, .stay, .inc2⟩ ∧
    descOfWords 0#32 0#32 0xCA0281F1#32 = ⟨0#32, 0#32, 31#10, 10#4, .byte4, .inc4, .stay⟩ := by decide

/-- The 16 bytes of B1, little-endian (30_encoding.md R130, 20_memory.md R95). -/
theorem test_decode_bytes :
    decode Platform.sample (.desc [0x1F#8, 0x00#8, 0x00#8, 0x20#8, 0x1F#8, 0x01#8, 0x00#8, 0x20#8,
      0x71#8, 0x80#8, 0x00#8, 0x8A#8, 0xFF#8, 0xFF#8, 0xFF#8, 0xFF#8]) = .ok (.basic descB1) ∧
    decode Platform.sample (.desc [0x1F#8]) = .error .descriptorLength := by decide

/-- The port views (30_encoding.md R156): `FIFO_PORT` of channel (1, 2) is at 0x400021A4 (F18). -/
theorem test_decode_ports :
    [.wr16 0x400021A4#32 0xBEEF#16, .wr32 0x400021A4#32 0xBEEF#32, .rd16 0x400021A4#32, .rd32 0x400021A4#32].map
      (decodeAccess Platform.sample) =
    [.ok (.portW16 ⟨1, 2⟩ 0xBEEF#16), .ok (.portW32 ⟨1, 2⟩ 0xBEEF#32), .ok (.portR16 ⟨1, 2⟩),
     .ok (.portR32 ⟨1, 2⟩)] := by decide

/-- What no row is: 16 bits of another register, an unaligned register access, RAM (20_memory.md R95, R101). -/
theorem test_decode_refuses :
    [.rd16 0x40001008#32, .wr16 0x40002204#32 0#16, .rd32 0x4000100A#32, .wr32 0x400022C1#32 0#32, .rd32 0x20000000#32,
     .rd32 0x40002300#32].map (decodeAccess Platform.sample) =
    [.error .halfwordRegister, .error .halfwordRegister, .error .unalignedRegister, .error .unalignedRegister,
     .error .notARegister, .error .notARegister] := by decide

/-- Table bits: the cycle codes and the DMA offsets (assumption log 30). -/
theorem test_table_words :
    decodeTableWord 8 5 = some (.sgalt ⟨0#32, 0#32, 0#10, 0#4, .byte1, .inc1, .inc1⟩) ∧
    decodeTableWord 8 0x3C = some (.dmaDoneStatW 0#32) ∧
    got (step (State.reset.withFetchWord 8 7)) (·.inv) = some 1#32 ∧
    got (step (State.reset.withFetchWord 8 5)) (·.seq) = some (.period 0 .alternate 1 ⟨0#32, 0#32, 5#32⟩) := by decide

/-- Offsets of 30_encoding.md R145 from `DMA_BASE` = 0x40001000. -/
theorem test_decode_dma_write_1 :
    [.wr32 0x40001000#32 0xC0DE0001#32,
     .wr32 0x40001004#32 0xC0DE0001#32,
     .wr32 0x40001008#32 0xC0DE0001#32,
     .wr32 0x4000100C#32 0xC0DE0001#32,
     .wr32 0x40001010#32 0xC0DE0001#32,
     .wr32 0x40001014#32 0xC0DE0001#32,
     .wr32 0x40001018#32 0xC0DE0001#32,
     .wr32 0x4000101C#32 0xC0DE0001#32].map (decodeAccess Platform.sample) =
    [.ok (.dmaBasePtrW 0xC0DE0001#32),
     .ok (.dmaAltBasePtrW 0xC0DE0001#32),
     .ok (.dmaEnSetW 0xC0DE0001#32),
     .ok (.dmaEnStatW 0xC0DE0001#32),
     .ok (.dmaSwunmaskSetW 0xC0DE0001#32),
     .ok (.dmaSwunmaskClrW 0xC0DE0001#32),
     .ok (.dmaPriSetW 0xC0DE0001#32),
     .ok (.dmaPriClrW 0xC0DE0001#32)] := by decide

/-- Offsets of 30_encoding.md R145 from `DMA_BASE` = 0x40001000. -/
theorem test_decode_dma_write_2 :
    [.wr32 0x40001020#32 0xC0DE0001#32,
     .wr32 0x40001024#32 0xC0DE0001#32,
     .wr32 0x40001028#32 0xC0DE0001#32,
     .wr32 0x4000102C#32 0xC0DE0001#32,
     .wr32 0x40001030#32 0xC0DE0001#32,
     .wr32 0x40001034#32 0xC0DE0001#32,
     .wr32 0x40001038#32 0xC0DE0001#32,
     .wr32 0x4000103C#32 0xC0DE0001#32].map (decodeAccess Platform.sample) =
    [.ok (.dmaAltSetW 0xC0DE0001#32),
     .ok (.dmaAltClrW 0xC0DE0001#32),
     .ok (.dmaDoneIenSetW 0xC0DE0001#32),
     .ok (.dmaDoneIenClrW 0xC0DE0001#32),
     .ok (.dmaSwreqW 0xC0DE0001#32),
     .ok (.dmaBuserrStatW 0xC0DE0001#32),
     .ok (.dmaInvdescStatW 0xC0DE0001#32),
     .ok (.dmaDoneStatW 0xC0DE0001#32)] := by decide

/-- Offsets of 30_encoding.md R145 from `DMA_BASE` = 0x40001000. -/
theorem test_decode_dma_read_1 :
    [.rd32 0x40001000#32,
     .rd32 0x40001004#32,
     .rd32 0x40001008#32,
     .rd32 0x4000100C#32,
     .rd32 0x40001010#32,
     .rd32 0x40001014#32,
     .rd32 0x40001018#32,
     .rd32 0x4000101C#32].map (decodeAccess Platform.sample) =
    [.ok (.dmaBasePtrR),
     .ok (.dmaAltBasePtrR),
     .ok (.dmaEnSetR),
     .ok (.dmaEnStatR),
     .ok (.dmaSwunmaskSetR),
     .ok (.dmaSwunmaskClrR),
     .ok (.dmaPriSetR),
     .ok (.dmaPriClrR)] := by decide

/-- Offsets of 30_encoding.md R145 from `DMA_BASE` = 0x40001000. -/
theorem test_decode_dma_read_2 :
    [.rd32 0x40001020#32,
     .rd32 0x40001024#32,
     .rd32 0x40001028#32,
     .rd32 0x4000102C#32,
     .rd32 0x40001030#32,
     .rd32 0x40001034#32,
     .rd32 0x40001038#32,
     .rd32 0x4000103C#32].map (decodeAccess Platform.sample) =
    [.ok (.dmaAltSetR),
     .ok (.dmaAltClrR),
     .ok (.dmaDoneIenSetR),
     .ok (.dmaDoneIenClrR),
     .ok (.dmaSwreqR),
     .ok (.dmaBuserrStatR),
     .ok (.dmaInvdescStatR),
     .ok (.dmaDoneStatR)] := by decide

/-- Offsets of 30_encoding.md R150 from the group of channel (1, 2), 0x40002180. -/
theorem test_decode_fifo_write_1 :
    [.wr32 0x40002180#32 0xC0DE0002#32,
     .wr32 0x40002184#32 0xC0DE0002#32,
     .wr32 0x40002188#32 0xC0DE0002#32,
     .wr32 0x4000218C#32 0xC0DE0002#32,
     .wr32 0x40002190#32 0xC0DE0002#32,
     .wr32 0x40002194#32 0xC0DE0002#32,
     .wr32 0x40002198#32 0xC0DE0002#32,
     .wr32 0x4000219C#32 0xC0DE0002#32].map (decodeAccess Platform.sample) =
    [.ok (.fifoInitW ⟨1, 2⟩ 0xC0DE0002#32),
     .ok (.fifoCtrlW ⟨1, 2⟩ 0xC0DE0002#32),
     .ok (.fifoAfThrW ⟨1, 2⟩ 0xC0DE0002#32),
     .ok (.fifoAeThrW ⟨1, 2⟩ 0xC0DE0002#32),
     .ok (.fifoDlLenW ⟨1, 2⟩ 0xC0DE0002#32),
     .ok (.fifoRdptrW ⟨1, 2⟩ 0xC0DE0002#32),
     .ok (.fifoWrptrW ⟨1, 2⟩ 0xC0DE0002#32),
     .ok (.fifoUsedW ⟨1, 2⟩ 0xC0DE0002#32)] := by decide

/-- Offsets of 30_encoding.md R150 from the group of channel (1, 2), 0x40002180. -/
theorem test_decode_fifo_write_2 :
    [.wr32 0x400021A0#32 0xC0DE0002#32,
     .wr32 0x400021A8#32 0xC0DE0002#32,
     .wr32 0x400021AC#32 0xC0DE0002#32,
     .wr32 0x400021B0#32 0xC0DE0002#32,
     .wr32 0x400021B4#32 0xC0DE0002#32,
     .wr32 0x400021B8#32 0xC0DE0002#32,
     .wr32 0x400021BC#32 0xC0DE0002#32].map (decodeAccess Platform.sample) =
    [.ok (.fifoStatW ⟨1, 2⟩ 0xC0DE0002#32),
     .ok (.fifoRsvd28W ⟨1, 2⟩ 0xC0DE0002#32),
     .ok (.fifoRsvd2cW ⟨1, 2⟩ 0xC0DE0002#32),
     .ok (.fifoRsvd30W ⟨1, 2⟩ 0xC0DE0002#32),
     .ok (.fifoRsvd34W ⟨1, 2⟩ 0xC0DE0002#32),
     .ok (.fifoRsvd38W ⟨1, 2⟩ 0xC0DE0002#32),
     .ok (.fifoRsvd3cW ⟨1, 2⟩ 0xC0DE0002#32)] := by decide

/-- Offsets of 30_encoding.md R150 from the group of channel (2, 3), 0x400022C0. -/
theorem test_decode_fifo_read_1 :
    [.rd32 0x400022C0#32,
     .rd32 0x400022C4#32,
     .rd32 0x400022C8#32,
     .rd32 0x400022CC#32,
     .rd32 0x400022D0#32,
     .rd32 0x400022D4#32,
     .rd32 0x400022D8#32,
     .rd32 0x400022DC#32].map (decodeAccess Platform.sample) =
    [.ok (.fifoInitR ⟨2, 3⟩),
     .ok (.fifoCtrlR ⟨2, 3⟩),
     .ok (.fifoAfThrR ⟨2, 3⟩),
     .ok (.fifoAeThrR ⟨2, 3⟩),
     .ok (.fifoDlLenR ⟨2, 3⟩),
     .ok (.fifoRdptrR ⟨2, 3⟩),
     .ok (.fifoWrptrR ⟨2, 3⟩),
     .ok (.fifoUsedR ⟨2, 3⟩)] := by decide

/-- Offsets of 30_encoding.md R150 from the group of channel (2, 3), 0x400022C0. -/
theorem test_decode_fifo_read_2 :
    [.rd32 0x400022E0#32,
     .rd32 0x400022E8#32,
     .rd32 0x400022EC#32,
     .rd32 0x400022F0#32,
     .rd32 0x400022F4#32,
     .rd32 0x400022F8#32,
     .rd32 0x400022FC#32].map (decodeAccess Platform.sample) =
    [.ok (.fifoStatR ⟨2, 3⟩),
     .ok (.fifoRsvd28R ⟨2, 3⟩),
     .ok (.fifoRsvd2cR ⟨2, 3⟩),
     .ok (.fifoRsvd30R ⟨2, 3⟩),
     .ok (.fifoRsvd34R ⟨2, 3⟩),
     .ok (.fifoRsvd38R ⟨2, 3⟩),
     .ok (.fifoRsvd3cR ⟨2, 3⟩)] := by decide

/-! ### The descriptor builder (95_test_vectors.md 2.1) -/

/-- B1, B4, B7, B10, B17. -/
theorem test_build :
    build ⟨0x20000000#32, 0x20000100#32, 8, 4, some 4, some 4, 1, 2⟩ =
      .ok [0x2000001F#32, 0x2000011F#32, 0x8A008071#32, 0#32] ∧
    build ⟨0x20005020#32, 0x20006020#32, 3, 2, none, some 2, 1, 2⟩ =
      .ok [0x2000501F#32, 0x20006025#32, 0x4D008021#32, 0#32] ∧
    build ⟨0x20000000#32, 0x20000100#32, 1024, 4, some 4, some 4, 1, 10⟩ =
      .ok [0x20000FFF#32, 0x200010FF#32, 0x8A02BFF1#32, 0#32] ∧
    build ⟨0x20000000#32, 0x40002224#32, 32, 4, some 4, none, 1, 10⟩ =
      .ok [0x2000007F#32, 0x40002223#32, 0xCA0281F1#32, 0#32] ∧
    build ⟨0xFFFFFFF0#32, 0x20000100#32, 8, 4, some 4, some 4, 1, 0⟩ =
      .ok [0x0000000F#32, 0x2000011F#32, 0x8A000071#32, 0#32] := by decide

/-- B12 to B16. -/
theorem test_build_rejects :
    build ⟨0#32, 0#32, 8, 4, some 2, some 4, 1, 0⟩ = .error .incrementSmallerThanWidth ∧
    build ⟨0#32, 0#32, 1025, 4, some 4, some 4, 1, 0⟩ = .error .countOutOfRange ∧
    build ⟨0#32, 0#32, 0, 4, some 4, some 4, 1, 0⟩ = .error .countOutOfRange ∧
    build ⟨0#32, 0#32, 8, 3, some 4, some 4, 1, 0⟩ = .error .invalidParameter ∧
    build ⟨0x20000002#32, 0x20000100#32, 8, 4, some 4, some 4, 1, 0⟩ = .error .alignmentError := by decide

/-- The table of `invalid(word2)` (30_encoding.md R139, R140). -/
theorem test_invalid :
    [0x00000000#32, 0x8A000006#32, 0x8A000007#32, 0xCF000001#32, 0x86000001#32, 0x4A000001#32, 0x8E000001#32,
     0x8A008078#32, 0x8A008079#32].map invalidControl =
    [true, true, true, true, true, true, false, true, false] := by decide

/-- The table geometry (30_encoding.md R143). -/
theorem test_slots :
    [chan3.slot 0 .primary, chan3.slot 3 .primary, chan3.slot 31 .primary, chan3.slot 0 .alternate,
     chan3.slot 1 .alternate, chan3.slot 31 .alternate] =
    [0x20001000#32, 0x20001030#32, 0x200011F0#32, 0x20001200#32, 0x20001210#32, 0x200013F0#32] ∧
    { Platform.sample with ch := 8 }.altOffset = 0x80#32 ∧ { Platform.sample with ch := 12 }.tableAlign = 0x200 := by
  decide

/-- The unit addresses of B9 and B4 (41_channel_engine.md R221). -/
theorem test_unit_addresses :
    [4, 3, 2, 1].map (descOfWords 0x2000000F#32 0x20000103#32 0x08008031#32).srcAddr =
      [0x20000000#32, 0x20000004#32, 0x20000008#32, 0x2000000C#32] ∧
    [3, 2, 1].map (descOfWords 0x2000501F#32 0x20006025#32 0x4D008021#32).srcAddr =
      [0x20005020#32, 0x20005020#32, 0x20005020#32] ∧
    [3, 2, 1].map (descOfWords 0x2000501F#32 0x20006025#32 0x4D008021#32).dstAddr =
      [0x20006020#32, 0x20006022#32, 0x20006024#32] := by decide

/-! ### The DMA register block (95_test_vectors.md 2.2) -/

/-- G1, G11: the low bits of the base are dropped, the alternate base is derived and read-only. -/
theorem test_base_pointers :
    got (exec (.dmaBasePtrW 0x200013FF#32) State.reset) (·.base) = some 0x20001000#32 ∧
    got (exec .dmaAltBasePtrR chan3) (·.hostData) = some 0x20001200#32 ∧
    got (exec (.dmaAltBasePtrW 0x12345678#32) chan3) (·.base) = some 0x20001000#32 := by decide

/-- G2, G12: the named enables, and no reserved bit. -/
theorem test_enable_set :
    got (exec (.dmaEnSetW 8#32) State.reset) (·.en) = some 8#32 ∧
    got (exec (.dmaEnSetW 0x80000000#32) (State.resetOf { Platform.sample with ch := 8 })) (·.en) = some 0#32 := by decide

/-- G3, G10: set and clear registers read the same word. -/
theorem test_control_pairs :
    got (exec (.dmaSwunmaskSetW 8#32) State.reset) (·.swun) = some 8#32 ∧
    got (exec (.dmaSwunmaskClrW 8#32) chan3) (·.swun) = some 0#32 ∧
    got (exec (.dmaPriSetW 6#32) State.reset) (·.pri) = some 6#32 ∧
    got (exec (.dmaPriClrW 2#32) { State.reset with pri := 6#32 }) (·.pri) = some 4#32 ∧
    got (exec (.dmaAltSetW 1#32) State.reset) (·.alt) = some 1#32 ∧
    got (exec .dmaAltClrR { State.reset with alt := 1#32 }) (·.hostData) = some 1#32 ∧
    got (exec (.dmaDoneIenSetW 3#32) State.reset) (·.dien) = some 3#32 ∧
    got (exec (.dmaDoneIenClrW 1#32) { State.reset with dien := 3#32 }) (·.dien) = some 2#32 := by decide

/-- G4, G5: a software request needs the enable and the unmask. -/
theorem test_software_request :
    got (exec (.dmaSwreqW 0xA#32) chan3) (·.pend) = some 8#32 ∧
    got (exec (.dmaSwreqW 8#32) { chan3 with swun := 0#32 }) (·.pend) = some 0#32 ∧
    got (exec .dmaSwreqR { chan3 with pend := 8#32 }) (·.hostData) = some 0#32 := by decide

/-- G6: a hardware request needs hardware-triggered mode. -/
theorem test_hardware_request :
    (hardwareRequest 3 chan3).pend = 0#32 ∧ (hardwareRequest 3 { chan3 with swun := 0#32 }).pend = 8#32 := by decide

/-- G7, and R205's delay while a period of the channel is in flight. -/
theorem test_enable_clear :
    got (exec (.dmaEnStatW 8#32) ({ chan3 with pend := 8#32, alt := 8#32 }.setRem 3 .primary (some 4)))
      (fun s => (s.en, s.pend, s.run, s.alt, s.rem 3 .primary)) = some (0#32, 0#32, 0#32, 8#32, none) ∧
    got (exec (.dmaEnStatW 8#32) (inPeriod .primary 2 6)) (fun s => (s.en, s.run, s.rem 3 .primary)) =
      some (0#32, 8#32, some 6) := by decide

/-- G8, G9: a status bit is cleared by a 1, and nothing is enabled again. -/
theorem test_status_clear :
    got (exec (.dmaDoneStatW 2#32) { State.reset with done := 0xA#32 }) (·.done) = some 8#32 ∧
    got (exec (.dmaBuserrStatW 8#32) { State.reset with berr := 8#32 }) (fun s => (s.berr, s.en)) = some (0#32, 0#32) ∧
    got (exec (.dmaInvdescStatW 1#32) { State.reset with inv := 3#32 }) (·.inv) = some 2#32 := by decide

/-! ### Descriptors (95_test_vectors.md 2.3) -/

/-- X1, X6: 4 units of 8 in the first period; the power is capped at 10 and at the units left. -/
theorem test_admission :
    got (exec (.basic descB1) (fetchedOn .primary rawB1)) (fun s => (s.seq, s.rem 3 .primary)) =
      some (.period 3 .primary 4 rawB1, some 8) ∧
    got (exec (.basic { descB1 with rpow := 15#4 }) (fetchedOn .primary rawB1)) (·.seq) =
      some (.period 3 .primary 8 rawB1) ∧
    got (exec (.basic descB1) ((fetchedOn .primary rawB1).setRem 3 .primary (some 3))) (·.seq) =
      some (.period 3 .primary 3 rawB1) := by decide

/-- X9: `STOP` and the reserved types raise the event. -/
theorem test_invalid_types :
    got (exec (.stop descB1) (fetchedOn .primary rawB1)) (fun s => (s.inv, s.en, s.run, s.seq)) =
      some (8#32, 0#32, 0#32, .idle) ∧
    got (exec (.rsvd6 descB1) (fetchedOn .primary rawB1)) (·.inv) = some 8#32 ∧
    got (exec (.rsvd7 descB1) (fetchedOn .primary rawB1)) (·.inv) = some 8#32 := by decide

/-- X21 and U7: the scatter-gather forms the source gives no meaning. -/
theorem test_scatter_gather_refusals :
    why (exec (.sgpri descMsg) (fetchedOn .alternate rawB1)) = some .sgPrimaryInAlternate ∧
    why (exec (.sgalt descB1) (fetchedOn .primary rawB1)) = some .sgAlternateInPrimary ∧
    why (exec (.sgpri { descMsg with nm1 := 10#10 }) (fetchedOn .primary rawB1)) = some .sgMessageFields := by decide

/-- A unit of B1 is read and written (41_channel_engine.md R221, R222). -/
theorem test_unit :
    got (exec (.basic descB1) { inPeriod .primary 4 8 with mem := sourceWord }) (·.seq) =
      some (.moving 3 .primary 4 rawB1 0x11110000#32) ∧
    got (exec (.basic descB1) (midUnit .primary 4 8 0x11110000#32)) (fun s => (s.seq, s.rem 3 .primary, s.mem)) =
      some (.period 3 .primary 3 rawB1, some 7,
        [(0x20000100, 0#8), (0x20000101, 0#8), (0x20000102, 0x11#8), (0x20000103, 0x11#8)]) := by decide

/-- X20: a misaligned unit is a bus error. -/
theorem test_unit_bus_error :
    got (exec (.basic { descB1 with srcEnd := 0x20000021#32 }) (inPeriod .primary 4 8))
      (fun s => (s.berr, s.en, s.rem 3 .primary)) = some (8#32, 0#32, none) := by decide

/-- The completions: X2 `BASIC`, X4 `AUTOREQ`, X16 `PINGPONG`. -/
theorem test_completions :
    got (exec (.basic descB1) (inPeriod .primary 0 0)) (fun s => (s.done, s.en, s.run, s.pend)) =
      some (8#32, 0#32, 0#32, 0#32) ∧
    got (exec (.autoreq descB1) (inPeriod .primary 0 4)) (fun s => (s.done, s.en, s.pend, s.rem 3 .primary)) =
      some (0#32, 8#32, 8#32, some 4) ∧
    got (exec (.pingpong descB1) (inPeriod .primary 0 0)) (fun s => (s.done, s.en, s.alt, s.run)) =
      some (8#32, 8#32, 8#32, 8#32) := by decide

/-- A channel on a platform where a request buys the whole cycle, the other value of U4, with units left. -/
def wholeCycle : State :=
  { inPeriod .primary 0 4 with cfg := { Platform.sample with basicBuys := .cycle, pingpongBuys := .cycle } }

/-- After X1's first period: `pend` 0 under the spec's value of U4; under the other the channel requests itself
(41_channel_engine.md R228, R225). -/
theorem test_request_buys :
    got (exec (.basic descB1) (inPeriod .primary 0 4)) (fun s => (s.pend, s.en, s.done, s.rem 3 .primary)) =
      some (0#32, 8#32, 0#32, some 4) ∧
    got (exec (.basic descB1) wholeCycle) (fun s => (s.pend, s.en, s.done, s.rem 3 .primary)) =
      some (8#32, 8#32, 0#32, some 4) ∧
    got (exec (.pingpong descB1) wholeCycle) (fun s => (s.pend, s.alt)) = some (8#32, 0#32) := by decide

/-- Program P3, lines 1 and 2: the message hands over after every period, the task when it is complete. -/
theorem test_scatter_gather_links :
    got (exec (.sgpri descMsg) (inPeriod .primary 0 8)) (fun s => (s.alt, s.pend, s.done, s.rem 3 .primary)) =
      some (8#32, 8#32, 0#32, some 8) ∧
    got (exec (.sgalt descB1) { inPeriod .alternate 0 0 with alt := 8#32 }) (fun s => (s.alt, s.pend, s.done)) =
      some (0#32, 8#32, 0#32) := by decide

/-- X14, X15: the higher priority first, then the lowest index. -/
theorem test_arbitration :
    arbitrate { State.reset with en := 0x94#32, pend := 0x94#32, pri := 0x80#32 } = some 7 ∧
    arbitrate { State.reset with en := 0x94#32, pend := 0x94#32 } = some 2 ∧
    arbitrate { State.reset with en := 0x80#32, pend := 0x94#32 } = some 7 := by decide

/-! ### The FIFO controller (95_test_vectors.md 2.4) -/

/-- F14's init word loaded and read back (44_fifo_ring.md R305, R306). -/
theorem test_fifo_init :
    got (exec (.fifoInitW ⟨2, 0⟩ 0x01007F00#32) State.reset)
      (fun s => ((s.fifo ⟨2, 0⟩).boff, (s.fifo ⟨2, 0⟩).lenm1, (s.fifo ⟨2, 0⟩).w32)) = some (0#8, 127#16, true) ∧
    got (exec (.fifoInitR ⟨2, 0⟩) (fifoAt fifo8)) (·.hostData) = some 0x01000700#32 := by decide

/-- `FIFO_INIT` clears the two sticky flags (92_eei_decisions.md D26) and keeps the thresholds (44_fifo_ring.md R305). -/
theorem test_fifo_init_clears :
    got (exec (.fifoInitW ⟨2, 0⟩ 0x01000700#32)
        (fifoAt { fifo8 with fen := false, dlen := false, ovf := true, unf := true, afthr := 6#16, aethr := 2#16 }))
      (fun s => ((s.fifo ⟨2, 0⟩).ovf, (s.fifo ⟨2, 0⟩).unf, (s.fifo ⟨2, 0⟩).afthr, (s.fifo ⟨2, 0⟩).aethr)) =
      some (false, false, 6#16, 2#16) := by decide

/-- F11: `FIFO_INIT` in an active mode. -/
theorem test_fifo_init_active : why (exec (.fifoInitW ⟨2, 0⟩ 0#32) (fifoAt fifo8)) = some .fifoInitWhileActive := by decide

/-- The control bits (30_encoding.md R152) and both modes together (U9). -/
theorem test_fifo_control :
    got (exec (.fifoCtrlW ⟨2, 0⟩ 0x701#32) State.reset) (fun s => (s.fifo ⟨2, 0⟩).ctrlWord) = some 0x701#32 ∧
    got (exec (.fifoCtrlR ⟨2, 0⟩) (fifoAt fifo8)) (·.hostData) = some 1#32 ∧
    why (exec (.fifoCtrlW ⟨2, 0⟩ 3#32) State.reset) = some .bothFifoModes := by decide

/-- The delay line of 2.4: entering it with a length of 2 sections puts the read pointer at 1536, a new length of 1 with
the write pointer at 40 at 1832; the length 9 of 8 is U14. -/
theorem test_delay_line :
    got (exec (.fifoCtrlW ⟨2, 0⟩ 2#32) (fifoAt { fifo8 with fen := false, dllen := 2#16 }))
      (fun s => (s.fifo ⟨2, 0⟩).rd) = some 1536#17 ∧
    got (exec (.fifoDlLenW ⟨2, 0⟩ 1#32) (fifoAt { fifo8 with fen := false, dlen := true, wr := 40#17 }))
      (fun s => (s.fifo ⟨2, 0⟩).rd) = some 1832#17 ∧
    why (exec (.fifoDlLenW ⟨2, 0⟩ 9#32) (fifoAt { fifo8 with fen := false, dlen := true })) = some .delayLength ∧
    got (exec (.fifoUsedR ⟨2, 0⟩) (fifoAt { fifo8 with fen := false, dlen := true, wr := 0#17, rd := 1536#17 }))
      (·.hostData) = some 512#32 ∧
    got (exec (.fifoDlLenR ⟨2, 0⟩) (fifoAt { fifo8 with dllen := 2#16 })) (·.hostData) = some 2#32 := by decide

/-- The thresholds and the pointers (44_fifo_ring.md R330, R331), F10. -/
theorem test_fifo_registers :
    got (exec (.fifoAfThrW ⟨2, 0⟩ 0x10006#32) State.reset) (fun s => (s.fifo ⟨2, 0⟩).afthr) = some 6#16 ∧
    got (exec (.fifoAeThrW ⟨2, 0⟩ 1#32) State.reset) (fun s => (s.fifo ⟨2, 0⟩).aethr) = some 1#16 ∧
    got (exec (.fifoAfThrR ⟨2, 0⟩) (fifoAt fifo8)) (·.hostData) = some 6#32 ∧
    got (exec (.fifoAeThrR ⟨2, 0⟩) (fifoAt fifo8)) (·.hostData) = some 1#32 ∧
    got (exec (.fifoRdptrR ⟨2, 0⟩) (fifoAt { fifo8 with rd := 2036#17 })) (·.hostData) = some 2036#32 ∧
    got (exec (.fifoWrptrR ⟨2, 0⟩) (fifoAt { fifo8 with wr := 2044#17 })) (·.hostData) = some 2044#32 ∧
    got (exec (.fifoRdptrW ⟨2, 0⟩ 5#32) (fifoAt fifo8)) (fun s => (s.fifo ⟨2, 0⟩).rd) = some 0#17 ∧
    got (exec (.fifoWrptrW ⟨2, 0⟩ 5#32) (fifoAt fifo8)) (fun s => (s.fifo ⟨2, 0⟩).wr) = some 0#17 ∧
    got (exec (.fifoUsedW ⟨2, 0⟩ 5#32) (fifoAt fifo8)) (fun s => (s.fifo ⟨2, 0⟩).used) = some 0#17 := by decide

/-- F1, F5, F6: `FIFO_STAT` of an empty FIFO, after an underflow is cleared, of a full one that overflowed. -/
theorem test_fifo_status :
    got (exec (.fifoStatR ⟨2, 0⟩) (fifoAt fifo8)) (·.hostData) = some 0x22#32 ∧
    got (exec (.fifoStatW ⟨2, 0⟩ 8#32) (fifoAt { fifo8 with unf := true, ovf := true }))
      (fun s => ((s.fifo ⟨2, 0⟩).unf, (s.fifo ⟨2, 0⟩).ovf)) = some (false, true) ∧
    got (exec (.fifoStatR ⟨2, 0⟩) (fifoAt { fifo8 with used := 2048#17, ovf := true })) (·.hostData) = some 0x15#32 := by
  decide

/-- F2: a push. -/
theorem test_push :
    got (exec (.portW32 ⟨2, 0⟩ 0xAABBCCDD#32) (fifoAt fifo8))
      (fun s => (s.block 2, (s.fifo ⟨2, 0⟩).wr, (s.fifo ⟨2, 0⟩).used)) =
    some ([(0, 0xDD#8), (1, 0xCC#8), (2, 0xBB#8), (3, 0xAA#8)], 4#17, 4#17) := by decide

/-- F6, F9: a push into a full FIFO, and one that wraps. -/
theorem test_push_full_and_wrap :
    got (exec (.portW32 ⟨2, 0⟩ 1#32) (fifoAt { fifo8 with used := 2048#17 }))
      (fun s => ((s.fifo ⟨2, 0⟩).ovf, (s.fifo ⟨2, 0⟩).wr, s.block 2)) = some (true, 0#17, []) ∧
    got (exec (.portW32 ⟨2, 0⟩ 1#32) (fifoAt { fifo8 with wr := 2044#17, used := 8#17, rd := 2036#17 }))
      (fun s => ((s.fifo ⟨2, 0⟩).wr, (s.fifo ⟨2, 0⟩).used, (s.block 2).readByte 2044)) =
      some (0#17, 12#17, some 1#8) := by decide

/-- F3, F4: a pop, and one of an empty FIFO. -/
theorem test_pop :
    got (exec (.portR32 ⟨2, 0⟩) ((fifoAt { fifo8 with wr := 4#17, used := 4#17 }).setBlock 2
        [(0, 0xDD#8), (1, 0xCC#8), (2, 0xBB#8), (3, 0xAA#8)]))
      (fun s => (s.hostData, (s.fifo ⟨2, 0⟩).rd, (s.fifo ⟨2, 0⟩).used)) = some (0xAABBCCDD#32, 4#17, 0#17) ∧
    got (exec (.portR32 ⟨2, 0⟩) (fifoAt fifo8)) (fun s => ((s.fifo ⟨2, 0⟩).unf, (s.fifo ⟨2, 0⟩).rd)) =
      some (true, 0#17) := by decide

/-- F18: the 16-bit view, and its pop. -/
theorem test_port16 :
    got (exec (.portW16 ⟨1, 2⟩ 0xBEEF#16) (State.reset.setFifo ⟨1, 2⟩ fifo16))
      (fun s => (s.block 1, (s.fifo ⟨1, 2⟩).wr, (s.fifo ⟨1, 2⟩).used)) =
      some ([(4096, 0xEF#8), (4097, 0xBE#8)], 2#17, 2#17) ∧
    got (exec (.portR16 ⟨1, 2⟩) ((State.reset.setFifo ⟨1, 2⟩
        { fifo16 with used := 2#17, wr := 2#17 }).setBlock 1 [(4096, 0xEF#8), (4097, 0xBE#8)]))
      (fun s => (s.hostData, (s.fifo ⟨1, 2⟩).rd)) = some (0xBEEF#32, 2#17) := by decide

/-- F12, F13: a port in mode disabled, and the wrong view. -/
theorem test_port_modes :
    exec (.portW32 ⟨2, 0⟩ 1#32) (fifoAt { fifo8 with fen := false }) = .next (fifoAt { fifo8 with fen := false }) ∧
    why (exec (.portW16 ⟨2, 0⟩ 1#16) (fifoAt fifo8)) = some .wrongPortView ∧
    why (exec (.portR32 ⟨2, 0⟩) (fifoAt { fifo8 with boff := 121#8 })) = some .fifoOutOfBounds := by
  refine ⟨rfl, by decide, by decide⟩

/-- The reserved offsets (30_encoding.md R161). -/
theorem test_reserved_offsets :
    [Instr.fifoRsvd28R ⟨0, 0⟩, .fifoRsvd2cR ⟨0, 0⟩, .fifoRsvd30R ⟨0, 0⟩, .fifoRsvd34R ⟨0, 0⟩, .fifoRsvd38R ⟨0, 0⟩,
     .fifoRsvd3cR ⟨0, 0⟩].map (fun i => got (exec i { State.reset with hostData := 1#32 }) (·.hostData)) =
    List.replicate 6 (some 0#32) ∧
    [Instr.fifoRsvd28W ⟨0, 0⟩ 1#32, .fifoRsvd2cW ⟨0, 0⟩ 1#32, .fifoRsvd30W ⟨0, 0⟩ 1#32, .fifoRsvd34W ⟨0, 0⟩ 1#32,
     .fifoRsvd38W ⟨0, 0⟩ 1#32, .fifoRsvd3cW ⟨0, 0⟩ 1#32].map (fun i => got (exec i State.reset) (·.fifos)) =
    List.replicate 6 (some State.reset.fifos) := by decide

/-! ### Commands of the software -/

/-- F14 to F17: `fifo_init` writes one word or makes no access; none while a mode is on (70_reset_and_hazards.md R431). -/
theorem test_fifo_init_command :
    (fifoInit Platform.sample true .disabled 2 0 0 129 32 = .done (.error .fifoBoundsOutOfRange)) ∧
    (fifoInit Platform.sample true .disabled 2 0 120 9 32 = .done (.error .fifoBoundsOutOfRange)) ∧
    (fifoInit Platform.sample true .disabled 3 0 0 1 16 = .done (.error .invalidParameter)) ∧
    (fifoInit Platform.sample true .disabled 0 4 0 1 16 = .done (.error .invalidParameter)) ∧
    (fifoInit Platform.sample true .fifo 2 0 0 8 32 = .done (.error .invalidParameter)) := by
  refine ⟨rfl, rfl, rfl, rfl, rfl⟩

/-- S8: enabling the second mode is rejected. -/
theorem test_mode_conflict :
    (match (enableDelayLine Platform.sample true 2 0 true).run [] (fifoAt fifo8) with
      | .next (t, .error e) => some (e, (t.fifo ⟨2, 0⟩).ctrlWord)
      | _ => none) = some (.modeConflict, 1#32) := by decide

/-- `await_disabled` checks its handle and its index before it reads (60_exceptions.md R391), and times out (41_channel_engine.md
R198). -/
theorem test_await_disabled :
    awaitDisabled Platform.sample false 3 1 = .done (.error .invalidParameter) ∧
    awaitDisabled Platform.sample true 32 1 = .done (.error .invalidParameter) ∧
    (match (awaitDisabled Platform.sample true 3 2).run [] chan3 with
      | .next (_, r) => some r
      | _ => none) = some (.error .timeout) := by
  refine ⟨rfl, rfl, by decide⟩

/-- The service routine publishes which error a channel had (60_exceptions.md R382, R392), and clears what it read. -/
theorem test_service_publishes_errors :
    (match (serviceInterrupt Platform.sample chan3.base []).run []
        { chan3 with done := 1#32, berr := 4#32, inv := 0x14#32 } with
      | .next (t, .ok r) => some (r.completed, r.failed, t.done, t.berr, t.inv)
      | _ => none) =
    some ([0], [(2, .busError), (2, .invalidDescriptor), (4, .invalidDescriptor)], 0#32, 0#32, 0#32) := by decide

/-- The parity counter is 0 when `pingpong_start` returns (42_ping_pong.md R258), and the power of a request is 0 unless
given (40_descriptor_builder.md R171). -/
theorem test_defaults :
    (match (pingpongStart Platform.sample true chan3.base 3 [] [] false).run [] chan3 with
      | .next (_, r) => some r
      | _ => none) = some (.ok 0) ∧
    ({ src := 0#32, dst := 0#32, count := 1, width := 1, srcInc := none, dstInc := none, cycle := 1 } :
      BuildRequest).rpow = 0 := by
  refine ⟨by decide, rfl⟩

/-- Hazards (42_ping_pong.md R255, 70_reset_and_hazards.md R425): with a primary cycle in progress the alternate slot is the
host's; the live slot is not, its counter `IDLE` or not, nor when a `FENCE` makes the write visible. -/
theorem test_hazard_slots :
    turnHazard (.host (.wr32 0x20001230#32 0#32)) (chan3.setRem 3 .primary (some 4)) = none ∧
    turnHazard (.host (.wr32 0x20001030#32 0#32)) chan3 = some .writeIntoLiveSlot ∧
    turnHazard (.host (.wr16 0x2000123E#32 0#16)) { chan3 with alt := 8#32 } = some .writeIntoLiveSlot ∧
    turnHazard (.host .fence) { chan3 with pending := [[(0x20001030, 0#8)]] } = some .writeIntoLiveSlot := by decide

/-- S6: `used` = 2040 of 2048, three words asked for, two written. -/
theorem test_push_clamps :
    (match (push Platform.sample true 2 0 [1#32, 2#32, 3#32] 32).run []
        (fifoAt { fifo8 with used := 2040#17, wr := 2040#17 }) with
      | .next (t, .ok n) => some (n, (t.fifo ⟨2, 0⟩).used, (t.fifo ⟨2, 0⟩).ovf)
      | _ => none) = some (2, 2048#17, false) := by decide

/-! ### The other agents -/

/-- A host write of RAM is pending, the host reads it, the engine does not, until it drains (20_memory.md R108). -/
theorem test_pending_write :
    got (hostTurn (.wr32 0x20000000#32 0x11110000#32) State.reset) (fun s => (s.mem, s.hostByte 0x20000003)) =
      some ([], some 0x11#8) ∧
    got (hostTurn (.wr32 0x20000000#32 0x11110000#32) State.reset) (fun s => (drainWrite 0 s).mem) = some sourceWord ∧
    got (hostTurn (.wr32 0x50000000#32 0#32) State.reset) (·.mem) = none := by decide

/-- A line that is 1 is delivered, one that is 0 is not (60_exceptions.md R378); a mover pushes only on a channel assigned
to it (44_fifo_ring.md R343). -/
theorem test_delivery_and_movers :
    (deliverLine .dma { State.reset with berr := 1#32 }).handler = some .dma ∧
    (deliverLine .dma State.reset).handler = none ∧
    got (moverTurn 0 (.push ⟨2, 0⟩ 1#32) { fifoAt fifo8 with cfg := { Platform.sample with movers := [[⟨2, 0⟩]] } })
      (fun s => (s.fifo ⟨2, 0⟩).used) = some 4#17 ∧
    got (moverTurn 0 (.push ⟨2, 0⟩ 1#32) (fifoAt fifo8)) (fun s => (s.fifo ⟨2, 0⟩).used) = some 0#17 ∧
    got (moverTurn 0 (.push ⟨2, 0⟩ 1#32)
        { fifoAt fifo8 with cfg := { Platform.sample with nblk := 2, movers := [[⟨2, 0⟩]] } })
      (fun s => (s.fifo ⟨2, 0⟩).used) = some 0#17 := by decide

/-- An engine access of a halfword of a FIFO register that is no port is refused; a misaligned one inside the DMA block is
a bus error (assumption log 40). -/
theorem test_engine_registers :
    (match engineRead 0x40002208#32 2 State.reset with | .refused r => some r | _ => none) = some .engineRegisterSize ∧
    (match engineRead 0x40001002#32 4 State.reset with | .busErr => true | _ => false) = true ∧
    (match engineRead 0x40001004#32 4 State.reset with | .refused r => some r | _ => none) = some .engineInDmaBlock ∧
    (match engineWrite 0x40002208#32 4 6#32 State.reset with
      | .ok _ t => some (t.fifo ⟨2, 0⟩).afthr
      | _ => none) = some 6#16 := by decide

/-! ### Witnesses: states and operands that meet the hypotheses of the statements -/

/-- The reset state meets the invariant. -/
theorem reset_inv : State.reset.Inv where
  platform := by decide
  memory := rfl
  blocks := by decide
  base := by decide
  reserved := by unfold reservedClear; decide
  phase := trivial
  progress := fun c h r hr => by
    have e : ∀ c : Chan, State.reset.rem c .primary = none ∧ State.reset.rem c .alternate = none := by decide
    cases h
    · rw [(e c).1] at hr; cases hr
    · rw [(e c).2] at hr; cases hr
  disabled := by
    have h : ∀ c : Chan, bitOf State.reset.pend c = false ∧ bitOf State.reset.run c = false ∧
        State.reset.rem c .primary = none ∧ State.reset.rem c .alternate = none := by decide
    exact fun c _ => ⟨(h c).1, fun _ => (h c).2⟩
  modes := by
    have h : ∀ i : Fin 12, State.reset.fifos[i.val].mode ≠ .both := by decide
    exact fun id => h (fifoIndex id)
  pending := fun w hw => by cases hw

theorem witness_DecodeOfEncodeIsTheInstruction :
    Platform.sample.wf = true ∧ (Instr.portW16 ⟨2, 3⟩ 0#16).wf Platform.sample = true ∧
    (Instr.sgpri descMsg).wf Platform.sample = true := by decide

theorem witness_ReservedDescriptorBitsAreIgnored :
    (List.replicate 12 0#8).length = 12 ∧ [1#8, 2#8, 3#8, 4#8].length = 4 := by decide

theorem witness_HostTurnRunsTheDecodedInstruction :
    ({ State.reset with agenda := [.host (.rd32 0x40001008#32)] }).agenda = .host (.rd32 0x40001008#32) :: [] ∧
    decodeAccess Platform.sample (.rd32 0x40001008#32) = .ok .dmaEnSetR := by decide

theorem witness_SequencerRunsTheFetchedInstruction :
    SeqMoves { chan3 with agenda := [.seq] } [] ∧ SeqMoves chan3 [] ∧
    (∃ w2 t, engineRead (0x20001030#32 + 8#32) 4
      { chan3 with seq := .fetch2 3 .primary 0x20001030#32 0#32 0#32 } = .ok w2 t) ∧
    (inPeriod .primary 4 8).seq = .period 3 .primary 4 rawB1 ∧
    (midUnit .primary 4 8 0#32).seq = .moving 3 .primary 4 rawB1 0#32 :=
  ⟨.inl rfl, .inr ⟨rfl, rfl⟩, ⟨_, _, rfl⟩, rfl, rfl⟩

theorem witness_ResetLeavesTheStatedValues :
    ({ inPeriod .primary 4 8 with agenda := [.blockReset] }).agenda = .blockReset :: [] := rfl

/-- For `EnableSetChangesOnlyTheNamedEnables`, `ControlBitsAreSetAndClearedExactly`, `StatusIsClearedByWritingOnes` and
`SoftwareRequestNeedsEnableAndUnmask`: the state `chan3`; and for `ResetMeetsTheInvariant`. -/
theorem witness_platform : chan3.cfg.wf = true ∧ Platform.sample.wf = true := by decide

theorem witness_EnableClearDropsProgressUnlessInFlight :
    (inPeriod .primary 4 8).seq.curChan = some 3 ∧ (inPeriod .primary 4 8).seq.curChan ≠ some 2 ∧
    (bitOf 8#32 3 && decide ((3 : Chan).val < Platform.sample.ch)) = true := by decide

theorem witness_HardwareRequestNeedsEnableAndHardwareMode :
    ({ chan3 with agenda := [.hwReq 3] }).agenda = .hwReq 3 :: [] ∧ (3 : Chan).val < chan3.cfg.ch := by decide

theorem witness_ArbitrationPrefersHighPriority :
    arbitrate { State.reset with en := 0x84#32, pend := 0x84#32, pri := 0x80#32 } = some 7 ∧
    Candidate { State.reset with en := 0x84#32, pend := 0x84#32, pri := 0x80#32 } 7 ∧
    ({ State.reset with en := 0x84#32 }).cfg.arbTie = .lowest := by
  refine ⟨by decide, ⟨by decide, by decide, by decide⟩, rfl⟩

theorem witness_GrantTakesTheRequestAndFetches :
    SeqMoves { chan3 with pend := 8#32 } [] ∧ chan3.seq = .idle ∧ arbitrate { chan3 with pend := 8#32 } = some 3 ∧
    RamAccess chan3.cfg (liveSlot chan3 3) 4 ∧ RamAccess chan3.cfg (0x20001030#32 + 4#32) 4 := by
  refine ⟨.inr ⟨rfl, rfl⟩, rfl, by decide, ⟨by decide, by decide⟩, ⟨by decide, by decide⟩⟩

/-- A table outside RAM, and one whose slot ends at its edge. -/
theorem witness_FetchBusErrorDisablesTheChannel :
    (arbitrate { chan3 with pend := 8#32, base := 0x30000000#32 } = some 3 ∧
      BusErrorAccess chan3.cfg (liveSlot { chan3 with base := 0x30000000#32 } 3) 4) ∧
    BusErrorAccess chan3.cfg (0x2000FFFC#32 + 4#32) 4 ∧ BusErrorAccess chan3.cfg (0x2000FFF8#32 + 8#32) 4 := by
  refine ⟨⟨by decide, .inr ⟨0, by decide, .inr (by decide)⟩⟩, .inr ⟨0, by decide, .inr (by decide)⟩,
    .inr ⟨0, by decide, .inr (by decide)⟩⟩

theorem witness_InvalidControlWordRaisesTheEvent :
    (fetchedOn .primary ⟨0#32, 0#32, 0#32⟩).seq = .fetched 3 .primary ⟨0#32, 0#32, 0#32⟩ ∧ InvalidWord 0#32 ∧
    InvalidWord 0x8A000006#32 ∧ InvalidWord 0x8A000007#32 ∧ InvalidWord 0xCF000001#32 ∧ InvalidWord 0x86000001#32 ∧
    InvalidWord 0x4A000001#32 ∧ (fetchedOn .alternate rawB1).seq = .fetched 3 .alternate rawB1 := by
  unfold InvalidWord; decide

/-- The narrowest and the widest unit, the least and the greatest increments. -/
theorem witness_ValidFields :
    ValidFields ⟨0#32, 0#32, 0#10, 0#4, .byte1, .inc1, .inc1⟩ ∧
    ValidFields ⟨0#32, 0#32, 1023#10, 15#4, .byte4, .stay, .inc4⟩ ∧
    ¬ ValidFields ⟨0#32, 0#32, 0#10, 0#4, .byte2, .inc1, .inc2⟩ := by
  unfold ValidFields; decide

theorem witness_AdmittedDescriptorStartsItsPeriod :
    (fetchedOn .primary rawB1).seq = .fetched 3 .primary rawB1 ∧ (fetchedOn .primary rawB1).rem 3 .primary = none ∧
    ((fetchedOn .alternate rawB1).setRem 3 .alternate (some 1024)).rem 3 .alternate = some 1024 ∧ ValidFields descB1 ∧
    ValidFields descMsg ∧ MessageFields descMsg := by
  unfold ValidFields MessageFields; decide

theorem witness_MisplacedScatterGatherIsRefused :
    (fetchedOn .alternate rawB1).seq = .fetched 3 .alternate rawB1 ∧ ValidFields descMsg ∧
    ¬ MessageFields { descMsg with nm1 := 10#10 } ∧ ¬ ValidFields { descB1 with sinc := .inc2 } := by
  unfold ValidFields MessageFields; decide

theorem witness_UnitReadTakesTheSourceValue :
    (inPeriod .primary 1 8).seq = .period 3 .primary 1 rawB1 ∧ (inPeriod .primary 1 8).rem 3 .primary = some 8 ∧
    ValidFields descB1 ∧ RamAccess chan3.cfg (srcOf descB1 8) descB1.wid.bytes ∧
    engineRead (srcOf { descB1 with srcEnd := 0x4000103F#32 } 8) 4 (inPeriod .primary 1 8) =
      .refused .engineInDmaBlock := by
  refine ⟨rfl, by decide, ⟨by decide, by decide, by decide⟩, ⟨by decide, by decide⟩, rfl⟩

theorem witness_UnitWriteStoresTheUnit :
    (midUnit .primary 1 8 7#32).seq = .moving 3 .primary 1 rawB1 7#32 ∧
    (midUnit .primary 1 8 7#32).rem 3 .primary = some 8 ∧ RamAccess chan3.cfg (dstOf (.basic descB1) descB1 8) 4 ∧
    RamAccess chan3.cfg (dstOf (.sgpri descMsg) descMsg 12) 4 ∧
    (∃ u, engineWrite 0x40002208#32 4 7#32 (midUnit .primary 1 8 7#32) = .ok () u) ∧
    engineWrite 0x40001000#32 4 7#32 (midUnit .primary 1 8 7#32) = .refused .engineInDmaBlock := by
  refine ⟨rfl, by decide, ⟨by decide, by decide⟩, ⟨by decide, by decide⟩, ⟨_, rfl⟩, rfl⟩

theorem witness_UnitBusErrorDisablesTheChannel :
    BusErrorAccess chan3.cfg (srcOf { descB1 with srcEnd := 0x20000021#32 } 8) 4 ∧
    BusErrorAccess chan3.cfg (dstOf (.basic descB1) { descB1 with dstEnd := 0x3000001F#32 } 8) 4 := by
  refine ⟨.inl (by decide), .inr ⟨0, by decide, .inr (by decide)⟩⟩

/-- For `BasicAwaitsARequestOrCompletes`, `AutoRequestRequestsItselfOrCompletes`, `PingPongSwitchesHalvesAtCompletion`,
`ScatterGatherHandsControlOver` and `DisabledPeriodEndClearsProgress`: units left and none left, the channel enabled and
not. -/
theorem witness_period_end :
    (inPeriod .primary 0 4).seq = .period 3 .primary 0 rawB1 ∧ (inPeriod .primary 0 4).rem 3 .primary = some 4 ∧
    (inPeriod .primary 0 0).rem 3 .primary = some 0 ∧ bitOf (inPeriod .primary 0 0).en 3 = true ∧
    bitOf ({ inPeriod .primary 0 0 with en := 0#32 }).en 3 = false ∧
    (inPeriod .primary 0 4).cfg.basicBuys = .period ∧ (inPeriod .primary 0 4).cfg.pingpongBuys = .period ∧
    wholeCycle.seq = .period 3 .primary 0 rawB1 ∧ wholeCycle.rem 3 .primary = some 4 ∧ bitOf wholeCycle.en 3 = true ∧
    wholeCycle.cfg.basicBuys = .cycle ∧ wholeCycle.cfg.pingpongBuys = .cycle := by decide

theorem witness_BuiltDescriptorWalksFromItsStart :
    build ⟨0x20005020#32, 0x20006020#32, 3, 2, none, some 2, 1, 2⟩ =
      .ok [0x2000501F#32, 0x20006025#32, 0x4D008021#32, 0#32] ∧ 2 < 3 ∧
    build ⟨0x20004000#32, 0x20001200#32, 12, 4, some 4, some 4, 4, 2⟩ =
      .ok [0x2000402F#32, 0x2000122F#32, 0x8A0080B4#32, 0#32] := by decide

theorem witness_BuildRoundTrips :
    build ⟨0x20000000#32, 0x20000100#32, 8, 4, some 4, some 4, 0, 2⟩ =
      .ok [0x2000001F#32, 0x2000011F#32, 0x8A008070#32, 0#32] := by decide

theorem witness_BuildRejectsInOrder :
    (∀ x, (some 1 = some x ∨ some 4 = some x) → x = 1 ∨ x = 2 ∨ x = 4) ∧
    ∃ x, (some 1 = some x ∨ some 4 = some x) ∧ x < 2 := by
  refine ⟨fun x h => ?_, 1, .inl rfl, by decide⟩
  rcases h with h | h <;> cases h <;> decide

theorem witness_StepKeepsTheInvariant : State.reset.Inv ∧ ∃ t, step State.reset = .next t := ⟨reset_inv, _, rfl⟩

theorem witness_SequencerNeverTouchesHostControl : SeqMoves chan3 [] ∧ ∃ t, step chan3 = .next t :=
  ⟨.inr ⟨rfl, rfl⟩, _, rfl⟩

/-- A completion of `BASIC`, and a bus error, that clear an enable. -/
theorem witness_HardwareDisablesOnlyAtCompletionOrError :
    (∃ t, step (inPeriod .primary 0 0) = .next t ∧ bitOf t.en 3 = false) ∧
    (∃ t, step { chan3 with pend := 8#32, base := 0x30000000#32 } = .next t ∧ bitOf t.en 3 = false) ∧
    bitOf (inPeriod .primary 0 0).en 3 = true :=
  ⟨⟨_, rfl, by decide⟩, ⟨_, rfl, by decide⟩, by decide⟩

theorem witness_PeriodLeftAloneRunsToItsEnd :
    (inPeriod .primary 1 1).agenda = [] ∧ (inPeriod .primary 1 2).rem 3 .primary = some 2 ∧
    decodeWords rawB1.w0 rawB1.w1 rawB1.w2 = .basic descB1 ∧ ValidFields descB1 ∧
    ∀ n, n < 9 → RamAccess chan3.cfg (srcOf descB1 n) descB1.wid.bytes ∧
      RamAccess chan3.cfg (dstOf (.basic descB1) descB1 n) descB1.wid.bytes := by
  unfold ValidFields RamAccess; decide

theorem witness_EngineAccess :
    RamAccess chan3.cfg 0x20000000#32 4 ∧ RamAccess chan3.cfg 0x2000FFFF#32 1 ∧ RamAccess chan3.cfg 0x20000002#32 2 ∧
    BusErrorAccess chan3.cfg 0x20000002#32 4 := by
  refine ⟨⟨by decide, by decide⟩, ⟨by decide, by decide⟩, ⟨by decide, by decide⟩, .inl (by decide)⟩

/-- A register of the DMA block, the ports, another register as a word and as its last byte, the port's upper halfword. -/
theorem witness_EngineReachesTheRegisters :
    (Platform.sample.mapped 0x4000103C#32 = .dmaReg ∧ ¬ BusErrorAccess Platform.sample 0x4000103C#32 4) ∧
    (2 : Fin 3).val < Platform.sample.nblk ∧ ¬ BusErrorAccess Platform.sample (Platform.sample.fifoReg ⟨2, 3⟩ .port) 4 ∧
    ¬ BusErrorAccess Platform.sample (Platform.sample.fifoReg ⟨0, 0⟩ .port) 1 ∧
    ¬ BusErrorAccess Platform.sample (Platform.sample.fifoReg ⟨2, 3⟩ .rsvd3c) 4 ∧
    ¬ BusErrorAccess Platform.sample (Platform.sample.fifoReg ⟨2, 3⟩ .rsvd3c + 3#32) 1 ∧
    ¬ BusErrorAccess Platform.sample (Platform.sample.fifoReg ⟨2, 3⟩ .port + 2#32) 2 := by
  unfold BusErrorAccess; decide

/-- The last word and the last halfword of RAM, written and read, and a fence with a write pending. -/
theorem witness_HostRamAccessesAndFence :
    ({ chan3 with agenda := [.host (.wr32 0x2000FFFC#32 1#32)] }).agenda = .host (.wr32 0x2000FFFC#32 1#32) :: [] ∧
    (∀ j, j < 4 → chan3.cfg.mapped (0x2000FFFC#32 + BitVec.ofNat 32 j) = .ram) ∧
    (∀ j, j < 2 → chan3.cfg.mapped (0x2000FFFE#32 + BitVec.ofNat 32 j) = .ram) ∧
    ({ chan3 with agenda := [.host .fence], pending := [sourceWord] }).pending = sourceWord :: [] ∧
    (sourceWord.map Prod.fst).Nodup ∧ sourceWord.readByte 0x20000003 ≠ none := by decide

/-- Two pending writes that share no address, two that do, and one that is not there. -/
theorem witness_DrainKeepsProgramOrderPerAddress :
    got (step { chan3 with agenda := [.drain 1], pending := [[(0, 1#8)], [(1, 2#8)]] }) (fun t => (t.mem, t.pending)) =
      some ([(1, 2#8)], [[(0, 1#8)]]) ∧
    got (step { chan3 with agenda := [.drain 1], pending := [[(0, 1#8)], [(0, 2#8)]] }) (fun t => (t.mem, t.pending)) =
      some ([], [[(0, 1#8)], [(0, 2#8)]]) ∧
    ([] : List (List Host.Cell))[0]? = none ∧ (([(1, 2#8)] : List Host.Cell).map Prod.fst).Nodup := by decide

/-- A state whose channel (2, 0) is in a mode, in bounds up to the block's last section. -/
def portState (fen dlen : Bool) : State := fifoAt { fifo8 with boff := 120#8, fen := fen, dlen := dlen }

theorem witness_FifoInitLoadsAndEmpties :
    (((portState false false).fifo ⟨2, 0⟩).fen = false ∧ ((portState false false).fifo ⟨2, 0⟩).dlen = false) ∧
    ((portState true false).fifo ⟨2, 0⟩).fen = true ∧ ((portState false true).fifo ⟨2, 0⟩).dlen = true := by decide

/-- Both modes, none, the delay line entered with the shortest, the longest and two illegal lengths, and kept. -/
theorem witness_FifoControlSwitchesModes :
    ((portState false false).fifo ⟨2, 0⟩).boff.toNat + ((portState false false).fifo ⟨2, 0⟩).len ≤
      Config.blockSections 2 ∧
    ((3#32).getLsbD 0 = true ∧ (3#32).getLsbD 1 = true) ∧ (1#32).getLsbD 1 = false ∧
    ((2#32).getLsbD 0 = false ∧ (2#32).getLsbD 1 = true) ∧ ((portState false false).fifo ⟨2, 0⟩).dlen = false ∧
    ((portState false true).fifo ⟨2, 0⟩).dlen = true ∧
    [0#16, 1#16, 8#16, 9#16].map (fun n => FifoChan.delayLegal { fifo8 with dllen := n }) =
      [false, true, true, false] := by decide

theorem witness_DelayLengthRebasesTheReadPointer :
    ((portState true false).fifo ⟨2, 0⟩).mode ≠ .delayLine ∧ ((portState false true).fifo ⟨2, 0⟩).mode = .delayLine ∧
    [0#32, 1#32, 8#32, 9#32].map (fun v => decide (1 ≤ (v.extractLsb' 0 16).toNat ∧
      (v.extractLsb' 0 16).toNat ≤ ((portState false true).fifo ⟨2, 0⟩).len)) = [false, true, true, false] := by decide

/-- Also for `FifoStatusReadsAndClears`. -/
theorem witness_FifoPointersAreReadOnly :
    ((portState true false).fifo ⟨2, 0⟩).mode ≠ .delayLine ∧ ((portState false true).fifo ⟨2, 0⟩).mode = .delayLine ∧
    ((portState false true).fifo ⟨2, 0⟩).boff.toNat + ((portState false true).fifo ⟨2, 0⟩).len ≤
      Config.blockSections 2 := by decide

/-- A port access is the right view of a channel in bounds: what 44_fifo_ring.md R324 and R305 ask before the mode. -/
def PortUsable (s : State) (id : FifoId) (n : Nat) : Prop :=
  n = (s.fifo id).unit ∧ (s.fifo id).boff.toNat + (s.fifo id).len ≤ Config.blockSections id.blk

/-- The last unit that fits, and one too many. -/
theorem witness_PushStoresOrOverflows :
    PortUsable (portState true false) ⟨2, 0⟩ 4 ∧ ((portState true false).fifo ⟨2, 0⟩).mode = .fifo ∧
    ((portState true false).fifo ⟨2, 0⟩).w32 = true ∧
    (fun f : FifoChan => f.used.toNat + f.unit ≤ f.cap) { fifo8 with used := 2044#17 } ∧
    (fun f : FifoChan => f.cap < f.used.toNat + f.unit) { fifo8 with used := 2048#17 } := by
  unfold PortUsable; decide

/-- One unit there, and none; the 16-bit view's hypotheses on channel (1, 2). -/
theorem witness_PopReturnsOrUnderflows :
    PortUsable (portState true false) ⟨2, 0⟩ 4 ∧ ((portState true false).fifo ⟨2, 0⟩).mode = .fifo ∧
    (fun f : FifoChan => f.unit ≤ f.used.toNat) { fifo8 with used := 4#17 } ∧
    (fun f : FifoChan => f.used.toNat < f.unit) fifo8 ∧
    PortUsable (State.reset.setFifo ⟨1, 2⟩ fifo16) ⟨1, 2⟩ 2 ∧ fifo16.mode = .fifo ∧ fifo16.w32 = false := by
  unfold PortUsable; decide

theorem witness_DisabledPortDiscardsAndDraws :
    PortUsable (portState false false) ⟨2, 0⟩ 4 ∧ ((portState false false).fifo ⟨2, 0⟩).mode = .disabled ∧
    ((portState false false).fifo ⟨2, 0⟩).w32 = true ∧ { fifo16 with fen := false }.mode = .disabled := by
  unfold PortUsable; decide

theorem witness_DelayLinePortMovesPointersOnly :
    PortUsable (portState false true) ⟨2, 0⟩ 4 ∧ ((portState false true).fifo ⟨2, 0⟩).mode = .delayLine ∧
    ((portState false true).fifo ⟨2, 0⟩).w32 = true := by
  unfold PortUsable; decide

/-- One section beyond block 2. -/
theorem witness_WrongViewAndOutOfBoundsAreRefused :
    fifo8.w32 = true ∧ fifo16.w32 = false ∧
    Config.blockSections 2 < { fifo8 with boff := 121#8 }.boff.toNat + { fifo8 with boff := 121#8 }.len := by decide

/-- A full, wrapped channel and an empty one of 32 bits, and a 16-bit one whose unit is the last before the wrap. -/
theorem witness_FifoRefinesAQueue :
    FifoChan.Ring { fifo8 with used := 2048#17, rd := 2044#17, wr := 2044#17 } ∧ FifoChan.Ring fifo8 ∧
    FifoChan.Ring { fifo16 with used := 2#17, rd := 1022#17, wr := 0#17 } :=
  ⟨⟨by decide, by decide, by decide, by decide, by decide, by decide⟩,
    ⟨by decide, by decide, by decide, by decide, by decide, by decide⟩,
    ⟨by decide, by decide, by decide, by decide, by decide, by decide⟩⟩

/-- A channel assigned to mover 0 in a block that exists, one in a block that does not, one not assigned. -/
theorem witness_MoverStepIsAPortAccess :
    (⟨2, 0⟩ : FifoId) ∈ ({ Platform.sample with movers := [[⟨2, 0⟩]] }).movers.getD 0 [] ∧
    (2 : Fin 3).val < Platform.sample.nblk ∧
    ¬ ((2 : Fin 3).val < ({ Platform.sample with nblk := 2, movers := [[⟨2, 0⟩]] }).nblk) ∧
    ¬ ((⟨2, 1⟩ : FifoId) ∈ ({ Platform.sample with movers := [[⟨2, 0⟩]] }).movers.getD 0 []) ∧
    why (exec (.portR32 ⟨2, 0⟩) (fifoAt { fifo8 with boff := 121#8 })) = some .fifoOutOfBounds := by decide

theorem witness_InterruptLineEquations :
    reservedClear Platform.sample 0xFFFFFFFF#32 ∧ reservedClear { Platform.sample with ch := 8 } 0xFF#32 ∧
    (fifoAt fifo8).fifo ⟨2, 0⟩ = fifo8 ∧ fifo8.mode ≠ .delayLine := by
  unfold reservedClear; decide

theorem witness_InterruptDeliveredOnlyWhileLineIsOne :
    ({ chan3 with agenda := [.deliver .dma] }).agenda = .deliver .dma :: [] ∧ chan3.line .dma = false ∧
    ({ chan3 with berr := 1#32 }).line .dma = true := by decide

theorem witness_FifoInitCommandChecksBounds :
    (2 : Fin 3).val < Platform.sample.nblk ∧ (1 ≤ 128 ∧ 0 + 128 ≤ Config.blockSections 2) ∧
    ¬ (1 ≤ 129 ∧ 0 + 129 ≤ Config.blockSections 2) ∧ ¬ (1 ≤ 0 ∧ 0 + 0 ≤ Config.blockSections 2) ∧
    FifoMode.delayLine ≠ .disabled := by decide

theorem witness_PushClampsToTheFreeSize :
    (fifoAt fifo8).cfg.wf = true ∧ (2 : Fin 3).val < (fifoAt fifo8).cfg.nblk ∧ (fifoAt fifo8).fifo ⟨2, 0⟩ = fifo8 ∧
    fifo8.mode = .fifo ∧ fifo8.boff.toNat + fifo8.len ≤ Config.blockSections 2 ∧ fifo8.Ring :=
  ⟨by decide, by decide, by decide, by decide, by decide, witness_FifoRefinesAQueue.2.1⟩

theorem witness_ModeConflictWritesNothing :
    (2 : Fin 3).val < (fifoAt fifo8).cfg.nblk ∧ ((fifoAt fifo8).fifo ⟨2, 0⟩).fen = true ∧
    ((fifoAt { fifo8 with fen := false, dlen := true }).fifo ⟨2, 0⟩).dlen = true := by decide

end Sys2Proof.Tests
end

/-! The family of 00_scope.md: the host's access to a register is the decoded instruction. -/

namespace Sys2Proof.Machine

/-- What is mapped to no register has no offset in either block: `mapped` and the decoder read the same windows. -/
theorem offsets_none_of_not_register {p : Platform} {a : Word}
    (hm : ¬ (p.mapped a = .dmaReg ∨ p.mapped a = .fifoReg)) : p.dmaOffset? a = none ∧ p.fifoOffset? a = none :=
  ⟨Option.eq_none_iff_forall_ne_some.2 fun _ hd => hm (.inl (mapped_of_dmaOffset hd)),
   Option.eq_none_iff_forall_ne_some.2 fun _ hf => hm (mapped_of_fifoOffset hf)⟩

/-- A 32-bit write that decodes is to a register. -/
theorem mapped_of_decodeWrite32 {p : Platform} {a v : Word} {i : Instr} (hd : decodeWrite32 p a v = .ok i) :
    p.mapped a = .dmaReg ∨ p.mapped a = .fifoReg := by
  by_contra hm
  obtain ⟨hdma, hfifo⟩ := offsets_none_of_not_register hm
  simp [decodeWrite32, hdma, hfifo] at hd

/-- A 32-bit read that decodes is of a register. -/
theorem mapped_of_decodeRead32 {p : Platform} {a : Word} {i : Instr} (hd : decodeRead32 p a = .ok i) :
    p.mapped a = .dmaReg ∨ p.mapped a = .fifoReg := by
  by_contra hm
  obtain ⟨hdma, hfifo⟩ := offsets_none_of_not_register hm
  simp [decodeRead32, hdma, hfifo] at hd

/-- A 16-bit access that decodes is to a register. -/
theorem mapped_of_decode16 {p : Platform} {a : Word} {f : FifoId → Instr} {i : Instr} (hd : decode16 p a f = .ok i) :
    p.mapped a = .dmaReg ∨ p.mapped a = .fifoReg := by
  by_contra hm
  obtain ⟨hdma, hfifo⟩ := offsets_none_of_not_register hm
  simp [decode16, hdma, hfifo] at hd

/-- The host's turn on an access that decodes is the decoded instruction: such an access is to a register, so it is not
taken as a RAM access (00_scope.md R17, 30_encoding.md R131). -/
theorem hostTurn_of_decodeAccess {op : HostOp} {s : State} {i : Instr} (hd : decodeAccess s.cfg op = .ok i) :
    hostTurn op s = exec i s := by
  cases op with
  | rd32 a => exact hostAccess_register (mapped_of_decodeRead32 hd) hd
  | wr32 a v => exact hostAccess_register (mapped_of_decodeWrite32 hd) hd
  | rd16 a => exact hostAccess_register (mapped_of_decode16 hd) hd
  | wr16 a v => exact hostAccess_register (mapped_of_decode16 hd) hd
  | fence => cases hd

/-- Settles O4: the step is the host's turn, and the host's turn is the decoded instruction. -/
theorem hostTurnRunsTheDecodedInstruction : Obligations.HostTurnRunsTheDecodedInstruction := by
  intro s op rest i hagenda hd
  calc step s = hostTurn op { s with agenda := rest } := step_turn hagenda
    _ = exec i { s with agenda := rest } := hostTurn_of_decodeAccess hd

end Sys2Proof.Machine

/-! The family of 10_state.md: the reset values, the interrupt lines, and the invariant every step keeps. -/

namespace Sys2Proof.Machine

/-! ### Reserved bits (10_state.md R62) -/

theorem reservedClear_iff {p : Platform} {x : Word} :
    reservedClear p x ↔ ∀ c : Chan, bitOf x c = true → c.val < p.ch := by
  have bits : reservedClear p x ↔ ∀ c : Chan, bitOf (x &&& ~~~p.chanMask) c = bitOf 0#32 c :=
    ⟨fun h c => congrArg (bitOf · c) h, word_ext⟩
  simp [bits, bitOf_chanMask]

theorem reservedClear_zero (p : Platform) : reservedClear p 0#32 := reservedClear_iff.2 (by simp)

/-- A word with fewer bits has its reserved bits 0 too. -/
theorem reservedClear.mono {p : Platform} {x y : Word} (hx : reservedClear p x)
    (hle : ∀ c, bitOf y c = true → bitOf x c = true) : reservedClear p y :=
  reservedClear_iff.2 fun c hc => reservedClear_iff.1 hx c (hle c hc)

theorem reservedClear.withBit {p : Platform} {x : Word} {c : Chan} (hx : reservedClear p x) (hc : c.val < p.ch) :
    reservedClear p (withBit x c) := by
  refine reservedClear_iff.2 fun d hd => ?_
  by_cases hcd : c = d
  · exact hcd ▸ hc
  · exact reservedClear_iff.1 hx d (by simpa [hcd] using hd)

/-- A word that differs in the bit of an existing channel only. -/
theorem reservedClear.of_eq_off {p : Platform} {x y : Word} {c : Chan} (hx : reservedClear p x) (hc : c.val < p.ch)
    (h : ∀ d, d ≠ c → bitOf y d = bitOf x d) : reservedClear p y :=
  (hx.withBit hc).mono fun d hd => by
    by_cases hdc : d = c
    · simp [hdc]
    · simp [← h d hdc, hd]

theorem reservedClear.and {p : Platform} {x : Word} (hx : reservedClear p x) (y : Word) : reservedClear p (x &&& y) :=
  hx.mono fun d hd => by
    rw [bitOf_and, Bool.and_eq_true] at hd
    exact hd.1

theorem reservedClear.withoutBit {p : Platform} {x : Word} (hx : reservedClear p x) (c : Chan) :
    reservedClear p (withoutBit x c) := hx.and _

theorem reservedClear.setOnes {p : Platform} {x : Word} (hx : reservedClear p x) (v : Word) :
    reservedClear p (setOnes p x v) := by
  refine reservedClear_iff.2 fun d hd => ?_
  simp only [bitOf_setOnes, bitOf_chanMask, Bool.or_eq_true, Bool.and_eq_true, decide_eq_true_eq] at hd
  exact hd.elim (reservedClear_iff.1 hx d) And.right

theorem reservedClear.clearOnes {p : Platform} {x : Word} (hx : reservedClear p x) (v : Word) :
    reservedClear p (clearOnes p x v) := hx.and _

/-- The field `reserved` of `State.Inv`, its ten words by name. -/
structure ReservedWords (s : State) : Prop where
  en : reservedClear s.cfg s.en
  swun : reservedClear s.cfg s.swun
  pri : reservedClear s.cfg s.pri
  alt : reservedClear s.cfg s.alt
  dien : reservedClear s.cfg s.dien
  berr : reservedClear s.cfg s.berr
  inv : reservedClear s.cfg s.inv
  done : reservedClear s.cfg s.done
  pend : reservedClear s.cfg s.pend
  run : reservedClear s.cfg s.run

theorem State.Inv.words {s : State} (h : s.Inv) : ReservedWords s := by
  obtain ⟨en, swun, pri, alt, dien, berr, inv, done, pend, run⟩ := h.reserved
  exact ⟨en, swun, pri, alt, dien, berr, inv, done, pend, run⟩

theorem ReservedWords.all {s : State} (w : ReservedWords s) :
    reservedClear s.cfg s.en ∧ reservedClear s.cfg s.swun ∧ reservedClear s.cfg s.pri ∧ reservedClear s.cfg s.alt ∧
    reservedClear s.cfg s.dien ∧ reservedClear s.cfg s.berr ∧ reservedClear s.cfg s.inv ∧ reservedClear s.cfg s.done ∧
    reservedClear s.cfg s.pend ∧ reservedClear s.cfg s.run :=
  ⟨w.en, w.swun, w.pri, w.alt, w.dien, w.berr, w.inv, w.done, w.pend, w.run⟩

/-! ### The reset state (10_state.md R61) -/

@[simp] theorem resetOf_rem (p : Platform) (c : Chan) (g : Half) : (State.resetOf p).rem c g = none := by
  simp [State.rem, State.resetOf]

@[simp] theorem resetOf_fifo (p : Platform) (id : FifoId) : (State.resetOf p).fifo id = FifoChan.reset := by
  simp [State.fifo, State.resetOf]

@[simp] theorem resetOf_block (p : Platform) (b : Fin 3) : (State.resetOf p).block b = [] := by
  simp [State.block, State.resetOf]

/-- A FIFO channel with its registers at their reset values drives its line 0: `af` and `ae` are 1, their enables 0. -/
theorem fifoIrq_of_reset {s : State} {id : FifoId} (h : s.fifo id = FifoChan.reset) : s.fifoIrq id = false := by
  simp [State.fifoIrq, h, FifoChan.reset]

/-- An external reset of any state leaves the values of R61 (70_reset_and_hazards.md R411). -/
theorem externalReset_resetValues (s : State) : Spec.ResetValues (externalReset s) := by
  have hfifo : ∀ id, (externalReset s).fifo id = FifoChan.reset := resetOf_fifo s.cfg
  refine ⟨⟨rfl, rfl⟩, fun c => ?_, rfl, fun id => ?_, by simp [State.dmaIrq, externalReset, State.resetOf]⟩
  · have hbit := bitOf_zero c
    exact ⟨hbit, hbit, hbit, hbit, hbit, hbit, hbit, hbit, hbit, hbit, fun g => resetOf_rem s.cfg c g⟩
  · have hirq := fifoIrq_of_reset (hfifo id)
    rw [hfifo, hirq]
    exact ⟨rfl, rfl, rfl, rfl, rfl, rfl, rfl, rfl, rfl, rfl, rfl, rfl, rfl, rfl, rfl, rfl⟩

/-- The reset state is an external reset of itself. -/
theorem externalReset_resetOf (p : Platform) : externalReset (State.resetOf p) = State.resetOf p := rfl

/-- Settles O6: the reset state and the turn of the external reset are both `externalReset` of a state. -/
theorem resetLeavesTheStatedValues : Obligations.ResetLeavesTheStatedValues :=
  ⟨fun p => externalReset_resetOf p ▸ externalReset_resetValues _,
   fun _ _ hagenda => ⟨_, step_turn hagenda, externalReset_resetValues _⟩⟩

/-- The reset state of a well-formed platform meets the invariant. -/
theorem resetOf_inv {p : Platform} (hp : p.wf = true) : (State.resetOf p).Inv where
  platform := hp
  memory := rfl
  blocks b := by simp [Memory.wf]
  base := by simp [State.resetOf]
  reserved := by simp [State.resetOf, reservedClear_zero]
  phase := trivial
  progress c g r hr := by simp at hr
  disabled c _ := ⟨bitOf_zero c, fun _ => ⟨bitOf_zero c, resetOf_rem p c _, resetOf_rem p c _⟩⟩
  modes id := by rw [resetOf_fifo]; decide
  pending w hw := by cases hw

/-- Settles O34. -/
theorem resetMeetsTheInvariant : Obligations.ResetMeetsTheInvariant := fun _ hp => resetOf_inv hp

/-! ### The interrupt lines (10_state.md R47, R58) -/

theorem word_ne_zero_iff {x : Word} : x ≠ 0#32 ↔ ∃ c, bitOf x c = true := by
  constructor
  · intro hx
    by_contra hn
    exact hx (word_ext fun c => by simpa using fun hc => hn ⟨c, hc⟩)
  · rintro ⟨c, hc⟩ rfl
    simp at hc

/-- The engine's line over all 32 bits of its words. -/
theorem dmaIrq_iff (s : State) : s.dmaIrq = true ↔
    ∃ c, (bitOf s.done c = true ∧ bitOf s.dien c = true) ∨ bitOf s.berr c = true ∨ bitOf s.inv c = true := by
  simp [State.dmaIrq, word_ne_zero_iff, exists_or, or_assoc]

theorem getLsbD_flagBit (x : Bool) (k i : Nat) (hk : k < 32) : (flagBit x k).getLsbD i = (x && decide (i = k)) := by
  cases x
  · simp [flagBit]
  · simp only [flagBit, if_true, BitVec.getLsbD_shiftLeft, BitVec.getLsbD_one, Bool.true_and]
    by_cases h : i = k
    · simp [h, hk]
    · simp [h]; omega

theorem levelBits_af (f : FifoChan) : f.levelBits.getLsbD 0 = f.af := by
  simp only [FifoChan.levelBits, BitVec.getLsbD_or, getLsbD_flagBit, Nat.reduceLT]
  simp

theorem levelBits_ae (f : FifoChan) : f.levelBits.getLsbD 1 = f.ae := by
  simp only [FifoChan.levelBits, BitVec.getLsbD_or, getLsbD_flagBit, Nat.reduceLT]
  simp

/-- Outside delay-line mode a reader sees the true levels. -/
theorem seenLevels_of_not_delayLine {f : FifoChan} (h : f.mode ≠ .delayLine) (draws : Nat) :
    f.seenLevels draws = f.levelBits := if_neg h

/-- Settles O56: a nonzero word has a bit, which the reserved bits place below `CH`; the levels a reader sees outside
delay-line mode are `af` and `ae`. -/
theorem interruptLineEquations : Obligations.InterruptLineEquations := by
  refine ⟨fun s hdone hberr hinv _ => ?_, fun s id hmode => ?_⟩
  · rw [dmaIrq_iff]
    refine exists_congr fun c => ⟨fun hc => ⟨?_, hc⟩, And.right⟩
    rcases hc with ⟨hc, -⟩ | hc | hc
    · exact reservedClear_iff.1 hdone c hc
    · exact reservedClear_iff.1 hberr c hc
    · exact reservedClear_iff.1 hinv c hc
  · simp only [State.fifoIrq, seenLevels_of_not_delayLine hmode, levelBits_af, levelBits_ae]
    simp [FifoChan.af, FifoChan.ae, or_assoc]

end Sys2Proof.Machine

/-! The invariant every step keeps (Safety.lean): first one rule for each kind of update, then the sequencer, the host's
registers and the other agents by these rules. -/

namespace Sys2Proof.Machine

/-! ### Updates of one part of the state -/

/-- The host's and the model's own fields are not in the invariant. -/
theorem State.Inv.ownFields {s : State} (h : s.Inv) (hostData moverData : Word) (handler : Option IrqLine)
    (agenda : List Turn) (draws : Nat) :
    State.Inv { s with hostData := hostData, moverData := moverData, handler := handler, agenda := agenda,
                       draws := draws } :=
  { h with }

theorem State.Inv.toHost {s : State} (h : s.Inv) (v : Word) : (s.toHost v).Inv := h.ownFields v _ _ _ _

/-- An access of the engine, or of a FIFO channel by anyone. -/
theorem State.Inv.dataFrame {s t : State} (h : s.Inv) (f : DataFrame s t) : t.Inv := by
  rw [f.eq]
  exact { h with memory := f.memory h.memory, blocks := f.blocks h.blocks, modes := f.modes h.modes }

/-- The words that no other part of the invariant looks at. -/
theorem State.Inv.setWords {s : State} {swun pri alt dien berr inv done : Word} (h : s.Inv)
    (hw : ReservedWords { s with swun := swun, pri := pri, alt := alt, dien := dien, berr := berr, inv := inv,
                                 done := done }) :
    State.Inv { s with swun := swun, pri := pri, alt := alt, dien := dien, berr := berr, inv := inv, done := done } :=
  { h with reserved := hw.all }

/-- Enabling more channels asks less of the disabled ones. -/
theorem State.Inv.enableMore {s : State} {x : Word} (h : s.Inv) (hx : reservedClear s.cfg x)
    (hle : ∀ c, bitOf s.en c = true → bitOf x c = true) : State.Inv { s with en := x } :=
  { h with
    reserved := ReservedWords.all { h.words with en := hx }
    disabled := fun c hc => h.disabled c (by
      by_contra hen
      simp [hle c (by simpa using hen)] at hc) }

/-- No counter stands at 0: no cycle's last unit waits for its period end (10_state.md R45). -/
def NoneSpent (s : State) : Prop := ∀ c g, s.rem c g ≠ some 0

theorem State.Inv.noneSpent {s : State} (h : s.Inv) (hq : ∀ c g d, s.seq ≠ .period c g 0 d) : NoneSpent s := by
  intro c g hr
  obtain ⟨d, hd⟩ := (h.progress c g 0 hr).2 rfl
  exact hq c g d hd

theorem NoneSpent.remOk_setSeq {s : State} (hz : NoneSpent s) (h : s.Inv) (q : SeqPhase) : remOk (s.setSeq q) :=
  fun c g _ hr => ⟨(h.progress c g _ hr).1, fun h0 => absurd (h0 ▸ hr) (hz c g)⟩

/-- The sequencer goes on to a phase it may be in: the period it leaves, if any, is of an enabled channel. -/
theorem State.Inv.setSeq {s : State} {q : SeqPhase} (h : s.Inv) (hz : NoneSpent s) (phase : phaseOk (s.setSeq q))
    (hcur : ∀ c, s.seq.curChan = some c → q.curChan = some c ∨ bitOf s.en c = true) : (s.setSeq q).Inv :=
  { h with
    phase := phase
    progress := hz.remOk_setSeq h q
    disabled := fun c hen => by
      obtain ⟨hpend, hclean⟩ := h.disabled c hen
      refine ⟨hpend, fun hq => hclean fun hs => ?_⟩
      rcases hcur c hs with hc | hc
      · exact hq hc
      · simp [hc] at hen }

/-! ### The sequencer at work -/

/-- The sequencer may go on with channel `c`, or raise an error event of it: the channel exists, no other channel's period
is in flight, and no cycle waits for its period end. -/
structure AtWork (c : Chan) (s : State) : Prop where
  exist : c.val < s.cfg.ch
  cur : ∀ d, s.seq.curChan = some d → d = c
  noneSpent : NoneSpent s

theorem AtWork.dataFrame {c : Chan} {s t : State} (hw : AtWork c s) (f : DataFrame s t) : AtWork c t := by
  rw [f.eq]
  exact ⟨hw.exist, hw.cur, hw.noneSpent⟩

/-- A period of the channel at work: at admission, and after a unit is moved. -/
theorem State.Inv.setPeriod {s : State} {c : Chan} {g : Half} {r k : Nat} {w : RawDesc} (h : s.Inv) (hw : AtWork c s)
    (hr : r ≤ Config.maxUnits) (hk : k ≤ r) : ((s.setRem c g (some r)).setSeq (.period c g k w)).Inv :=
  { h with
    phase := ⟨hw.exist, r, by simp, hk⟩
    progress := fun d i n hn => by
      rw [State.rem_setSeq, State.rem_setRem] at hn
      split at hn
      · next hdi =>
        obtain ⟨rfl, rfl⟩ := hdi
        cases hn
        exact ⟨hr, fun h0 => ⟨w, by simp [show k = 0 by omega]⟩⟩
      · exact ⟨(h.progress d i n hn).1, fun h0 => absurd (h0 ▸ hn) (hw.noneSpent d i)⟩
    disabled := fun d hen => by
      obtain ⟨hpend, hclean⟩ := h.disabled d hen
      refine ⟨hpend, fun hd => ?_⟩
      have hcd : c ≠ d := fun e => hd (congrArg some e)
      simpa [hcd] using hclean fun hs => hcd (hw.cur d hs).symm }

/-! ### Leaving the enabled state (41_channel_engine.md R231)

Between a period's end and its clean-up channel `c` may be disabled and still hold a request and progress. -/

/-- The invariant but for what it asks of `c` if `c` is disabled: `c` counts as enabled. -/
def InvButFor (c : Chan) (s : State) : Prop := State.Inv { s with en := withBit s.en c }

theorem State.Inv.butFor {s : State} {c : Chan} (h : s.Inv) (hc : c.val < s.cfg.ch) : InvButFor c s :=
  h.enableMore (h.words.en.withBit hc) fun d hd => by simp [hd]

/-- The sequencer comes to rest with units left. -/
theorem InvButFor.rest {c : Chan} {s : State} (h : InvButFor c s) (hcur : ∀ d, s.seq.curChan = some d → d = c)
    (hz : NoneSpent s) : InvButFor c (s.setSeq .idle) :=
  State.Inv.setSeq h hz trivial fun d hd => .inr (by simp [hcur d hd])

/-- The sequencer comes to rest after a cycle's last unit, the counter back to `IDLE` (41_channel_engine.md R224). -/
theorem InvButFor.complete {c : Chan} {g : Half} {w : RawDesc} {s : State} (h : InvButFor c s)
    (hs : s.seq = .period c g 0 w) : InvButFor c ((s.setSeq .idle).setRem c g none) := by
  have hinv : State.Inv { s with en := withBit s.en c } := h
  exact
  { hinv with
    phase := trivial
    progress := fun d i n hn => by
      have hn : ((s.setSeq .idle).setRem c g none).rem d i = some n := hn
      rw [State.rem_setRem] at hn
      split at hn
      · cases hn
      · next hdi =>
        obtain ⟨hle, hzero⟩ := hinv.progress d i n hn
        refine ⟨hle, fun h0 => ?_⟩
        obtain ⟨w', hw'⟩ := hzero h0
        cases hs.symm.trans hw'
        exact absurd ⟨rfl, rfl⟩ hdi
    disabled := fun d hd => by
      have hcd : c ≠ d := by rintro rfl; simp at hd
      obtain ⟨hpend, hclean⟩ := hinv.disabled d hd
      obtain ⟨hrun, hpri, halt⟩ := hclean (by simpa [hs, SeqPhase.curChan] using hcd)
      have hrem : ∀ i, ((s.setSeq .idle).setRem c g none).rem d i = s.rem d i := by simp [hcd]
      exact ⟨hpend, fun _ => ⟨hrun, (hrem _).trans hpri, (hrem _).trans halt⟩⟩ }

/-- The continuation and completion actions. -/
theorem InvButFor.action {c : Chan} {s t : State} (h : InvButFor c s) (f : ActionFrame c s t) : InvButFor c t := by
  have hinv : State.Inv { s with en := withBit s.en c } := h
  have hc : c.val < s.cfg.ch := reservedClear_iff.1 hinv.words.en c (by simp)
  have hen : withBit t.en c = withBit s.en c := word_ext fun d => by
    by_cases hdc : d = c
    · simp [hdc]
    · simp [f.en d hdc]
  unfold InvButFor
  rw [hen, f.eq]
  exact
  { hinv with
    reserved := ReservedWords.all
      { hinv.words with
        alt := hinv.words.alt.of_eq_off hc f.alt
        done := hinv.words.done.of_eq_off hc f.done
        pend := hinv.words.pend.of_eq_off hc f.pend }
    disabled := fun d hd => by
      have hdc : d ≠ c := by rintro rfl; simp at hd
      obtain ⟨hpend, hclean⟩ := hinv.disabled d hd
      exact ⟨(f.pend d hdc).trans hpend, hclean⟩ }

/-- At rest every other disabled channel is clean. -/
theorem InvButFor.clean {c d : Chan} {s : State} (h : InvButFor c s) (hs : s.seq = .idle) (hdc : d ≠ c)
    (hd : bitOf s.en d = false) :
    bitOf s.pend d = false ∧ bitOf s.run d = false ∧ s.rem d .primary = none ∧ s.rem d .alternate = none := by
  have hinv : State.Inv { s with en := withBit s.en c } := h
  obtain ⟨hpend, hclean⟩ := hinv.disabled d (by simp [hd, Ne.symm hdc])
  exact ⟨hpend, hclean (by simp [hs, SeqPhase.curChan])⟩

/-- The clean-up makes good what was put off. -/
theorem InvButFor.cleanUp {c : Chan} {s : State} (h : InvButFor c s) (hs : s.seq = .idle) : (cleanUp c s).Inv := by
  have hinv : State.Inv { s with en := withBit s.en c } := h
  cases hen : bitOf s.en c with
  | true =>
    have hsame : withBit s.en c = s.en := word_ext fun d => by
      by_cases hcd : c = d
      · simp [← hcd, hen]
      · simp [hcd]
    rw [cleanUp_enabled hen]
    rwa [hsame] at hinv
  | false =>
    have hrem := fun d g => (cleanUp_rem s c d g)
    simp only [hen, true_and] at hrem
    rw [cleanUp_disabled hen] at hrem ⊢
    exact
    { hinv with
      reserved := ReservedWords.all
        { hinv.words with
          en := hinv.words.en.mono fun d hd => by simp [hd]
          pend := hinv.words.pend.withoutBit c
          run := hinv.words.run.withoutBit c }
      phase := by simp [phaseOk, hs]
      progress := fun d g n hn => by
        rw [hrem] at hn
        split at hn
        · cases hn
        · exact hinv.progress d g n hn
      disabled := fun d hd => by
        rw [hrem, hrem]
        by_cases hcd : c = d
        · simp [hcd]
        · obtain ⟨hpend, hrun, hpri, halt⟩ := h.clean hs (Ne.symm hcd) hd
          simp [hcd, hpend, hrun, hpri, halt] }

/-- The status bit set and the enable cleared, before the clean-up of an error event. -/
theorem InvButFor.raised {c : Chan} {s : State} {berr inv : Word} (h : InvButFor c s) (hberr : reservedClear s.cfg berr)
    (hinv : reservedClear s.cfg inv) : InvButFor c { s with berr := berr, inv := inv, en := withoutBit s.en c } := by
  have hs : State.Inv { s with en := withBit s.en c } := h
  have hen : withBit (withoutBit s.en c) c = withBit s.en c := word_ext fun d => by
    by_cases hcd : c = d <;> simp [hcd]
  unfold InvButFor
  rw [hen]
  exact hs.setWords { hs.words with berr := hberr, inv := hinv }

/-- The two error events of the channel at work (60_exceptions.md R372, R373). -/
theorem State.Inv.raiseError {s : State} {c : Chan} (h : s.Inv) (hw : AtWork c s) :
    (raiseEvent .busErr c s).Inv ∧ (raiseEvent .invDesc c s).Inv := by
  have hrest := (h.butFor hw.exist).rest hw.cur hw.noneSpent
  exact ⟨(hrest.raised (h.words.berr.withBit hw.exist) h.words.inv).cleanUp rfl,
    (hrest.raised h.words.berr (h.words.inv.withBit hw.exist)).cleanUp rfl⟩

end Sys2Proof.Machine

/-! The sequencer keeps the invariant. -/

namespace Sys2Proof.Machine

/-! ### Reading the phase -/

/-- What the invariant says of a period with no unit under way. -/
theorem State.Inv.of_period {s : State} {c : Chan} {g : Half} {k : Nat} {w : RawDesc} (h : s.Inv)
    (hs : s.seq = .period c g k w) : c.val < s.cfg.ch ∧ ∃ r, s.rem c g = some r ∧ k ≤ r := by
  simpa [phaseOk, hs] using h.phase

/-- What the invariant says of a period with a unit under way. -/
theorem State.Inv.of_moving {s : State} {c : Chan} {g : Half} {k : Nat} {w : RawDesc} {v : Word} (h : s.Inv)
    (hs : s.seq = .moving c g k w v) : c.val < s.cfg.ch ∧ ∃ r, s.rem c g = some r ∧ 1 ≤ k ∧ k ≤ r := by
  simpa [phaseOk, hs] using h.phase

/-- The sequencer is at work for `c` at each of its phases but the period end. -/
theorem State.Inv.atWork {s : State} {c : Chan} (h : s.Inv) (hc : c.val < s.cfg.ch)
    (hcur : ∀ d, s.seq.curChan = some d → d = c) (hq : ∀ d g w, s.seq ≠ .period d g 0 w) : AtWork c s :=
  ⟨hc, hcur, h.noneSpent hq⟩

theorem State.Inv.atWork_period {s : State} {c : Chan} {g : Half} {k : Nat} {w : RawDesc} (h : s.Inv)
    (hs : s.seq = .period c g k w) (hk : k ≠ 0) : AtWork c s :=
  h.atWork (h.of_period hs).1 (by simp [hs, SeqPhase.curChan]) (by simp [hs, hk])

theorem State.Inv.atWork_moving {s : State} {c : Chan} {g : Half} {k : Nat} {w : RawDesc} {v : Word} (h : s.Inv)
    (hs : s.seq = .moving c g k w v) : AtWork c s :=
  h.atWork (h.of_moving hs).1 (by simp [hs, SeqPhase.curChan]) (by simp [hs])

/-- An access leaves the sequencer's phase. -/
theorem DataFrame.seq_eq {s t : State} (f : DataFrame s t) : t.seq = s.seq := by rw [f.eq]

/-- An access leaves the platform. -/
theorem DataFrame.cfg_eq {s t : State} (f : DataFrame s t) : t.cfg = s.cfg := by rw [f.eq]

/-- An access leaves the progress. -/
theorem DataFrame.rem_eq {s t : State} (f : DataFrame s t) (c : Chan) (g : Half) : t.rem c g = s.rem c g :=
  State.rem_congr (by rw [f.eq]) c g

/-! ### The fetch (41_channel_engine.md R214, R215) -/

/-- A read of the fetch keeps the invariant if what follows it does. -/
theorem fetchRead_keepsInv {c : Chan} {a : Word} {go : Word → State → Host.Outcome State Fault Refusal} {s t : State}
    (h : s.Inv) (hw : AtWork c s)
    (hgo : ∀ v u, u.Inv → AtWork c u → u.seq = s.seq → go v u = .next t → t.Inv)
    (hx : fetchRead c a go s = .next t) : t.Inv := by
  obtain ⟨v, u, -, hf, hu⟩ | ⟨-, rfl⟩ := fetchRead_cases hx
  · exact hgo v u (h.dataFrame hf) (hw.dataFrame hf) hf.seq_eq hu
  · exact (h.raiseError hw).1

/-- The fetch of a granted channel goes on: no period is in flight. -/
theorem State.Inv.setFetch {s : State} {c : Chan} {q : SeqPhase} (h : s.Inv) (hw : AtWork c s)
    (hcur : s.seq.curChan = none) (phase : phaseOk (s.setSeq q)) : (s.setSeq q).Inv :=
  h.setSeq hw.noneSpent phase (by simp [hcur])

/-- The grant of an enabled, existing channel. -/
theorem State.Inv.granted {s : State} {c : Chan} (h : s.Inv) (hc : c.val < s.cfg.ch) (hen : bitOf s.en c = true) :
    (granted c s).Inv :=
  { h with
    reserved := ReservedWords.all
      { h.words with pend := h.words.pend.withoutBit c, run := h.words.run.withBit hc }
    disabled := fun d hd => by
      have hcd : c ≠ d := by rintro rfl; exact absurd (hen.symm.trans hd) (by simp)
      obtain ⟨hpend, hclean⟩ := h.disabled d hd
      refine ⟨by simp [Machine.granted, hpend], fun hq => ?_⟩
      obtain ⟨hrun, hrem⟩ := hclean hq
      exact ⟨by simp [Machine.granted, hcd, hrun], hrem⟩ }

theorem grant_keepsInv {s t : State} (h : s.Inv) (hs : s.seq = .idle) (hx : grant s = .next t) : t.Inv := by
  cases ha : arbitrate s with
  | none => rw [grant_none ha] at hx; cases hx; exact h
  | some c =>
    obtain ⟨hc, hen, -⟩ := mem_candidates.1 (mem_contenders.1 (arbitrate_mem ha)).1
    have hcur : (granted c s).seq.curChan = none := by simp [hs, SeqPhase.curChan]
    have hg := h.granted hc hen
    rw [grant_some ha] at hx
    have hwork := hg.atWork hc (by simp [hs, SeqPhase.curChan]) (by simp [hs])
    refine fetchRead_keepsInv hg hwork (fun v u hu hw hseq hgo => ?_) hx
    cases hgo
    exact hu.setFetch hw (hseq ▸ hcur) hw.exist

/-! ### The period -/

theorem periodLength_le (d : Desc) (r : Nat) : d.periodLength r ≤ r := Nat.min_le_right _ _

/-- The units left at admission: those of the cycle in progress, or the descriptor's count. -/
theorem unitsLeft_le {s : State} (h : s.Inv) (c : Chan) (g : Half) (d : Desc) :
    (s.rem c g).getD d.count ≤ Config.maxUnits := by
  cases hr : s.rem c g with
  | none => have := d.nm1.isLt; simp [Desc.count, Config.maxUnits]; omega
  | some r => exact (h.progress c g r hr).1

/-- The meaning of the descriptor just fetched: the period begins, or the event. -/
theorem exec_fetched_keepsInv {s t : State} {c : Chan} {g : Half} {w : RawDesc} {w0 w1 w2 : Word} (h : s.Inv)
    (hw : AtWork c s) (hx : exec (decodeWords w0 w1 w2) (s.setSeq (.fetched c g w)) = .next t) : t.Inv := by
  obtain ⟨d, rule, -, e⟩ | e := exec_decodeWords w0 w1 w2 (s.setSeq (.fetched c g w)) <;> rw [e] at hx
  · rw [runDescriptor_fetched rfl] at hx
    obtain ⟨-, rfl⟩ | ⟨-, -, rfl⟩ := admit_cases hx
    · exact (h.raiseError hw).2
    · exact h.setPeriod hw (unitsLeft_le h c g d) (periodLength_le d _)
  · rw [runInvalid_fetched rfl] at hx
    cases hx
    exact (h.raiseError hw).2

theorem unitRead_keepsInv {s t : State} {d : Desc} {c : Chan} {g : Half} {k : Nat} {w : RawDesc} (h : s.Inv)
    (hs : s.seq = .period c g k w) (hk : k ≠ 0) (hx : unitRead d c g k w s = .next t) : t.Inv := by
  have hw := h.atWork_period hs hk
  obtain ⟨v, u, -, hf, rfl⟩ | ⟨-, rfl⟩ := unitRead_cases hx
  · have hu := h.dataFrame hf
    have hus := hf.seq_eq.trans hs
    obtain ⟨hc, r, hr, hkr⟩ := hu.of_period hus
    exact hu.setSeq (hw.dataFrame hf).noneSpent ⟨hc, r, hr, Nat.pos_of_ne_zero hk, hkr⟩
      fun e he => .inl (by simpa [hus, SeqPhase.curChan] using he)
  · exact (h.raiseError hw).1

theorem unitWrite_keepsInv {s t : State} {rule : CycleRule} {d : Desc} {c : Chan} {g : Half} {k : Nat} {w : RawDesc}
    {v : Word} (h : s.Inv) (hs : s.seq = .moving c g k w v) (hx : unitWrite rule d c g k w v s = .next t) : t.Inv := by
  have hw := h.atWork_moving hs
  obtain ⟨u, -, hf, rfl⟩ | ⟨-, rfl⟩ := unitWrite_cases hx
  · obtain ⟨-, r, hr, -, hkr⟩ := h.of_moving hs
    have hmax := (h.progress c g r hr).1
    rw [hr, Option.getD_some]
    exact (h.dataFrame hf).setPeriod (hw.dataFrame hf) (by omega) (by omega)
  · exact (h.raiseError hw).1

/-- An action leaves the sequencer's phase. -/
theorem ActionFrame.seq_eq {c : Chan} {s t : State} (f : ActionFrame c s t) : t.seq = s.seq := by rw [f.eq]

/-- The period end: whatever action the rule takes for `c`, the clean-up of `c` follows it. -/
theorem periodEnd_keepsInv {s : State} {rule : CycleRule} {c : Chan} {g : Half} {w : RawDesc} (h : s.Inv)
    (hrule : rule.Framed) (hs : s.seq = .period c g 0 w) : (periodEnd rule c g s).Inv := by
  have hbut := h.butFor (h.of_period hs).1
  rw [periodEnd_eq]
  split
  · next hleft =>
    have hz : NoneSpent s := fun d i hr => by
      obtain ⟨w', hw'⟩ := (h.progress d i 0 hr).2 rfl
      cases hs.symm.trans hw'
      simp [hr] at hleft
    have haction := (hrule c (s.setSeq .idle)).1
    exact ((hbut.rest (by simp [hs, SeqPhase.curChan]) hz).action haction).cleanUp haction.seq_eq
  · have haction := (hrule c ((s.setSeq .idle).setRem c g none)).2
    exact ((hbut.complete hs).action haction).cleanUp haction.seq_eq

/-! ### The descriptor's meaning in a resting machine -/

theorem runDescriptor_keepsInv {s t : State} {rule : CycleRule} {d : Desc} (h : s.Inv) (hrule : rule.Framed)
    (hx : runDescriptor rule d s = .next t) : t.Inv := by
  cases hs : s.seq with
  | fetched c g w => exact absurd h.phase (by simp [phaseOk, hs])
  | period c g k w =>
    by_cases hk : k = 0
    · subst hk
      rw [runDescriptor_end hs] at hx
      cases hx
      exact periodEnd_keepsInv h hrule hs
    · rw [runDescriptor_period hs hk] at hx
      exact unitRead_keepsInv h hs hk hx
  | moving c g k w v =>
    rw [runDescriptor_moving hs] at hx
    exact unitWrite_keepsInv h hs hx
  | idle | fetch1 | fetch2 =>
    unfold runDescriptor at hx
    rw [hs] at hx
    cases hx
    exact h

theorem runInvalid_keepsInv {s t : State} (h : s.Inv) (hx : runInvalid s = .next t) : t.Inv := by
  cases hs : s.seq with
  | fetched c g w => exact absurd h.phase (by simp [phaseOk, hs])
  | _ =>
    unfold runInvalid at hx
    rw [hs] at hx
    cases hx
    exact h

theorem exec_decodeWords_keepsInv {s t : State} {w0 w1 w2 : Word} (h : s.Inv)
    (hx : exec (decodeWords w0 w1 w2) s = .next t) : t.Inv := by
  obtain ⟨d, rule, hrule, e⟩ | e := exec_decodeWords w0 w1 w2 s <;> rw [e] at hx
  · exact runDescriptor_keepsInv h hrule hx
  · exact runInvalid_keepsInv h hx

/-- Every turn of the sequencer keeps the invariant. -/
theorem seqTurn_keepsInv {s t : State} (h : s.Inv) (hx : seqTurn s = .next t) : t.Inv := by
  cases hs : s.seq with
  | idle => rw [seqTurn_idle hs] at hx; exact grant_keepsInv h hs hx
  | fetch1 c g a w0 =>
    have hc : c.val < s.cfg.ch := by simpa [phaseOk, hs] using h.phase
    have hcur : s.seq.curChan = none := by simp [hs, SeqPhase.curChan]
    rw [seqTurn_fetch1 hs] at hx
    refine fetchRead_keepsInv h (h.atWork hc (by simp [hcur]) (by simp [hs])) (fun v u hu hw hseq hgo => ?_) hx
    cases hgo
    exact hu.setFetch hw (hseq ▸ hcur) hw.exist
  | fetch2 c g a w0 w1 =>
    have hc : c.val < s.cfg.ch := by simpa [phaseOk, hs] using h.phase
    rw [seqTurn_fetch2 hs] at hx
    exact fetchRead_keepsInv h (h.atWork hc (by simp [hs, SeqPhase.curChan]) (by simp [hs]))
      (fun v u hu hw _ hgo => exec_fetched_keepsInv hu hw hgo) hx
  | fetched c g w => exact absurd h.phase (by simp [phaseOk, hs])
  | period c g k w => rw [seqTurn_period hs] at hx; exact exec_decodeWords_keepsInv h hx
  | moving c g k w v => rw [seqTurn_moving hs] at hx; exact exec_decodeWords_keepsInv h hx

end Sys2Proof.Machine

/-! The host's registers, the other agents, and the whole step keep the invariant. -/

namespace Sys2Proof.Machine

/-! ### The DMA register block -/

theorem execDmaBasePtrW_keepsInv {s t : State} {v : Word} (h : s.Inv) (hx : execDmaBasePtrW v s = .next t) : t.Inv := by
  cases hx
  exact { h with base := by simp [BitVec.and_assoc] }

theorem execDmaEnSetW_keepsInv {s t : State} {v : Word} (h : s.Inv) (hx : execDmaEnSetW v s = .next t) : t.Inv := by
  cases hx
  exact h.enableMore (h.words.en.setOnes v) fun c hc => by simp [hc]

/-- The running flags after a host clear of enable bits: dropped at once unless a period of the channel is in flight. -/
theorem bitOf_clearEnables_run (v : Word) (s : State) (d : Chan) : bitOf (clearEnables v s).run d =
    (bitOf s.run d && !(bitOf (v &&& s.cfg.chanMask) d && decide (s.seq.curChan ≠ some d))) := by
  unfold clearEnables
  cases s.seq.curChan <;> simp

/-- A host clear of enable bits leaves the progress of the period in flight. -/
theorem clearEnables_rem_of_cur {v : Word} {s : State} {c : Chan} (hc : s.seq.curChan = some c) (g : Half) :
    (clearEnables v s).rem c g = s.rem c g := by
  rw [clearEnables_rem, if_neg (fun hn => hn.2 hc)]

theorem clearEnables_phaseOk {v : Word} {s : State} (h : s.Inv) : phaseOk (clearEnables v s) := by
  unfold phaseOk
  rw [clearEnables_seq, clearEnables_cfg]
  cases hs : s.seq with
  | idle => trivial
  | fetched => exact absurd h.phase (by simp [phaseOk, hs])
  | fetch1 | fetch2 => simpa [phaseOk, hs] using h.phase
  | period c g k w =>
    simpa [clearEnables_rem_of_cur (v := v) (c := c) (by rw [hs]; rfl)] using h.of_period hs
  | moving c g k w x =>
    simpa [clearEnables_rem_of_cur (v := v) (c := c) (by rw [hs]; rfl)] using h.of_moving hs

/-- A host clear of enable bits (41_channel_engine.md R205). -/
theorem clearEnables_keepsInv {s : State} (h : s.Inv) (v : Word) : (clearEnables v s).Inv :=
  { h with
    reserved := ReservedWords.all
      { h.words with
        en := h.words.en.and _
        pend := h.words.pend.and _
        run := h.words.run.and _ }
    phase := clearEnables_phaseOk h
    progress := fun c g r hr => by
      rw [clearEnables_rem] at hr
      split at hr
      · cases hr
      · simpa using h.progress c g r hr
    disabled := fun c hen => by
      rw [clearEnables_seq, bitOf_clearEnables_run, clearEnables_rem, clearEnables_rem]
      cases hm : bitOf (v &&& s.cfg.chanMask) c with
      | true =>
        have hpend : bitOf (clearEnables v s).pend c = false := by
          simp only [clearEnables, bitOf_and (s.pend), bitOf_not, hm]; simp
        exact ⟨hpend, fun hq => by simp [hq]⟩
      | false =>
        have hold : bitOf s.en c = false := by
          simp only [clearEnables, bitOf_and (s.en), bitOf_not, hm] at hen; simpa using hen
        obtain ⟨hpend, hclean⟩ := h.disabled c hold
        exact ⟨by simp [clearEnables, hpend], fun hq => by simpa using hclean hq⟩ }

/-- A request is latched on enabled channels only. -/
theorem State.Inv.request {s : State} {x : Word} (h : s.Inv) (hx : reservedClear s.cfg x)
    (hen : ∀ c, bitOf x c = true → bitOf s.pend c = true ∨ bitOf s.en c = true) : State.Inv { s with pend := x } :=
  { h with
    reserved := ReservedWords.all { h.words with pend := hx }
    disabled := fun c hc => by
      obtain ⟨hpend, hclean⟩ := h.disabled c hc
      refine ⟨?_, hclean⟩
      by_contra hxc
      rcases hen c (by simpa using hxc) with hp | he
      · simp [hpend] at hp
      · exact absurd (he.symm.trans hc) (by simp) }

theorem softwareRequests_keepsInv {s : State} (h : s.Inv) (v : Word) : (softwareRequests v s).Inv := by
  refine h.request (reservedClear_iff.2 fun c hc => ?_) fun c hc => ?_
  · simp only [bitOf_or, bitOf_and, Bool.or_eq_true, Bool.and_eq_true] at hc
    rcases hc with hc | ⟨⟨-, hc⟩, -⟩
    · exact reservedClear_iff.1 h.words.pend c hc
    · exact reservedClear_iff.1 h.words.en c hc
  · simp only [bitOf_or, bitOf_and, Bool.or_eq_true, Bool.and_eq_true] at hc
    exact hc.imp_right fun hc => hc.1.2

theorem hardwareRequest_keepsInv {s : State} (h : s.Inv) (c : Chan) : (hardwareRequest c s).Inv := by
  unfold hardwareRequest
  split
  · next hacc =>
    simp only [Bool.and_eq_true, decide_eq_true_eq] at hacc
    obtain ⟨⟨hc, hen⟩, -⟩ := hacc
    refine h.request (h.words.pend.withBit hc) fun d hd => ?_
    by_cases hcd : c = d
    · exact .inr (hcd ▸ hen)
    · exact .inl (by simpa [hcd] using hd)
  · exact h

theorem acknowledge_keepsInv {s : State} (h : s.Inv) (e : Event) (v : Word) : (acknowledge e v s).Inv := by
  cases e with
  | done => exact h.setWords { h.words with done := h.words.done.clearOnes v }
  | busErr => exact h.setWords { h.words with berr := h.words.berr.clearOnes v }
  | invDesc => exact h.setWords { h.words with inv := h.words.inv.clearOnes v }

/-! ### The FIFO registers and the ports -/

theorem written_keepsInv {s t : State} {x : Acc Unit} (h : s.Inv) (hf : ∀ u, x = .ok () u → DataFrame s u)
    (hx : x.written s = .next t) : t.Inv := by
  cases x with
  | ok _ u => cases hx; exact h.dataFrame (hf _ rfl)
  | busErr => cases hx; exact h
  | refused => cases hx

theorem returned_keepsInv {s t : State} {x : Acc Word} (h : s.Inv) (hf : ∀ v u, x = .ok v u → DataFrame s u)
    (hx : x.returned s = .next t) : t.Inv := by
  cases x with
  | ok v u => cases hx; exact (h.dataFrame (hf _ _ rfl)).toHost v
  | busErr => cases hx; exact h
  | refused => cases hx

/-! ### Every instruction -/

/-- Every instruction keeps the invariant, whoever runs it. -/
theorem exec_keepsInv {s t : State} (h : s.Inv) (i : Instr) (hx : exec i s = .next t) : t.Inv := by
  cases i
  case stop | rsvd6 | rsvd7 => exact runInvalid_keepsInv h hx
  case basic => exact runDescriptor_keepsInv h basicRule_framed hx
  case autoreq => exact runDescriptor_keepsInv h autoreqRule_framed hx
  case pingpong => exact runDescriptor_keepsInv h pingpongRule_framed hx
  case sgpri => exact runDescriptor_keepsInv h sgpriRule_framed hx
  case sgalt => exact runDescriptor_keepsInv h sgaltRule_framed hx
  case dmaBasePtrW => exact execDmaBasePtrW_keepsInv h hx
  case dmaEnSetW => exact execDmaEnSetW_keepsInv h hx
  case dmaEnStatW v => cases hx; exact clearEnables_keepsInv h v
  case dmaSwreqW v => cases hx; exact softwareRequests_keepsInv h v
  case dmaSwunmaskSetW v => cases hx; exact h.setWords { h.words with swun := h.words.swun.setOnes v }
  case dmaSwunmaskClrW v => cases hx; exact h.setWords { h.words with swun := h.words.swun.clearOnes v }
  case dmaPriSetW v => cases hx; exact h.setWords { h.words with pri := h.words.pri.setOnes v }
  case dmaPriClrW v => cases hx; exact h.setWords { h.words with pri := h.words.pri.clearOnes v }
  case dmaAltSetW v => cases hx; exact h.setWords { h.words with alt := h.words.alt.setOnes v }
  case dmaAltClrW v => cases hx; exact h.setWords { h.words with alt := h.words.alt.clearOnes v }
  case dmaDoneIenSetW v => cases hx; exact h.setWords { h.words with dien := h.words.dien.setOnes v }
  case dmaDoneIenClrW v => cases hx; exact h.setWords { h.words with dien := h.words.dien.clearOnes v }
  case dmaBuserrStatW v => cases hx; exact acknowledge_keepsInv h .busErr v
  case dmaInvdescStatW v => cases hx; exact acknowledge_keepsInv h .invDesc v
  case dmaDoneStatW v => cases hx; exact acknowledge_keepsInv h .done v
  case fifoInitW => exact written_keepsInv h (fun _ => fifoInitWrite_frame) hx
  case fifoCtrlW => exact written_keepsInv h (fun _ => fifoCtrlWrite_frame) hx
  case fifoAfThrW id v => exact written_keepsInv h (fun _ => fifoWrite32_frame (r := .afThr)) hx
  case fifoAeThrW id v => exact written_keepsInv h (fun _ => fifoWrite32_frame (r := .aeThr)) hx
  case fifoDlLenW => exact written_keepsInv h (fun _ => fifoDlLenWrite_frame) hx
  case fifoStatW id v => exact written_keepsInv h (fun _ => fifoWrite32_frame (r := .stat)) hx
  case fifoStatR id => exact returned_keepsInv h (fun _ _ => fifoRead32_frame (r := .stat)) hx
  case portW16 | portW32 => exact written_keepsInv h (fun _ => portWrite_frame) hx
  case portR16 | portR32 => exact returned_keepsInv h (fun _ _ => portRead_frame) hx
  case dmaAltBasePtrW | fifoRdptrW | fifoWrptrW | fifoUsedW | fifoRsvd28W | fifoRsvd2cW | fifoRsvd30W | fifoRsvd34W |
      fifoRsvd38W | fifoRsvd3cW =>
    cases hx
    exact h
  all_goals
    -- the reads that only hand a value to the host
    cases hx
    exact h.toHost _

/-! ### The host's RAM accesses and its pending writes (20_memory.md R108) -/

/-- A value's cells stand at the addresses it is stored to. -/
theorem map_fst_cellsOf (addrs : List Nat) (v : Word) : (cellsOf addrs v).map Prod.fst = addrs :=
  List.map_fst_zip (by simp)

theorem hostRamRead_keepsInv {s t : State} {a : Word} {n : Nat} (h : s.Inv) (hx : hostRamRead a n s = .next t) : t.Inv := by
  obtain ⟨-, rfl⟩ := hostRamRead_cases hx
  exact h.ownFields _ _ _ _ _

theorem hostRamWrite_keepsInv {s t : State} {a : Word} {n : Nat} {v : Word} (h : s.Inv) (hn : n ≤ 2 ^ 32)
    (hx : hostRamWrite a n v s = .next t) : t.Inv := by
  obtain ⟨-, rfl⟩ := hostRamWrite_cases hx
  exact
  { h with
    pending := fun w hw => by
      rcases List.mem_append.1 hw with hw | hw
      · exact h.pending w hw
      · rw [List.mem_singleton.1 hw, map_fst_cellsOf]
        exact byteAddrs_nodup a n hn }

/-- What a drain leaves pending was pending. -/
theorem mem_of_takePending {ws rest : List (List Host.Cell)} {i : Nat} {x : List Host.Cell}
    (ht : takePending ws i = some (x, rest)) : ∀ w ∈ rest, w ∈ ws := by
  induction ws generalizing i rest with
  | nil => cases ht
  | cons y ws ih =>
    cases i with
    | zero => cases ht; exact fun w => List.mem_cons_of_mem _
    | succ i =>
      simp only [takePending] at ht
      split at ht
      · next hrest =>
        split at ht
        · cases ht
        · cases ht
          exact List.forall_mem_cons.2 ⟨List.mem_cons_self, fun w hw => List.mem_cons_of_mem _ (ih hrest w hw)⟩
      · cases ht

theorem drainWrite_keepsInv {s : State} (h : s.Inv) (i : Nat) : (drainWrite i s).Inv := by
  obtain ⟨x, rest, ht, e⟩ | ⟨-, e⟩ := drainWrite_cases i s <;> rw [e]
  · exact
    { h with
      memory := Memory.writeCells_wf x s.mem h.memory
      pending := fun w hw => h.pending w (mem_of_takePending ht w hw) }
  · exact h

theorem fenceTurn_keepsInv {s : State} (h : s.Inv) : (fenceTurn s).Inv := by
  unfold fenceTurn
  split
  · exact h
  · exact (drainWrite_keepsInv h 0).ownFields _ _ _ _ _

theorem hostAccess_keepsInv {s t : State} {a : Word} {op : HostOp} {ram : Host.Outcome State Fault Refusal} (h : s.Inv)
    (hram : ram = .next t → t.Inv) (hx : hostAccess a op ram s = .next t) : t.Inv := by
  unfold hostAccess at hx
  split at hx
  case h_1 | h_2 =>
    split at hx
    · exact exec_keepsInv h _ hx
    · cases hx
  case h_3 | h_4 => exact hram hx

theorem hostTurn_keepsInv {s t : State} {op : HostOp} (h : s.Inv) (hx : hostTurn op s = .next t) : t.Inv := by
  cases op with
  | rd32 | rd16 => exact hostAccess_keepsInv h (hostRamRead_keepsInv h) hx
  | wr32 | wr16 => exact hostAccess_keepsInv h (hostRamWrite_keepsInv h (by norm_num)) hx
  | fence => cases hx; exact fenceTurn_keepsInv h

/-! ### The other agents -/

theorem moverTurn_keepsInv {s t : State} {m : Nat} {op : MoverOp} (h : s.Inv) (hx : moverTurn m op s = .next t) : t.Inv := by
  cases op with
  | push id v =>
    simp only [moverTurn] at hx
    split at hx
    · exact written_keepsInv h (fun _ => portWrite_frame) hx
    · cases hx; exact h
  | pop id =>
    simp only [moverTurn] at hx
    split at hx
    · split at hx
      · next hread => cases hx; exact (h.dataFrame (portRead_frame hread)).ownFields _ _ _ _ _
      · cases hx; exact h
      · cases hx
    · cases hx; exact h

theorem deliverLine_keepsInv {s : State} (h : s.Inv) (l : IrqLine) : (deliverLine l s).Inv := by
  unfold deliverLine
  split <;> exact h.ownFields _ _ _ _ _

theorem externalReset_keepsInv {s : State} (h : s.Inv) : (externalReset s).Inv :=
  { resetOf_inv h.platform with pending := h.pending }

/-- Every turn keeps the invariant. -/
theorem runTurn_keepsInv {s t : State} (h : s.Inv) (turn : Turn) (hx : runTurn turn s = .next t) : t.Inv := by
  cases turn with
  | host op => exact hostTurn_keepsInv h hx
  | seq => exact seqTurn_keepsInv h hx
  | hwReq c => cases hx; exact hardwareRequest_keepsInv h c
  | drain i => cases hx; exact drainWrite_keepsInv h i
  | mover m op => exact moverTurn_keepsInv h hx
  | deliver l => cases hx; exact deliverLine_keepsInv h l
  | blockReset => cases hx; exact externalReset_keepsInv h

/-- Settles O33, by the agent whose turn it is. -/
theorem stepKeepsTheInvariant : Obligations.StepKeepsTheInvariant := by
  intro s t h hx
  cases hagenda : s.agenda with
  | nil => rw [step_empty hagenda] at hx; exact seqTurn_keepsInv h hx
  | cons turn rest => rw [step_turn hagenda] at hx; exact runTurn_keepsInv (h.ownFields _ _ _ rest _) turn hx

end Sys2Proof.Machine

/-! The family of 20_memory.md: the engine's accesses, the host's RAM accesses and its pending writes. -/

namespace Sys2Proof.Machine

open Sys2Proof.Spec

/-! ### Reading cells -/

/-- Writing cells puts them over the memory: a byte reads as its cell, if it has one, else as before. -/
theorem Memory.readByte_writeCells (cells : List Host.Cell) (m : Memory) (b : Nat) (h : (cells.map Prod.fst).Nodup) :
    (m.writeCells cells).readByte b = (Memory.readByte cells b).or (m.readByte b) := by
  induction cells generalizing m with
  | nil => rfl
  | cons x cells ih =>
    obtain ⟨k, v⟩ := x
    obtain ⟨hk, hcells⟩ := List.nodup_cons.1 h
    change ((m.writeByte k v).writeCells cells).readByte b = _
    by_cases hkb : k = b
    · have hother : ∀ x ∈ cells, x.1 ≠ b := fun x hx he => hk (List.mem_map.2 ⟨x, hx, he.trans hkb.symm⟩)
      rw [Memory.readByte_writeCells_of_notMem cells _ b hother]
      simp [Memory.readByte, hkb]
    · rw [ih _ hcells]
      simp [Memory.readByte, hkb]

/-- A cell of a list that names no address twice is the one read at its address. -/
theorem Memory.readByte_of_mem {cells : List Host.Cell} {q : Host.Cell} (h : (cells.map Prod.fst).Nodup)
    (hq : q ∈ cells) : Memory.readByte cells q.1 = some q.2 := by
  induction cells with
  | nil => cases hq
  | cons x cells ih =>
    obtain ⟨hx, hcells⟩ := List.nodup_cons.1 h
    rcases List.mem_cons.1 hq with rfl | hq
    · simp [Memory.readByte]
    · have hne : x.1 ≠ q.1 := fun he => hx (List.mem_map.2 ⟨q, hq, he.symm⟩)
      simp [Memory.readByte, hne, ih hcells hq]

/-- The cells of a value read as an empty memory they have been written to. -/
theorem readByte_cellsOf (addrs : List Nat) (v : Word) (b : Nat) (h : addrs.Nodup) :
    Memory.readByte (cellsOf addrs v) b = (Memory.writeCells [] (cellsOf addrs v)).readByte b := by
  rw [Memory.readByte_writeCells _ _ _ (by rwa [map_fst_cellsOf])]
  simp [Memory.readByte]

/-- Address `j` of an access, in the statements' spelling. -/
theorem byteAddrs_getElem?_addrAt (a : Word) {n j : Nat} (hj : j < n) : (byteAddrs a n)[j]? = some (addrAt a j) :=
  getElem?_byteAddrs a n j hj

/-- Byte `j` of a value, in the statements' spelling. -/
theorem bytesOfWord_getElem?_byteAt (v : Word) {n j : Nat} (hj : j < n) : (bytesOfWord n v)[j]? = some (byteAt v j) :=
  getElem?_bytesOfWord n v j hj

/-- A value stored to an access's addresses is in memory there, and nothing else has changed. -/
theorem stored_writeCells (m : Memory) (a v : Word) (n : Nat) (hn : n ≤ 2 ^ 32) :
    Stored m (m.writeCells (cellsOf (byteAddrs a n) v)) a n v := by
  refine ⟨fun j hj => ?_, fun b hb => ?_⟩
  · exact readByte_store_inside m _ v (byteAddrs_nodup a n hn) j _ (byteAddrs_getElem?_addrAt a hj)
  · refine readByte_store_outside m _ v b fun hmem => ?_
    obtain ⟨j, hj, hat⟩ := (mem_byteAddrs a n b).1 hmem
    exact hb j hj hat.symm

/-- A value loaded from an access's addresses is read from there. -/
theorem readsFrom_loadValue (look : Nat → Option Byte) (a : Word) (n draws : Nat) (hn : n ≤ 4) :
    ReadsFrom look a n (loadValue look (byteAddrs a n) draws) := by
  refine ⟨?_, fun j hj b hb => ?_⟩
  · simpa using loadValue_lt look (byteAddrs a n) draws
  · have hbyte := byte_loadValue look (byteAddrs a n) draws j _ (by omega) (byteAddrs_getElem?_addrAt a hj)
    rw [hb] at hbyte
    exact hbyte

/-- A load whose bytes are all there takes no draw. -/
theorem drawsAfter_byteAddrs (look : Nat → Option Byte) (a : Word) (n draws : Nat)
    (h : ∀ j, j < n → look (addrAt a j) ≠ none) : drawsAfter look (byteAddrs a n) draws = draws := by
  refine drawsAfter_eq look _ draws fun x hx => ?_
  obtain ⟨j, hj, rfl⟩ := (mem_byteAddrs a n x).1 hx
  exact h j hj

/-- Bytes that a memory holds are loaded as the value they belong to. -/
theorem loadValue_of_holds {m : Memory} {a v : Word} {n draws : Nat} (h : Holds m a n v) :
    loadValue m.readByte (byteAddrs a n) draws = BitVec.ofNat 32 (v.toNat % 2 ^ (8 * n)) := by
  rw [← wordOfBytes_bytesOfWord]
  unfold loadValue
  congr 1
  refine List.ext_getElem? fun j => ?_
  by_cases hj : j < n
  · simp [byteAddrs_getElem?_addrAt a hj, h j hj, bytesOfWord_getElem?_byteAt v hj]
  · rw [List.getElem?_eq_none (by simpa using hj), List.getElem?_eq_none (by simpa using hj)]

/-! ### Bus errors and RAM (20_memory.md R96, R97, R100) -/

/-- Settles O38: both accesses test R100 first, and the register windows answer no bus error. -/
theorem engineAccessBusErrorRule : Obligations.EngineAccessBusErrorRule := by
  intro s a v n _
  have hrule : isBusError s.cfg a n = true ↔ BusErrorAccess s.cfg a n := isBusError_iff s.cfg a n
  exact ⟨(engineRead_busErr_iff a n s).trans hrule, (engineWrite_busErr_iff a n v s).trans hrule⟩

theorem isBusError_eq_false {p : Platform} {a : Word} {n : Nat} (h : ¬ BusErrorAccess p a n) :
    isBusError p a n = false :=
  Bool.eq_false_iff.2 fun he => h ((isBusError_iff p a n).1 he)

/-- An aligned access to unprotected RAM is no bus error. -/
theorem not_busErrorAccess_of_ramAccess {p : Platform} {a : Word} {n : Nat} (h : RamAccess p a n) :
    ¬ BusErrorAccess p a n := by
  obtain ⟨haligned, hbytes⟩ := h
  rintro (hmis | ⟨j, hj, hprot | hnone⟩)
  · exact hmis haligned
  · simp [(hbytes j hj).2] at hprot
  · simp [(hbytes j hj).1] at hnone

theorem allRam_of_ramAccess {p : Platform} {a : Word} {n : Nat} (h : RamAccess p a n) : allRam p a n = true :=
  (allRam_iff p a n).2 fun j hj => (h.2 j hj).1

/-- An engine read of RAM that holds a value returns it and changes nothing. -/
theorem engineRead_of_holds {s : State} {a v : Word} {n : Nat} (hram : RamAccess s.cfg a n) (h : Holds s.mem a n v) :
    engineRead a n s = .ok (BitVec.ofNat 32 (v.toNat % 2 ^ (8 * n))) s := by
  have hthere : ∀ j, j < n → s.mem.readByte (addrAt a j) ≠ none := fun j hj => by simp [h j hj]
  rw [engineRead_ram a n s (isBusError_eq_false (not_busErrorAccess_of_ramAccess hram)) (allRam_of_ramAccess hram),
    loadValue_of_holds h, drawsAfter_byteAddrs _ a n s.draws hthere]

/-- Settles O39: the write puts the value's cells over memory, and the read finds every one of them. -/
theorem engineReadAfterWrite : Obligations.EngineReadAfterWrite := by
  intro s a v n hn hram
  have hstored := stored_writeCells s.mem a v n (by omega)
  have hbus := isBusError_eq_false (not_busErrorAccess_of_ramAccess hram)
  refine ⟨_, engineWrite_ram a n v s hbus (allRam_of_ramAccess hram), rfl, hstored, ?_⟩
  exact engineRead_of_holds hram hstored.1

/-! ### Engine accesses to registers (20_memory.md R98, R99) -/

/-- An access that begins outside RAM is not all RAM. -/
theorem allRam_eq_false {p : Platform} {a : Word} {n : Nat} (hn : 0 < n) (hm : p.mapped a ≠ .ram) :
    allRam p a n = false :=
  Bool.eq_false_iff.2 fun he => hm (by simpa using (allRam_iff p a n).1 he 0 hn)

theorem engineRead_register {a : Word} {n : Nat} {s : State} (hn : 0 < n) (hm : s.cfg.mapped a ≠ .ram)
    (hbus : ¬ BusErrorAccess s.cfg a n) :
    engineRead a n s = engineRegister a n (fun id => portRead id n s) (fun id r => fifoRead32 id r s) s := by
  simp [engineRead, isBusError_eq_false hbus, allRam_eq_false hn hm]

theorem engineWrite_register {a : Word} {n : Nat} {v : Word} {s : State} (hn : 0 < n) (hm : s.cfg.mapped a ≠ .ram)
    (hbus : ¬ BusErrorAccess s.cfg a n) :
    engineWrite a n v s = engineRegister a n (fun id => portWrite id n v s) (fun id r => fifoWrite32 id r v s) s := by
  simp [engineWrite, isBusError_eq_false hbus, allRam_eq_false hn hm]

section
variable {α : Type} {n : Nat} {port : FifoId → Acc α} {reg : FifoId → FifoRegister → Acc α} {s : State}

/-- The DMA block is closed to the engine (U11). -/
theorem engineRegister_dma {a : Word} (hm : s.cfg.mapped a = .dmaReg) :
    engineRegister a n port reg s = .refused .engineInDmaBlock := by
  simp [engineRegister, hm]

variable {id : FifoId} {r : FifoRegister} (hwf : s.cfg.wf = true) (hblk : id.blk.val < s.cfg.nblk)
include hwf hblk

/-- Where a register of an existing channel is, in the decoder's windows and in the map. -/
theorem fifoReg_located : s.cfg.dmaOffset? (s.cfg.fifoReg id r) = none ∧
    s.cfg.fifoOffset? (s.cfg.fifoReg id r) = some (id, r.offset) ∧ s.cfg.mapped (s.cfg.fifoReg id r) = .fifoReg := by
  simpa using fifoOffset?_fifoReg s.cfg id r 0 (by omega) hwf hblk

/-- A register of an existing channel is in no RAM. -/
theorem mapped_fifoReg_ne_ram {k : Nat} (hk : k < 4) :
    s.cfg.mapped (s.cfg.fifoReg id r + BitVec.ofNat 32 k) ≠ .ram := by
  obtain ⟨-, -, hmap⟩ := fifoOffset?_fifoReg s.cfg id r k hk hwf hblk
  simp [hmap]

/-- At the port of an existing channel an access of any size is the port's. -/
theorem engineRegister_port : engineRegister (s.cfg.fifoReg id .port) n port reg s = port id := by
  obtain ⟨-, hoff, hmap⟩ := fifoReg_located (r := .port) hwf hblk
  simp [engineRegister, hmap, hoff, fifoRegisterAt?_offset]

/-- At another register of an existing channel a word is the register's. -/
theorem engineRegister_word (hr : r ≠ .port) : engineRegister (s.cfg.fifoReg id r) 4 port reg s = reg id r := by
  obtain ⟨-, hoff, hmap⟩ := fifoReg_located (r := r) hwf hblk
  simp [engineRegister, hmap, hoff, fifoRegisterAt?_offset]

/-- At another register of an existing channel a smaller access is refused. -/
theorem engineRegister_small (hr : r ≠ .port) (hn : n ≠ 4) :
    engineRegister (s.cfg.fifoReg id r) n port reg s = .refused .engineRegisterSize := by
  obtain ⟨-, hoff, hmap⟩ := fifoReg_located (r := r) hwf hblk
  simp [engineRegister, hmap, hoff, fifoRegisterAt?_offset, hn]

/-- Any access that begins inside a register of an existing channel is refused. -/
theorem engineRegister_inside {k : Nat} (hpos : 0 < k) (hk : k < 4) :
    engineRegister (s.cfg.fifoReg id r + BitVec.ofNat 32 k) n port reg s = .refused .engineRegisterSize := by
  obtain ⟨-, hoff, hmap⟩ := fifoOffset?_fifoReg s.cfg id r k hk hwf hblk
  simp [engineRegister, hmap, hoff, fifoRegisterAt?_inside r k hpos hk]

/-- What the host's word access to a register of an existing channel decodes to. -/
theorem decodeAccess_fifoReg (v : Word) :
    decodeAccess s.cfg (.wr32 (s.cfg.fifoReg id r) v) = .ok (fifoWriteInstr id r v) ∧
    decodeAccess s.cfg (.rd32 (s.cfg.fifoReg id r)) = .ok (fifoReadInstr id r) := by
  obtain ⟨hdma, hoff, -⟩ := fifoReg_located (r := r) hwf hblk
  simp [decodeAccess, decodeWrite32, decodeRead32, fifoWriteAt, fifoReadAt, hdma, hoff, fifoRegisterAt?_offset]

end

/-- The host's word write of a FIFO register has the effect of the engine's. -/
theorem exec_fifoWriteInstr (id : FifoId) (r : FifoRegister) (v : Word) (s : State) :
    exec (fifoWriteInstr id r v) s = (fifoWrite32 id r v s).written s := by cases r <;> rfl

/-- The host's word read of a FIFO register has the effect of the engine's. -/
theorem exec_fifoReadInstr (id : FifoId) (r : FifoRegister) (s : State) :
    exec (fifoReadInstr id r) s = (fifoRead32 id r s).returned s := by cases r <;> rfl

/-- Settles O40, by where the access begins: in the DMA block, at a port, at another register, inside a register. -/
theorem engineReachesTheRegisters : Obligations.EngineReachesTheRegisters := by
  intro s v n hn hwf
  have hpos : 0 < n := by omega
  refine ⟨fun a hm hbus => ?_, fun id hblk => ⟨fun hbus => ?_, fun r => ⟨fun hr hbus => ?_, ?_⟩⟩⟩
  · have hram : s.cfg.mapped a ≠ .ram := by simp [hm]
    rw [engineRead_register hpos hram hbus, engineWrite_register hpos hram hbus]
    exact ⟨engineRegister_dma hm, engineRegister_dma hm⟩
  · have hram : s.cfg.mapped (s.cfg.fifoReg id .port) ≠ .ram := by simp [fifoReg_located hwf hblk]
    rw [engineRead_register hpos hram hbus, engineWrite_register hpos hram hbus]
    exact ⟨engineRegister_port hwf hblk, engineRegister_port hwf hblk⟩
  · have hram : s.cfg.mapped (s.cfg.fifoReg id r) ≠ .ram := by simp [fifoReg_located hwf hblk]
    obtain ⟨hwrite, hread⟩ := decodeAccess_fifoReg (r := r) hwf hblk v
    refine ⟨_, _, hwrite, ?_, hread, ?_⟩
    · rw [engineWrite_register (by omega) hram hbus, engineRegister_word hwf hblk hr, exec_fifoWriteInstr]
    · rw [engineRead_register (by omega) hram hbus, engineRegister_word hwf hblk hr, exec_fifoReadInstr]
  · rintro _ k hn4 hk hport rfl hbus
    have hram := mapped_fifoReg_ne_ram (r := r) hwf hblk hk
    rw [engineRead_register hpos hram hbus, engineWrite_register hpos hram hbus]
    rcases Nat.eq_zero_or_pos k with rfl | hk0
    · have hr : r ≠ .port := fun he => hport he rfl
      rw [BitVec.add_zero]
      exact ⟨engineRegister_small hwf hblk hr hn4, engineRegister_small hwf hblk hr hn4⟩
    · exact ⟨engineRegister_inside hwf hblk hk0 hk, engineRegister_inside hwf hblk hk0 hk⟩

/-! ### The host's view of memory (20_memory.md R108, R110) -/

/-- The host sees the youngest pending byte laid over memory. -/
theorem hostByte_eq (s : State) (b : Nat) :
    s.hostByte b = (s.pending.reverse.findSome? fun w => Memory.readByte w b).or (s.mem.readByte b) := by
  unfold State.hostByte
  split <;> simp [*]

/-- A write that becomes pending is laid over what the host saw. -/
theorem hostByte_pending_append (s : State) (w : List Host.Cell) (b : Nat) :
    State.hostByte { s with pending := s.pending ++ [w] } b = (Memory.readByte w b).or (s.hostByte b) := by
  rw [hostByte_eq, hostByte_eq, List.reverse_concat, List.findSome?_cons]
  cases Memory.readByte w b <;> rfl

/-- The host does not see the oldest pending write go to memory. -/
theorem hostByte_oldest_drained {s : State} {w : List Host.Cell} {ws : List (List Host.Cell)} (hs : s.pending = w :: ws)
    (hw : (w.map Prod.fst).Nodup) (b : Nat) :
    State.hostByte { s with mem := s.mem.writeCells w, pending := ws } b = s.hostByte b := by
  rw [hostByte_eq, hostByte_eq, hs, Memory.readByte_writeCells w _ b hw, List.reverse_cons, List.findSome?_append,
    Option.or_assoc, List.findSome?_singleton]

/-! ### The host's RAM accesses and the fence (20_memory.md R108) -/

/-- The host's write of `n` bytes that are all RAM enters the pending set, and the host sees it at once. -/
theorem hostRamWrite_visible {s : State} {a v : Word} {n : Nat} (hn : n ≤ 2 ^ 32)
    (hram : ∀ j, j < n → s.cfg.mapped (a + BitVec.ofNat 32 j) = .ram) :
    ∃ t, hostRamWrite a n v s = .next t ∧ t = { s with pending := t.pending } ∧
      (∀ j, j < n → t.hostByte (addrAt a j) = some (byteAt v j)) ∧
      ∀ b, (∀ j, j < n → b ≠ addrAt a j) → t.hostByte b = s.hostByte b := by
  obtain ⟨hinside, houtside⟩ := stored_writeCells [] a v n hn
  have hcells := fun b => readByte_cellsOf (byteAddrs a n) v b (byteAddrs_nodup a n hn)
  refine ⟨_, by rw [hostRamWrite, if_pos ((allRam_iff s.cfg a n).2 hram)], rfl, fun j hj => ?_, fun b hb => ?_⟩
  · rw [hostByte_pending_append, hcells, hinside j hj, Option.some_or]
  · rw [hostByte_pending_append, hcells, houtside b hb]
    exact Option.none_or

/-- The host's read of at most 4 bytes that are all RAM returns what the host sees. -/
theorem hostRamRead_visible {s : State} {a : Word} {n : Nat} (hn : n ≤ 4)
    (hram : ∀ j, j < n → s.cfg.mapped (a + BitVec.ofNat 32 j) = .ram) :
    ∃ t, hostRamRead a n s = .next t ∧ t = { s with hostData := t.hostData, draws := t.draws } ∧
      ReadsFrom s.hostByte a n t.hostData ∧ ((∀ j, j < n → s.hostByte (addrAt a j) ≠ none) → t.draws = s.draws) :=
  ⟨_, by rw [hostRamRead, if_pos ((allRam_iff s.cfg a n).2 hram)], rfl, readsFrom_loadValue s.hostByte a n s.draws hn,
    drawsAfter_byteAddrs s.hostByte a n s.draws⟩

/-- A host access that begins in RAM is the RAM access. -/
theorem hostAccess_of_ram {s : State} {a : Word} {n : Nat} {op : HostOp} {ram : Host.Outcome State Fault Refusal}
    (hn : 0 < n) (hram : ∀ j, j < n → s.cfg.mapped (a + BitVec.ofNat 32 j) = .ram) : hostAccess a op ram s = ram :=
  hostAccess_ram (.inl (by simpa using hram 0 hn))

/-- The fence with a write pending lets the oldest go and is still to come. -/
theorem fenceTurn_cons {s : State} {w : List Host.Cell} {ws : List (List Host.Cell)} (hs : s.pending = w :: ws) :
    fenceTurn s = { s with mem := s.mem.writeCells w, pending := ws, agenda := .host .fence :: s.agenda } := by
  simp [fenceTurn, drainWrite, takePending, hs]

/-- Settles O41, by the host's operation. -/
theorem hostRamAccessesAndFence : Obligations.HostRamAccessesAndFence := by
  intro s rest
  refine ⟨fun op a n v hop hagenda hram => ?_, fun op a n hop hagenda hram => ?_, fun hagenda => ⟨fun hs => ?_, ?_⟩⟩
  · have hn : 0 < n ∧ n ≤ 4 := by obtain ⟨-, rfl⟩ | ⟨h, -, rfl, -⟩ := hop <;> decide
    obtain ⟨t, hwrite, hframe, hinside, houtside⟩ :=
      hostRamWrite_visible (s := { s with agenda := rest }) (v := v) (by omega) hram
    have hturn : hostTurn op { s with agenda := rest } = hostRamWrite a n v { s with agenda := rest } := by
      obtain ⟨rfl, rfl⟩ | ⟨h, rfl, rfl, rfl⟩ := hop <;> exact hostAccess_of_ram hn.1 hram
    exact ⟨t, ((step_turn hagenda).trans hturn).trans hwrite, hframe, hinside, houtside⟩
  · have hn : 0 < n ∧ n ≤ 4 := by obtain ⟨-, rfl⟩ | ⟨-, rfl⟩ := hop <;> decide
    obtain ⟨t, hread, hframe, hvalue, hdraws⟩ := hostRamRead_visible (s := { s with agenda := rest }) hn.2 hram
    have hturn : hostTurn op { s with agenda := rest } = hostRamRead a n { s with agenda := rest } := by
      obtain ⟨rfl, rfl⟩ | ⟨rfl, rfl⟩ := hop <;> exact hostAccess_of_ram hn.1 hram
    exact ⟨t, ((step_turn hagenda).trans hturn).trans hread, hframe, hvalue, hdraws⟩
  · rw [step_turn hagenda]
    simp [runTurn, hostTurn, fenceTurn, hs]
  · intro w ws hs
    refine ⟨{ s with mem := s.mem.writeCells w, pending := ws }, ?_, rfl, hostByte_oldest_drained hs⟩
    rw [step_turn hagenda]
    change Host.Outcome.next (fenceTurn { s with agenda := rest }) = _
    rw [fenceTurn_cons (s := { s with agenda := rest }) hs]
    simp [hagenda]

/-! ### Drains (20_memory.md R108) -/

/-- When a pending write may be taken out, and what stays: it is there, and no older one shares an address with it. -/
theorem takePending_eq_some_iff {ws rest : List (List Host.Cell)} {i : Nat} {x : List Host.Cell} :
    takePending ws i = some (x, rest) ↔ ws[i]? = some x ∧ rest = ws.eraseIdx i ∧
      ∀ j y, j < i → ws[j]? = some y → ∀ p ∈ y, ∀ q ∈ x, p.1 ≠ q.1 := by
  induction ws generalizing i rest with
  | nil => simp [takePending]
  | cons w ws ih =>
    cases i with
    | zero => simp [takePending, eq_comm]
    | succ i =>
      constructor
      · intro h
        simp only [takePending] at h
        split at h
        · next ht =>
          split at h
          · cases h
          · next hover =>
            cases h
            obtain ⟨hx, rfl, hfree⟩ := ih.1 ht
            refine ⟨hx, rfl, fun j y hj hy => ?_⟩
            cases j with
            | zero => cases hy; exact (overlaps_eq_false_iff _ _).1 (Bool.eq_false_iff.2 hover)
            | succ j => exact hfree j y (by omega) hy
        · cases h
      · rintro ⟨hx, rfl, hfree⟩
        have ht := ih.2 ⟨hx, rfl, fun j y hj hy => hfree (j + 1) y (by omega) hy⟩
        have hover : overlaps w x = false := (overlaps_eq_false_iff w x).2 (hfree 0 w (by omega) rfl)
        simp [takePending, ht, hover]

/-- The turn of a drain that may go. -/
theorem step_drain_of_takePending {s : State} {i : Nat} {turns : List Turn} {x : List Host.Cell}
    {rest : List (List Host.Cell)} (hagenda : s.agenda = .drain i :: turns)
    (ht : takePending s.pending i = some (x, rest)) :
    step s = .next { s with mem := s.mem.writeCells x, pending := rest, agenda := turns } := by
  rw [step_turn hagenda]
  simp [runTurn, drainWrite, ht]

/-- The turn of a drain that may not go. -/
theorem step_drain_of_blocked {s : State} {i : Nat} {turns : List Turn} (hagenda : s.agenda = .drain i :: turns)
    (ht : takePending s.pending i = none) : step s = .next { s with agenda := turns } := by
  rw [step_turn hagenda]
  simp [runTurn, drainWrite, ht]

/-- Settles O42: `takePending_eq_some_iff` tells the three cases apart. -/
theorem drainKeepsProgramOrderPerAddress : Obligations.DrainKeepsProgramOrderPerAddress := by
  intro s i rest hagenda
  refine ⟨fun x hx hfree => ?_, fun x j y p q hx hj hy hp hq hpq => ?_, fun hnone => ?_⟩
  · refine ⟨_, step_drain_of_takePending hagenda (takePending_eq_some_iff.2 ⟨hx, rfl, hfree⟩), rfl,
      fun hnodup q hq => ?_, fun b hb => ?_⟩
    · dsimp only
      rw [Memory.readByte_writeCells x _ _ hnodup, Memory.readByte_of_mem hnodup hq, Option.some_or]
    · exact Memory.readByte_writeCells_of_notMem x s.mem b hb
  · refine step_drain_of_blocked hagenda (Option.eq_none_iff_forall_ne_some.2 fun ⟨x', ws⟩ ht => ?_)
    obtain ⟨hx', -, hfree⟩ := takePending_eq_some_iff.1 ht
    obtain rfl : x = x' := Option.some.inj (hx.symm.trans hx')
    exact hfree j y hj hy p hp q hq hpq
  · refine step_drain_of_blocked hagenda (Option.eq_none_iff_forall_ne_some.2 fun ⟨x, ws⟩ ht => ?_)
    obtain ⟨hx, -, -⟩ := takePending_eq_some_iff.1 ht
    rw [hnone] at hx
    cases hx

end Sys2Proof.Machine

/-! The family of 30_encoding.md: the fields and words of a descriptor, the decoder on what the encoder writes, invalid
control words, and the unit addresses of a built descriptor. -/

namespace Sys2Proof.Machine

/-! ### The cycle type (30_encoding.md R134) -/

/-- The instruction a cycle type selects, with the operands of the other fields. -/
def cycleInstr (cyc : BitVec 3) (d : Desc) : Instr :=
  match cyc.toNat with
  | 0 => .stop d
  | 1 => .basic d
  | 2 => .autoreq d
  | 3 => .pingpong d
  | 4 => .sgpri d
  | 5 => .sgalt d
  | 6 => .rsvd6 d
  | _ => .rsvd7 d

/-- The decoder of three words goes through the cycle type and the operands only. -/
theorem decodeWords_eq_cycleInstr (w0 w1 w2 : Word) :
    decodeWords w0 w1 w2 = cycleInstr (w2.extractLsb' Layout.cycPos 3) (descOfWords w0 w1 w2) := by
  unfold decodeWords
  generalize w2.extractLsb' Layout.cycPos 3 = cyc
  obtain ⟨⟨n, hn⟩⟩ := cyc
  interval_cases n <;> rfl

/-- The words of a descriptor that is written decode to its instruction. -/
theorem decodeWords_controlWord (cyc : BitVec 3) (d : Desc) :
    decodeWords d.srcEnd d.dstEnd (controlWord cyc d) = cycleInstr cyc d := by
  obtain ⟨hdesc, hcyc⟩ := descOfWords_controlWord cyc d
  rw [decodeWords_eq_cycleInstr, hdesc, hcyc]

/-! ### The words of a descriptor (30_encoding.md R130) -/

theorem wordOfBytes_wordBytes (w : Word) : wordOfBytes (bytesOfWord Config.wordBytes w) = w := by
  rw [wordOfBytes_bytesOfWord, Nat.mod_eq_of_lt (by exact w.isLt), BitVec.ofNat_toNat, BitVec.setWidth_eq]

/-- Words laid out one after the other are read back by their index. -/
theorem descWord_flatMap (ws : List Word) (i : Nat) (w : Word) (hw : ws[i]? = some w) :
    descWord (ws.flatMap (bytesOfWord Config.wordBytes)) i = w := by
  unfold descWord
  induction ws generalizing i with
  | nil => cases hw
  | cons v ws ih =>
    have hlen : (bytesOfWord Config.wordBytes v).length = Config.wordBytes := bytesOfWord_length _ v
    rw [List.flatMap_cons]
    cases i with
    | zero =>
      obtain rfl : v = w := Option.some.inj hw
      rw [Nat.mul_zero, List.drop_zero, List.take_left' hlen, wordOfBytes_wordBytes]
    | succ i =>
      rw [Nat.mul_succ, Nat.add_comm, ← List.drop_drop, List.drop_left' hlen]
      exact ih i hw

/-- The first words of a longer text do not look at its end. -/
theorem descWord_append (b x : List Byte) (i : Nat) (h : Config.wordBytes * i + Config.wordBytes ≤ b.length) :
    descWord (b ++ x) i = descWord b i := by
  unfold descWord
  rw [List.drop_append_of_le_length (by omega), List.take_append_of_le_length (by rw [List.length_drop]; omega)]

/-- Four words laid out as a descriptor decode as the first three. -/
theorem decodeDesc_flatMap (w0 w1 w2 w3 : Word) :
    decodeDesc ([w0, w1, w2, w3].flatMap (bytesOfWord Config.wordBytes)) = .ok (decodeWords w0 w1 w2) := by
  unfold decodeDesc
  rw [if_pos (by simp [Config.wordBytes, Config.descBytes]), descWord_flatMap _ _ w0 rfl,
    descWord_flatMap _ _ w1 rfl, descWord_flatMap _ _ w2 rfl]

/-! ### The decoder on what the encoder writes (30_encoding.md R130, R145, R150, R156) -/

theorem decode_encodeDesc (p : Platform) (cyc : BitVec 3) (d : Desc) :
    decode p (encodeDesc cyc d) = .ok (cycleInstr cyc d) := by
  rw [← decodeWords_controlWord]
  exact decodeDesc_flatMap _ _ _ _

theorem decode_dmaWrite (p : Platform) (r : DmaRegister) (v : Word) :
    decode p (.access (.wr32 (p.dmaReg r) v)) = .ok (dmaWriteInstr r v) := by
  simp [decode, decodeAccess, decodeWrite32, dmaWriteAt, dmaOffset?_dmaReg, dmaRegisterAt?_offset]

theorem decode_dmaRead (p : Platform) (r : DmaRegister) :
    decode p (.access (.rd32 (p.dmaReg r))) = .ok (dmaReadInstr r) := by
  simp [decode, decodeAccess, decodeRead32, dmaReadAt, dmaOffset?_dmaReg, dmaRegisterAt?_offset]

section
variable {p : Platform} {id : FifoId} (hp : p.wf = true) (hblk : id.blk.val < p.nblk)
include hp hblk

/-- `decodeAccess_fifoReg` speaks of the platform of a state: here the platform's reset state. -/
theorem decode_fifoWrite (r : FifoRegister) (v : Word) :
    decode p (.access (.wr32 (p.fifoReg id r) v)) = .ok (fifoWriteInstr id r v) :=
  (decodeAccess_fifoReg (s := State.resetOf p) hp hblk v).1

theorem decode_fifoRead (r : FifoRegister) :
    decode p (.access (.rd32 (p.fifoReg id r))) = .ok (fifoReadInstr id r) :=
  (decodeAccess_fifoReg (s := State.resetOf p) hp hblk 0#32).2

/-- A 16-bit access at the port of an existing channel is the port's 16-bit view. -/
theorem decode16_port (i : FifoId → Instr) : decode16 p (p.fifoReg id .port) i = .ok (i id) := by
  have hloc := fifoOffset?_fifoReg p id .port 0 (by omega) hp hblk
  rw [BitVec.add_zero] at hloc
  obtain ⟨hdma, hoff, -⟩ := hloc
  simp [decode16, hdma, hoff, fifoHalfAt]

end

/-- Settles O1, by the form the encoder gives the instruction: a descriptor, a word access to one of the two register
blocks, a halfword access to a port. -/
theorem decodeOfEncodeIsTheInstruction : Obligations.DecodeOfEncodeIsTheInstruction := by
  intro p i hp hi
  have existing {id : FifoId} (h : decide (id.blk.val < p.nblk) = true) : id.blk.val < p.nblk := of_decide_eq_true h
  cases i with
  | stop d | basic d | autoreq d | pingpong d | sgpri d | sgalt d | rsvd6 d | rsvd7 d =>
    exact decode_encodeDesc p _ d
  | dmaBasePtrW v | dmaAltBasePtrW v | dmaEnSetW v | dmaEnStatW v | dmaSwunmaskSetW v | dmaSwunmaskClrW v | dmaPriSetW v
  | dmaPriClrW v | dmaAltSetW v | dmaAltClrW v | dmaDoneIenSetW v | dmaDoneIenClrW v | dmaSwreqW v | dmaBuserrStatW v
  | dmaInvdescStatW v | dmaDoneStatW v =>
    exact decode_dmaWrite p _ v
  | dmaBasePtrR | dmaAltBasePtrR | dmaEnSetR | dmaEnStatR | dmaSwunmaskSetR | dmaSwunmaskClrR | dmaPriSetR | dmaPriClrR
  | dmaAltSetR | dmaAltClrR | dmaDoneIenSetR | dmaDoneIenClrR | dmaSwreqR | dmaBuserrStatR | dmaInvdescStatR
  | dmaDoneStatR =>
    exact decode_dmaRead p _
  | fifoInitW id v | fifoCtrlW id v | fifoAfThrW id v | fifoAeThrW id v | fifoDlLenW id v | fifoRdptrW id v
  | fifoWrptrW id v | fifoUsedW id v | fifoStatW id v | portW32 id v | fifoRsvd28W id v | fifoRsvd2cW id v
  | fifoRsvd30W id v | fifoRsvd34W id v | fifoRsvd38W id v | fifoRsvd3cW id v =>
    exact decode_fifoWrite hp (existing hi) _ v
  | fifoInitR id | fifoCtrlR id | fifoAfThrR id | fifoAeThrR id | fifoDlLenR id | fifoRdptrR id | fifoWrptrR id
  | fifoUsedR id | fifoStatR id | portR32 id | fifoRsvd28R id | fifoRsvd2cR id | fifoRsvd30R id | fifoRsvd34R id
  | fifoRsvd38R id | fifoRsvd3cR id =>
    exact decode_fifoRead hp (existing hi) _
  | portW16 id v => exact decode16_port hp (existing hi) _
  | portR16 id => exact decode16_port hp (existing hi) _

/-! ### Reserved bits (30_encoding.md R140) -/

/-- Bits put in where the mask is 1 do not show in a field where it is 0. -/
theorem extractLsb'_of_masked {m : Word} {pos n : Nat} (hm : m.extractLsb' pos n = 0#n) (w r : Word) :
    ((w &&& ~~~m) ||| (r &&& m)).extractLsb' pos n = w.extractLsb' pos n := by
  apply BitVec.eq_of_getLsbD_eq
  intro i hi
  have hbit : m.getLsbD (pos + i) = false := by
    simpa [hi] using congrArg (BitVec.getLsbD · i) hm
  simp only [BitVec.getLsbD_extractLsb', BitVec.getLsbD_or, BitVec.getLsbD_and, BitVec.getLsbD_not, hbit]
  by_cases hlt : pos + i < 32
  · simp [hlt]
  · simp [hlt, BitVec.getLsbD_of_ge w _ (Nat.le_of_not_lt hlt)]

/-- The bits outside the fields of R133 do not show in the operands. -/
theorem descOfWords_reservedBits (w0 w1 w2 r : Word) :
    descOfWords w0 w1 ((w2 &&& ~~~0x30FC0008#32) ||| (r &&& 0x30FC0008#32)) = descOfWords w0 w1 w2 := by
  unfold descOfWords
  rw [extractLsb'_of_masked (n := 10) (by decide), extractLsb'_of_masked (pos := Layout.rpowPos) (by decide),
    extractLsb'_of_masked (pos := Layout.widPos) (by decide), extractLsb'_of_masked (pos := Layout.sincPos) (by decide),
    extractLsb'_of_masked (pos := Layout.dincPos) (by decide)]

/-- Settles O3: neither the operands nor the cycle type see the mask, and the first three words end where word 3
begins. -/
theorem reservedDescriptorBitsAreIgnored : Obligations.ReservedDescriptorBitsAreIgnored := by
  refine ⟨fun w0 w1 w2 r => ?_, fun b x y hb hx hy => ?_⟩
  · rw [decodeWords_eq_cycleInstr, decodeWords_eq_cycleInstr, descOfWords_reservedBits,
      extractLsb'_of_masked (by decide)]
  · have hword (z : List Byte) {i : Nat} (hi : i < 3) : descWord (b ++ z) i = descWord b i :=
      descWord_append b z i (by rw [hb]; unfold Config.wordBytes; omega)
    simp [decodeDesc, hb, hx, hy, hword]

/-! ### Invalid control words (30_encoding.md R139, 41_channel_engine.md R218) -/

theorem WidthCode.code_ofBits : ∀ b : BitVec 2, (WidthCode.ofBits b).code = b.toNat := by decide

theorem IncCode.code_ofBits : ∀ b : BitVec 2, (IncCode.ofBits b).code = b.toNat := by decide

/-- What R139 asks beside the cycle type, on the raw bits. -/
theorem malformed_descOfWords (w0 w1 w2 : Word) :
    (descOfWords w0 w1 w2).malformed = true ↔
      w2.extractLsb' 24 2 = 3#2 ∨ w2.extractLsb' 26 2 < w2.extractLsb' 24 2 ∨
      w2.extractLsb' 30 2 < w2.extractLsb' 24 2 := by
  simp [Desc.malformed, descOfWords, WidthCode.code_ofBits, IncCode.code_ofBits, BitVec.lt_def, ← BitVec.toNat_inj,
    or_assoc]

/-- `raise InvDesc(c)` has the effect of R373, and no other. -/
theorem raiseEvent_invDescRaised (c : Chan) (s : State) : Spec.InvDescRaised c s (raiseEvent .invDesc c s) := by
  rw [raiseEvent_invDesc]
  refine ⟨⟨rfl, fun d => ?_, fun d => ?_, fun d => ?_, rem_of_clear rfl⟩, rfl, fun d => ?_⟩ <;> simp [eq_comm]

section
variable {s : State} {c : Chan} {h : Half} {w : RawDesc} (hs : s.seq = .fetched c h w)
include hs

/-- A cycle type that moves no data is run as invalid whatever its operands. -/
theorem exec_invalidType (d : Desc) {i : Instr} (hi : i = .stop d ∨ i = .rsvd6 d ∨ i = .rsvd7 d) :
    exec i s = .next (raiseEvent .invDesc c s) := by
  rcases hi with rfl | rfl | rfl <;> exact runInvalid_fetched hs

/-- Admission of invalid fields is the event, whatever the rest of the cycle. -/
theorem runDescriptor_malformed (rule : CycleRule) {d : Desc} (hd : d.malformed = true) :
    runDescriptor rule d s = .next (raiseEvent .invDesc c s) := by
  rw [runDescriptor_fetched hs, admission, if_pos hd]

/-- Invalid fields raise the event under every cycle type. -/
theorem exec_cycleInstr_malformed (cyc : BitVec 3) {d : Desc} (hd : d.malformed = true) :
    exec (cycleInstr cyc d) s = .next (raiseEvent .invDesc c s) := by
  unfold cycleInstr
  split
  case h_1 => exact exec_invalidType hs d (.inl rfl)
  case h_7 => exact exec_invalidType hs d (.inr (.inl rfl))
  case h_8 => exact exec_invalidType hs d (.inr (.inr rfl))
  all_goals exact runDescriptor_malformed hs _ hd

/-- The words of an invalid control word raise the event. -/
theorem exec_decodeWords_invalid (w0 w1 w2 : Word) (hw : Spec.InvalidWord w2) :
    exec (decodeWords w0 w1 w2) s = .next (raiseEvent .invDesc c s) := by
  rw [decodeWords_eq_cycleInstr]
  rcases hw with hcyc | hcyc | hcyc | hfields
  · rw [hcyc]
    exact exec_invalidType hs _ (.inl rfl)
  · rw [hcyc]
    exact exec_invalidType hs _ (.inr (.inl rfl))
  · rw [hcyc]
    exact exec_invalidType hs _ (.inr (.inr rfl))
  · exact exec_cycleInstr_malformed hs _ ((malformed_descOfWords w0 w1 w2).2 hfields)

end

/-- Settles O18. -/
theorem invalidControlWordRaisesTheEvent : Obligations.InvalidControlWordRaisesTheEvent :=
  fun s c _ w0 w1 w2 hs =>
    ⟨fun hw => ⟨_, exec_decodeWords_invalid hs w0 w1 w2 hw, raiseEvent_invDescRaised c s⟩,
     fun d _ hi => ⟨_, exec_invalidType hs d hi, raiseEvent_invDescRaised c s⟩⟩

/-! ### The unit addresses of a built descriptor (30_encoding.md R142, 40_descriptor_builder.md R172) -/

theorem incCode?_bytes {i : Option Nat} {inc : IncCode} (h : incCode? i = some inc) : inc.bytes = i.getD 0 := by
  unfold incCode? at h
  split at h
  · cases h; rfl
  · split_ifs at h with h1 h2 h4 <;> cases h <;> simp [IncCode.bytes, *]

/-- What a successful build has checked, of what the words depend on, and the words it gives. -/
theorem build_eq_ok {q : BuildRequest} {ws : List Word} (h : build q = .ok ws) :
    ∃ wc si di, incCode? q.srcInc = some si ∧ incCode? q.dstInc = some di ∧ q.cycle ≤ 5 ∧
      ws = wordsOfDesc (BitVec.ofNat 3 q.cycle) (assembleDesc q wc si di) := by
  unfold build at h
  split at h
  · next wc si di _ hsi hdi =>
    split_ifs at h with hcycle
    exact ⟨wc, si, di, hsi, hdi, by omega, (Except.ok.inj h).symm⟩
  · cases h

/-- Going back `r` units from the end of `count` units is going on `count - r` units from the start. -/
theorem endAddress_back (start : Word) {count r : Nat} (inc : IncCode) (hr : r ≤ count) :
    endAddress start count inc + 1#32 - BitVec.ofNat 32 (r * inc.bytes) =
      start + BitVec.ofNat 32 ((count - r) * inc.bytes) := by
  have hsplit : count * inc.bytes = (count - r) * inc.bytes + r * inc.bytes := by
    rw [← Nat.add_mul, Nat.sub_add_cancel hr]
  unfold endAddress
  rw [BitVec.sub_add_cancel, hsplit, BitVec.ofNat_add, ← BitVec.add_assoc, BitVec.add_sub_cancel]

/-- Every cycle type but `SGPRI` counts the destination by the units left (41_channel_engine.md R221). -/
theorem dstOf_cycleInstr {cyc : BitVec 3} (hcyc : cyc ≠ 4#3) (d : Desc) (r : Nat) :
    Spec.dstOf (cycleInstr cyc d) d r = d.dstEnd + 1#32 - BitVec.ofNat 32 (r * d.dinc.bytes) := by
  unfold cycleInstr
  split
  case h_5 h4 => exact absurd (BitVec.eq_of_toNat_eq h4) hcyc
  all_goals rfl

/-- Settles O30: the words give the operands back, and each address goes back from an end address. -/
theorem builtDescriptorWalksFromItsStart : Obligations.BuiltDescriptorWalksFromItsStart := by
  intro q w0 w1 w2 w3 j hbuild hj
  obtain ⟨wc, si, di, hsi, hdi, hcycle, hwords⟩ := build_eq_ok hbuild
  obtain ⟨rfl, rfl, rfl, -⟩ : w0 = _ ∧ w1 = _ ∧ w2 = _ ∧ w3 = _ := by simpa [wordsOfDesc] using hwords
  rw [decodeWords_controlWord, (descOfWords_controlWord _ _).1, ← incCode?_bytes hsi, ← incCode?_bytes hdi]
  have hback : q.count - (q.count - j) = j := by omega
  refine ⟨?_, fun hne => ?_, fun h4 => ?_⟩
  · exact (endAddress_back q.src si (by omega)).trans (by rw [hback])
  · have hcyc : BitVec.ofNat 3 q.cycle ≠ 4#3 := by
      rwa [Ne, ← BitVec.toNat_inj, BitVec.toNat_ofNat, Nat.mod_eq_of_lt (by omega)]
    rw [dstOf_cycleInstr hcyc]
    exact (endAddress_back q.dst di (by omega)).trans (by rw [hback])
  · rw [h4]
    exact endAddress_back q.dst di (by omega)

/-! ### Words written out and reserved offsets (30_encoding.md R161) -/

/-- Settles O2: each word and each address is closed. -/
theorem writtenOutWordsDecode : Obligations.WrittenOutWordsDecode :=
  ⟨by decide, by decide, by decide, by decide, by decide, by decide⟩

/-- Settles O55: the host's word access to a FIFO register has the effect of the engine's, which is none at a reserved
offset. -/
theorem reservedFifoOffsetsReadZero : Obligations.ReservedFifoOffsetsReadZero := by
  refine fun s id v => ⟨?_, ?_⟩
  · rintro i (rfl | rfl | rfl | rfl | rfl | rfl)
    · exact exec_fifoReadInstr id .rsvd28 s
    · exact exec_fifoReadInstr id .rsvd2c s
    · exact exec_fifoReadInstr id .rsvd30 s
    · exact exec_fifoReadInstr id .rsvd34 s
    · exact exec_fifoReadInstr id .rsvd38 s
    · exact exec_fifoReadInstr id .rsvd3c s
  · rintro i (rfl | rfl | rfl | rfl | rfl | rfl)
    · exact exec_fifoWriteInstr id .rsvd28 v s
    · exact exec_fifoWriteInstr id .rsvd2c v s
    · exact exec_fifoWriteInstr id .rsvd30 v s
    · exact exec_fifoWriteInstr id .rsvd34 v s
    · exact exec_fifoWriteInstr id .rsvd38 v s
    · exact exec_fifoWriteInstr id .rsvd3c v s

end Sys2Proof.Machine

/-! The family of 40_descriptor_builder.md: the codes of legal operands, the checks of `build` in their order, and the
round trip. -/

namespace Sys2Proof.Machine

/-! ### The codes of the operands (40_descriptor_builder.md R172, R176) -/

/-- A width that has a code is the code's number of bytes, and the reserved code is given to none. -/
theorem widthCode?_eq_some {w : Nat} {wc : WidthCode} (h : widthCode? w = some wc) :
    wc.bytes = w ∧ wc ≠ .reserved := by
  unfold widthCode? at h
  split_ifs at h with h1 h2 h4 <;> cases h <;> simp [WidthCode.bytes, WidthCode.code, *]

theorem exists_widthCode? {w : Nat} (h : w = 1 ∨ w = 2 ∨ w = 4) : ∃ wc, widthCode? w = some wc := by
  rcases h with rfl | rfl | rfl <;> exact ⟨_, rfl⟩

theorem exists_incCode? {i : Option Nat} (h : ∀ x, i = some x → x = 1 ∨ x = 2 ∨ x = 4) :
    ∃ inc, incCode? i = some inc := by
  cases i with
  | none => exact ⟨_, rfl⟩
  | some x => rcases h x rfl with rfl | rfl | rfl <;> exact ⟨_, rfl⟩

theorem incBelow_iff {i : Option Nat} {w : Nat} : incBelow i w = true ↔ ∃ x, i = some x ∧ x < w := by
  cases i <;> simp [incBelow]

/-- An increment that is given is the power of two its code stands for (30_encoding.md R136). -/
theorem incCode?_some {x : Nat} {inc : IncCode} (h : incCode? (some x) = some inc) : x = 2 ^ inc.code := by
  unfold incCode? at h
  dsimp only at h
  split_ifs at h with h1 h2 h4 <;> cases h <;> assumption

theorem WidthCode.code_lt_three {wc : WidthCode} (h : wc ≠ .reserved) : wc.code < 3 := by
  cases wc with
  | reserved => exact absurd rfl h
  | _ => decide

/-- Increments are compared with the width by their codes as by their bytes; the code of `none` is below no width's
(40_descriptor_builder.md R175). -/
theorem code_lt_iff_incBelow {i : Option Nat} {w : Nat} {inc : IncCode} {wc : WidthCode} (hi : incCode? i = some inc)
    (hw : widthCode? w = some wc) : inc.code < wc.code ↔ incBelow i w = true := by
  obtain ⟨rfl, hres⟩ := widthCode?_eq_some hw
  cases i with
  | none =>
    obtain rfl : IncCode.stay = inc := Option.some.inj hi
    simpa [incBelow, IncCode.code] using (WidthCode.code_lt_three hres).le
  | some x =>
    obtain rfl := incCode?_some hi
    simp [incBelow, WidthCode.bytes, Nat.pow_lt_pow_iff_right]

/-! ### The checks in their order (40_descriptor_builder.md R176, R177) -/

section
variable {q : BuildRequest} {wc : WidthCode} {si di : IncCode} (hw : widthCode? q.width = some wc)
  (hsi : incCode? q.srcInc = some si) (hdi : incCode? q.dstInc = some di)
include hw hsi hdi

/-- The checks that are left once every width and increment has its code. -/
theorem build_of_codes : build q =
    if 5 < q.cycle ∨ 15 < q.rpow then .error .invalidParameter
    else if q.count < 1 ∨ Config.maxUnits < q.count then .error .countOutOfRange
    else if incBelow q.srcInc q.width || incBelow q.dstInc q.width then .error .incrementSmallerThanWidth
    else if q.src.toNat % q.width ≠ 0 ∨ q.dst.toNat % q.width ≠ 0 then .error .alignmentError
    else .ok (wordsOfDesc (BitVec.ofNat 3 q.cycle) (assembleDesc q wc si di)) := by
  unfold build
  rw [hw, hsi, hdi]

/-- The fields of a request whose increments pass R174 are valid (30_encoding.md R139). -/
theorem assembleDesc_malformed (hs : incBelow q.srcInc q.width = false) (hd : incBelow q.dstInc q.width = false) :
    (assembleDesc q wc si di).malformed = false := by
  have hcode : wc.code ≠ 3 := (WidthCode.code_lt_three (widthCode?_eq_some hw).2).ne
  simp [Desc.malformed, assembleDesc, hcode, code_lt_iff_incBelow hsi hw, code_lt_iff_incBelow hdi hw, hs, hd]

end

/-- Settles O32: legal operands have their codes, and the checks left are made in the order of R176. -/
theorem buildRejectsInOrder : Obligations.BuildRejectsInOrder := by
  intro q hwidth hinc hcycle hrpow
  obtain ⟨wc, hw⟩ := exists_widthCode? hwidth
  obtain ⟨si, hsi⟩ := exists_incCode? fun x hx => hinc x (.inl hx)
  obtain ⟨di, hdi⟩ := exists_incCode? fun x hx => hinc x (.inr hx)
  have hlegal : ¬(5 < q.cycle ∨ 15 < q.rpow) := by omega
  rw [build_of_codes hw hsi hdi, if_neg hlegal]
  refine ⟨fun hcount => if_pos hcount, fun hlow hhigh hbelow => ?_⟩
  have hcount : ¬(q.count < 1 ∨ Config.maxUnits < q.count) := by unfold Config.maxUnits; omega
  have hcheck : (incBelow q.srcInc q.width || incBelow q.dstInc q.width) = true := by
    simpa only [Bool.or_eq_true, incBelow_iff, ← exists_or, ← or_and_right] using hbelow
  rw [if_neg hcount, if_pos hcheck]

/-! ### The round trip (40_descriptor_builder.md R179) -/

/-- Everything a successful build has checked but the alignment. -/
theorem build_ok_checks {q : BuildRequest} {ws : List Word} (h : build q = .ok ws) :
    ∃ wc si di, widthCode? q.width = some wc ∧ incCode? q.srcInc = some si ∧ incCode? q.dstInc = some di ∧
      (q.cycle ≤ 5 ∧ q.rpow ≤ 15) ∧ (1 ≤ q.count ∧ q.count ≤ 1024) ∧
      (incBelow q.srcInc q.width = false ∧ incBelow q.dstInc q.width = false) ∧
      ws = wordsOfDesc (BitVec.ofNat 3 q.cycle) (assembleDesc q wc si di) := by
  have hcodes : ∃ wc si di, widthCode? q.width = some wc ∧ incCode? q.srcInc = some si ∧ incCode? q.dstInc = some di := by
    unfold build at h
    split at h
    · next wc si di hw hsi hdi => exact ⟨wc, si, di, hw, hsi, hdi⟩
    · cases h
  obtain ⟨wc, si, di, hw, hsi, hdi⟩ := hcodes
  rw [build_of_codes hw hsi hdi] at h
  split_ifs at h with hlegal hcount hbelow
  unfold Config.maxUnits at hcount
  rw [Bool.or_eq_true, not_or, Bool.not_eq_true, Bool.not_eq_true] at hbelow
  exact ⟨wc, si, di, hw, hsi, hdi, by omega, by omega, hbelow, (Except.ok.inj h).symm⟩

/-- From the start to the end of a cycle's units, both counted (40_descriptor_builder.md R172). -/
theorem endAddress_sub_start (start : Word) (count : Nat) (inc : IncCode) :
    endAddress start count inc - start + 1#32 = BitVec.ofNat 32 (count * inc.bytes) := by
  unfold endAddress
  generalize BitVec.ofNat 32 (count * inc.bytes) = len
  bv_omega

/-- The count of an assembled descriptor is the one asked for when the field of R133 holds it. -/
theorem assembleDesc_count {q : BuildRequest} (wc : WidthCode) (si di : IncCode) (hlow : 1 ≤ q.count)
    (hhigh : q.count ≤ 1024) : (assembleDesc q wc si di).count = q.count := by
  have hnm1 : (BitVec.ofNat 10 (q.count - 1)).toNat = q.count - 1 := Nat.mod_eq_of_lt (by omega)
  calc (assembleDesc q wc si di).count
    _ = (BitVec.ofNat 10 (q.count - 1)).toNat + 1 := rfl
    _ = q.count := by omega

/-- A control word that is written is invalid by its cycle type or by the other fields (30_encoding.md R139). -/
theorem invalidWord_controlWord (cyc : BitVec 3) (d : Desc) :
    Spec.InvalidWord (controlWord cyc d) ↔ cyc = 0#3 ∨ cyc = 6#3 ∨ cyc = 7#3 ∨ d.malformed = true := by
  obtain ⟨hdesc, hcyc⟩ := descOfWords_controlWord cyc d
  have hfields := malformed_descOfWords d.srcEnd d.dstEnd (controlWord cyc d)
  rw [hdesc] at hfields
  unfold Spec.InvalidWord
  rw [hcyc, ← hfields]

/-- Settles O31: the control word reads back as the assembled descriptor, whose fields the checks of `build` keep in
range, and whose only invalid cycle type is `stopped`. -/
theorem buildRoundTrips : Obligations.BuildRoundTrips := by
  intro q ws hbuild
  obtain ⟨wc, si, di, hw, hsi, hdi, ⟨hcycle, hrpow⟩, ⟨hlow, hhigh⟩, ⟨hs, hd⟩, rfl⟩ := build_ok_checks hbuild
  have hcyc : (BitVec.ofNat 3 q.cycle).toNat = q.cycle := Nat.mod_eq_of_lt (by omega)
  obtain ⟨hdesc, hcycField⟩ := descOfWords_controlWord (BitVec.ofNat 3 q.cycle) (assembleDesc q wc si di)
  refine ⟨_, _, _, rfl, ?_⟩
  rw [hdesc, hcycField, ← incCode?_bytes hsi, ← incCode?_bytes hdi]
  refine ⟨endAddress_sub_start .., endAddress_sub_start .., hcyc, assembleDesc_count wc si di hlow hhigh,
    Nat.mod_eq_of_lt (by omega), (widthCode?_eq_some hw).1, rfl, rfl, ?_⟩
  rw [invalidWord_controlWord, assembleDesc_malformed hw hsi hdi hs hd]
  simp only [← BitVec.toNat_inj, hcyc, BitVec.toNat_ofNat, Bool.false_eq_true, or_false]
  omega

end Sys2Proof.Machine

/-! The family of 41_channel_engine.md: first the DMA register block and the requests (R200 to R211). -/

namespace Sys2Proof.Machine

/-! ### `BASE` (10_state.md R31, 41_channel_engine.md R200, R201) -/

/-- Clearing the low `k` bits of a word rounds it down to a multiple of `2 ^ k`. -/
theorem toNat_and_not_lowBits (v : Word) (k : Nat) :
    (v &&& ~~~BitVec.ofNat 32 (2 ^ k - 1)).toNat = v.toNat - v.toNat % 2 ^ k := by
  have hround : v.toNat - v.toNat % 2 ^ k = v.toNat >>> k <<< k := by
    have := Nat.div_add_mod v.toNat (2 ^ k)
    rw [Nat.shiftRight_eq_div_pow, Nat.shiftLeft_eq, Nat.mul_comm]
    omega
  rw [hround]
  refine Nat.eq_of_testBit_eq fun i => ?_
  by_cases hi : i < 32
  · simp only [BitVec.testBit_toNat, BitVec.getLsbD_and, BitVec.getLsbD_not, BitVec.getLsbD_ofNat,
      Nat.testBit_two_pow_sub_one, Nat.testBit_shiftLeft, Nat.testBit_shiftRight, hi, decide_true, Bool.true_and]
    by_cases hk : k ≤ i
    · simp [hk, Nat.not_lt.2 hk]
    · simp [hk, Nat.lt_of_not_le hk]
  · have hv : v.getLsbD i = false := BitVec.getLsbD_of_ge v i (Nat.le_of_not_lt hi)
    simp only [BitVec.testBit_toNat, BitVec.getLsbD_and, hv, Bool.false_and, Nat.testBit_shiftLeft,
      Nat.testBit_shiftRight]
    by_cases hk : k ≤ i
    · simp [hk, hv]
    · simp [hk]

/-- `TABLE_ALIGN` is a power of two (00_scope.md R12). -/
theorem tableAlign_eq_two_pow (p : Platform) : ∃ k, p.tableAlign = 2 ^ k := by
  unfold Platform.tableAlign Platform.chp
  split_ifs
  exacts [⟨5, rfl⟩, ⟨6, rfl⟩, ⟨7, rfl⟩, ⟨8, rfl⟩, ⟨9, rfl⟩, ⟨10, rfl⟩]

/-- Settles O7: the hard-wired bits are those below a power of two. -/
theorem basePointerWriteForcesAlignment : Obligations.BasePointerWriteForcesAlignment := by
  refine fun s v => ⟨⟨_, rfl, rfl, ?_⟩, rfl⟩
  obtain ⟨k, hk⟩ := tableAlign_eq_two_pow s.cfg
  rw [hk, ← toNat_and_not_lowBits v k, ← hk]
  rfl

/-- Settles O8. -/
theorem alternateBaseIsDerivedAndReadOnly : Obligations.AlternateBaseIsDerivedAndReadOnly :=
  fun _ _ => ⟨rfl, rfl⟩

/-! ### Write-one-to-set and write-one-to-clear words -/

/-- The bits of existing channels a written value names. -/
theorem bitOf_and_chanMask (p : Platform) (v : Word) (c : Chan) :
    bitOf (v &&& p.chanMask) c = (bitOf v c && decide (c.val < p.ch)) := by
  rw [bitOf_and, bitOf_chanMask]

theorem bitOf_setOnes_named (p : Platform) (x v : Word) (c : Chan) :
    bitOf (setOnes p x v) c = (bitOf x c || (bitOf v c && decide (c.val < p.ch))) := by
  rw [bitOf_setOnes, bitOf_chanMask]

theorem bitOf_clearOnes_named (p : Platform) (x v : Word) (c : Chan) :
    bitOf (clearOnes p x v) c = (bitOf x c && !(bitOf v c && decide (c.val < p.ch))) := by
  rw [bitOf_clearOnes, bitOf_chanMask]

/-- Settles O9. -/
theorem enableSetChangesOnlyTheNamedEnables : Obligations.EnableSetChangesOnlyTheNamedEnables :=
  fun s v _ => ⟨⟨_, rfl, rfl, bitOf_setOnes_named s.cfg s.en v⟩, rfl⟩

/-- Settles O11: each pair is a write-one-to-set and a write-one-to-clear of its own word. -/
theorem controlBitsAreSetAndClearedExactly : Obligations.ControlBitsAreSetAndClearedExactly := by
  intro s v _
  have hset (x : Word) := bitOf_setOnes_named s.cfg x v
  have hclear (x : Word) := bitOf_clearOnes_named s.cfg x v
  exact ⟨⟨⟨_, rfl, rfl, hset s.swun⟩, ⟨_, rfl, rfl, hclear s.swun⟩, rfl, rfl⟩,
    ⟨⟨_, rfl, rfl, hset s.pri⟩, ⟨_, rfl, rfl, hclear s.pri⟩, rfl, rfl⟩,
    ⟨⟨_, rfl, rfl, hset s.alt⟩, ⟨_, rfl, rfl, hclear s.alt⟩, rfl, rfl⟩,
    ⟨_, rfl, rfl, hset s.dien⟩, ⟨_, rfl, rfl, hclear s.dien⟩, rfl, rfl⟩

/-- Settles O12: each write is the acknowledgement of one event, a write-one-to-clear of its status word. -/
theorem statusIsClearedByWritingOnes : Obligations.StatusIsClearedByWritingOnes := by
  intro s v _
  have hclear (x : Word) := bitOf_clearOnes_named s.cfg x v
  exact ⟨⟨⟨_, rfl, rfl, hclear s.berr⟩, rfl⟩, ⟨⟨_, rfl, rfl, hclear s.inv⟩, rfl⟩,
    ⟨_, rfl, rfl, hclear s.done⟩, rfl⟩

/-! ### The host clear of enables (41_channel_engine.md R205, R231) -/

theorem bitOf_clearEnables_en (v : Word) (s : State) (c : Chan) :
    bitOf (clearEnables v s).en c = (bitOf s.en c && !bitOf (v &&& s.cfg.chanMask) c) := by
  simp [clearEnables]

theorem bitOf_clearEnables_pend (v : Word) (s : State) (c : Chan) :
    bitOf (clearEnables v s).pend c = (bitOf s.pend c && !bitOf (v &&& s.cfg.chanMask) c) := by
  simp [clearEnables]

/-- Settles O10, by whether the channel is named and its period in flight. -/
theorem enableClearDropsProgressUnlessInFlight : Obligations.EnableClearDropsProgressUnlessInFlight := by
  refine fun s v _ => ⟨⟨_, rfl, rfl, fun c => ?_⟩, rfl⟩
  rw [← bitOf_and_chanMask, bitOf_clearEnables_en, bitOf_clearEnables_pend, bitOf_clearEnables_run]
  refine ⟨rfl, rfl, ?kept, ?dropped⟩
  case kept =>
    rintro (hnot | hcur)
    · exact ⟨by simp [hnot], fun g => by rw [clearEnables_rem]; simp [hnot]⟩
    · exact ⟨by simp [hcur], clearEnables_rem_of_cur hcur⟩
  case dropped =>
    intro hnamed hcur
    exact ⟨by simp [hnamed, hcur], fun g => by rw [clearEnables_rem, if_pos ⟨hnamed, hcur⟩]⟩

/-! ### Requests (41_channel_engine.md R208, R210, R211) -/

theorem bitOf_softwareRequests_pend (v : Word) (s : State) (c : Chan) : bitOf (softwareRequests v s).pend c =
    (bitOf s.pend c || (bitOf v c && decide (c.val < s.cfg.ch) && bitOf s.en c && bitOf s.swun c)) := by
  simp only [softwareRequests, bitOf_or, bitOf_and, bitOf_chanMask]

/-- Settles O13. -/
theorem softwareRequestNeedsEnableAndUnmask : Obligations.SoftwareRequestNeedsEnableAndUnmask :=
  fun s v _ => ⟨⟨_, rfl, rfl, bitOf_softwareRequests_pend v s⟩, rfl⟩

theorem hardwareRequest_fields (c : Chan) (s : State) :
    hardwareRequest c s = { s with pend := (hardwareRequest c s).pend } := by
  unfold hardwareRequest
  split <;> rfl

theorem bitOf_hardwareRequest_pend {c : Chan} {s : State} (hc : c.val < s.cfg.ch) (d : Chan) :
    bitOf (hardwareRequest c s).pend d =
      (bitOf s.pend d || (decide (d = c) && bitOf s.en c && !bitOf s.swun c)) := by
  unfold hardwareRequest
  rw [Bool.and_assoc, Bool.and_assoc, decide_eq_true hc, Bool.true_and]
  split
  · next hacc => rw [hacc, Bool.and_true, bitOf_withBit, decide_eq_decide.2 eq_comm]
  · next hrej => rw [Bool.eq_false_of_not_eq_true hrej, Bool.and_false, Bool.or_false]

/-- Settles O14. -/
theorem hardwareRequestNeedsEnableAndHardwareMode : Obligations.HardwareRequestNeedsEnableAndHardwareMode :=
  fun s c rest hagenda hc =>
    ⟨hardwareRequest c { s with agenda := rest }, step_turn hagenda, hardwareRequest_fields c _,
      bitOf_hardwareRequest_pend hc⟩

end Sys2Proof.Machine

/-! The family of 41_channel_engine.md: arbitration, the grant and the fetch (R212 to R216). -/

namespace Sys2Proof.Machine

open Sys2Proof.Spec

/-! ### Arbitration (41_channel_engine.md R213) -/

/-- Candidates in the statements' spelling. -/
theorem mem_candidates_iff {s : State} {c : Chan} : c ∈ candidates s ↔ Candidate s c := mem_candidates

/-- The contenders stand in ascending order. -/
theorem contenders_pairwise_lt (s : State) : (contenders s).Pairwise (· < ·) := by
  have hcandidates : (candidates s).Pairwise (· < ·) := (List.pairwise_lt_finRange 32).filter _
  unfold contenders
  dsimp only
  split
  · exact hcandidates
  · exact hcandidates.filter _

/-- Under the default tie-break no contender is below the one chosen. -/
theorem arbitrate_le {s : State} {c d : Chan} (hlowest : s.cfg.arbTie = .lowest) (hc : arbitrate s = some c)
    (hd : d ∈ contenders s) : c ≤ d := by
  have hhead : (contenders s).head? = some c := by simpa [arbitrate, hlowest] using hc
  obtain ⟨tail, htail⟩ := List.head?_eq_some_iff.1 hhead
  have hsorted := contenders_pairwise_lt s
  rw [htail] at hd hsorted
  rcases List.mem_cons.1 hd with rfl | hd
  · exact le_refl _
  · exact le_of_lt (List.rel_of_pairwise_cons hsorted hd)

/-- Where there is a candidate there is a contender. -/
theorem contenders_ne_nil {s : State} {d : Chan} (hd : Candidate s d) : contenders s ≠ [] := by
  by_cases hhigh : ∃ e ∈ candidates s, bitOf s.pri e = true
  · obtain ⟨e, he, hpri⟩ := hhigh
    exact List.ne_nil_of_mem (mem_contenders.2 ⟨he, fun _ => hpri⟩)
  · exact List.ne_nil_of_mem (mem_contenders.2 ⟨mem_candidates_iff.2 hd, fun h => absurd h hhigh⟩)

/-- Either tie-break chooses some contender if there is one. -/
theorem arbitrate_isSome {s : State} (h : contenders s ≠ []) : ∃ c, arbitrate s = some c := by
  cases htie : s.cfg.arbTie with
  | lowest => exact ⟨_, by simpa [arbitrate, htie] using List.head?_eq_some_head h⟩
  | drawn =>
    have hlt := Nat.mod_lt (Config.draw s.draws).toNat (List.length_pos_of_ne_nil h)
    exact ⟨(contenders s)[_]'hlt, by simp only [arbitrate, htie]; exact List.getElem?_eq_getElem hlt⟩

/-- Settles O15: what is chosen is a contender, and the contenders of a priority are its candidates in ascending order. -/
theorem arbitrationPrefersHighPriority : Obligations.ArbitrationPrefersHighPriority := by
  refine fun s => ⟨fun c hc => ?_, fun ⟨d, hd⟩ => arbitrate_isSome (contenders_ne_nil hd)⟩
  obtain ⟨hcand, hpri⟩ := mem_contenders.1 (arbitrate_mem hc)
  refine ⟨mem_candidates_iff.1 hcand, fun ⟨d, hd, hhigh⟩ => hpri ⟨d, mem_candidates_iff.2 hd, hhigh⟩, ?_⟩
  exact fun hlowest d hd hsame =>
    arbitrate_le hlowest hc (mem_contenders.2 ⟨mem_candidates_iff.2 hd, fun hhigh => hsame.trans (hpri hhigh)⟩)

/-! ### The sequencer's step and the engine's reads -/

/-- When the sequencer moves, the step is its turn with the agenda left. -/
theorem step_of_seqMoves {s : State} {rest : List Turn} (h : SeqMoves s rest) :
    step s = seqTurn { s with agenda := rest } := by
  rcases h with hagenda | ⟨hagenda, rfl⟩
  · exact step_seq hagenda
  · rw [step_empty hagenda, ← hagenda]

/-- What an engine read of RAM answers, byte by byte. -/
theorem engineRead_ramAccess {s : State} {a : Word} {n : Nat} (hn : n ≤ 4) (hram : RamAccess s.cfg a n) :
    ∃ v m, engineRead a n s = .ok v { s with draws := m } ∧ ReadsFrom s.mem.readByte a n v ∧
      ((∀ j, j < n → s.mem.readByte (addrAt a j) ≠ none) → m = s.draws) :=
  ⟨_, _, engineRead_ram a n s (isBusError_eq_false (not_busErrorAccess_of_ramAccess hram)) (allRam_of_ramAccess hram),
    readsFrom_loadValue _ a n s.draws hn, drawsAfter_byteAddrs _ a n s.draws⟩

theorem engineRead_of_busError {s : State} {a : Word} {n : Nat} (h : BusErrorAccess s.cfg a n) :
    engineRead a n s = .busErr := (engineRead_busErr_iff a n s).2 ((isBusError_iff _ a n).2 h)

theorem engineWrite_of_busError {s : State} {a v : Word} {n : Nat} (h : BusErrorAccess s.cfg a n) :
    engineWrite a n v s = .busErr := (engineWrite_busErr_iff a n v s).2 ((isBusError_iff _ a n).2 h)

section
variable {c : Chan} {a : Word} {go : Word → State → Host.Outcome State Fault Refusal} {s : State}

theorem fetchRead_ok {v : Word} {t : State} (h : engineRead a 4 s = .ok v t) : fetchRead c a go s = go v t := by
  unfold fetchRead
  rw [h]

theorem fetchRead_of_busError (h : BusErrorAccess s.cfg a 4) :
    fetchRead c a go s = .next (raiseEvent .busErr c s) := by
  unfold fetchRead
  rw [engineRead_of_busError h]

end

/-- Settles O5, by the sequencer's phase. -/
theorem sequencerRunsTheFetchedInstruction : Obligations.SequencerRunsTheFetchedInstruction := by
  intro s rest hmoves
  rw [step_of_seqMoves hmoves]
  refine ⟨fun c g a w0 w1 w2 t hs hread => ?_, fun _ _ _ _ hs => seqTurn_period hs, fun _ _ _ _ _ hs => seqTurn_moving hs⟩
  rw [seqTurn_fetch2 (s := { s with agenda := rest }) hs, fetchRead_ok hread]
  rfl

/-! ### The grant and the fetch (41_channel_engine.md R214, R215) -/

/-- The slot of the half that `alt` selects, in the statements' spelling. -/
theorem slot_half (s : State) (c : Chan) : s.slot c (s.half c) = liveSlot s c := by
  unfold State.half liveSlot
  split <;> rfl

/-- A grant reads word 0 of the live slot. -/
theorem seqTurn_grant {s : State} {c : Chan} (hs : s.seq = .idle) (hc : arbitrate s = some c) :
    seqTurn s = fetchRead c (liveSlot s c)
      (fun w0 t => .next (t.setSeq (.fetch1 c (liveHalf s c) (liveSlot s c) w0))) (granted c s) := by
  rw [seqTurn_idle hs, grant_some hc, slot_half]
  rfl

/-- Settles O16. -/
theorem grantTakesTheRequestAndFetches : Obligations.GrantTakesTheRequestAndFetches := by
  intro s rest c hmoves
  rw [step_of_seqMoves hmoves]
  refine ⟨fun hs hc hram => ?_, fun g a w0 hs hram => ?_⟩
  · have hturn := seqTurn_grant (s := { s with agenda := rest }) hs hc
    obtain ⟨v, m, hread, hfrom, -⟩ :=
      engineRead_ramAccess (s := granted c { s with agenda := rest }) (by omega) hram
    refine ⟨_, v, hturn.trans (fetchRead_ok hread), rfl, hfrom, fun d => ?_, fun d => ?_⟩
    · exact (bitOf_withoutBit s.pend c d).trans (by rw [decide_eq_decide.2 eq_comm])
    · exact (bitOf_withBit s.run c d).trans (by rw [decide_eq_decide.2 eq_comm])
  · have hturn := seqTurn_fetch1 (s := { s with agenda := rest }) hs
    obtain ⟨v, m, hread, hfrom, -⟩ := engineRead_ramAccess (s := { s with agenda := rest }) (by omega) hram
    exact ⟨_, v, hturn.trans (fetchRead_ok hread), rfl, hfrom⟩

/-! ### A bus error of the fetch (60_exceptions.md R372) -/

/-- `raise BusErr(c)` has the effect of R372, and no other. -/
theorem raiseEvent_busErrRaised (c : Chan) (s : State) : BusErrRaised c s (raiseEvent .busErr c s) := by
  rw [raiseEvent_busErr]
  refine ⟨⟨rfl, fun d => ?_, fun d => ?_, fun d => ?_, rem_of_clear rfl⟩, rfl, fun d => ?_⟩ <;> simp [eq_comm]

/-- The event takes back what the grant did to its channel, but for the draw of the arbitration. -/
theorem raiseEvent_busErr_granted (c : Chan) (s : State) :
    raiseEvent .busErr c (granted c s) = raiseEvent .busErr c { s with draws := arbitrationDraws s } := by
  have hpend : withoutBit (withoutBit s.pend c) c = withoutBit s.pend c := word_ext fun d => by simp
  have hrun : withoutBit (withBit s.run c) c = withoutBit s.run c := word_ext fun d => by
    by_cases hcd : c = d <;> simp [hcd]
  rw [raiseEvent_busErr, raiseEvent_busErr]
  simp only [granted, hpend, hrun]

/-- Settles O17, by the read that fails. -/
theorem fetchBusErrorDisablesTheChannel : Obligations.FetchBusErrorDisablesTheChannel := by
  intro s rest c g a w0 w1 hmoves hcase
  rw [step_of_seqMoves hmoves]
  rcases hcase with ⟨hs, hc, hbus⟩ | ⟨hs, hbus⟩ | ⟨hs, hbus⟩
  · have hturn := seqTurn_grant (s := { s with agenda := rest }) hs hc
    refine ⟨_, hturn.trans (fetchRead_of_busError hbus), ?_, fun hidle => absurd hs hidle⟩
    rw [raiseEvent_busErr_granted, raiseEvent_draws]
    exact raiseEvent_busErrRaised c _
  · have hturn := seqTurn_fetch1 (s := { s with agenda := rest }) hs
    refine ⟨_, hturn.trans (fetchRead_of_busError hbus), ?_, fun _ => raiseEvent_draws _ _ _⟩
    rw [raiseEvent_draws]
    exact raiseEvent_busErrRaised c _
  · have hturn := seqTurn_fetch2 (s := { s with agenda := rest }) hs
    refine ⟨_, hturn.trans (fetchRead_of_busError hbus), ?_, fun _ => raiseEvent_draws _ _ _⟩
    rw [raiseEvent_draws]
    exact raiseEvent_busErrRaised c _

end Sys2Proof.Machine

/-! The family of 41_channel_engine.md: what a descriptor does once it is fetched (R217 to R232). -/

namespace Sys2Proof.Machine

open Sys2Proof.Spec

/-! ### The cycle types that move data -/

/-- `RunsBy d i rule`: `i` is an instruction that moves data, with the operands `d`, and `rule` is its cycle type's. -/
inductive RunsBy (d : Desc) : Instr → CycleRule → Prop where
  | basic : RunsBy d (.basic d) basicRule
  | autoreq : RunsBy d (.autoreq d) autoreqRule
  | pingpong : RunsBy d (.pingpong d) pingpongRule
  | sgpri : RunsBy d (.sgpri d) sgpriRule
  | sgalt : RunsBy d (.sgalt d) sgaltRule

theorem runsBy_of_movingType {d : Desc} {i : Instr} (h : MovingType d i) : ∃ rule, RunsBy d i rule := by
  rcases h with rfl | rfl | rfl | rfl | rfl
  exacts [⟨_, .basic⟩, ⟨_, .autoreq⟩, ⟨_, .pingpong⟩, ⟨_, .sgpri⟩, ⟨_, .sgalt⟩]

theorem RunsBy.exec_eq {d : Desc} {i : Instr} {rule : CycleRule} (h : RunsBy d i rule) (s : State) :
    exec i s = runDescriptor rule d s := by cases h <;> rfl

theorem RunsBy.framed {d : Desc} {i : Instr} {rule : CycleRule} (h : RunsBy d i rule) : rule.Framed := by
  cases h
  exacts [basicRule_framed, autoreqRule_framed, pingpongRule_framed, sgpriRule_framed, sgaltRule_framed]

/-- The destination address of the rule, in the statements' spelling. -/
theorem RunsBy.dstAddr_eq {d : Desc} {i : Instr} {rule : CycleRule} (h : RunsBy d i rule) (r : Nat) :
    d.dstAddr (rule.dstUnits r) = dstOf i d r := by cases h <;> rfl

/-- The instruction three words hold is of a type that moves data, or invalid. -/
theorem decodeWords_runsBy (w0 w1 w2 : Word) :
    (∃ d rule, RunsBy d (decodeWords w0 w1 w2) rule) ∨ ∀ s, exec (decodeWords w0 w1 w2) s = runInvalid s := by
  rw [decodeWords_eq_cycleInstr]
  unfold cycleInstr
  split
  exacts [.inr fun _ => rfl, .inl ⟨_, _, .basic⟩, .inl ⟨_, _, .autoreq⟩, .inl ⟨_, _, .pingpong⟩, .inl ⟨_, _, .sgpri⟩,
    .inl ⟨_, _, .sgalt⟩, .inr fun _ => rfl, .inr fun _ => rfl]

/-! ### Admission (41_channel_engine.md R217 to R220) -/

theorem malformed_of_not_validFields {d : Desc} (h : ¬ ValidFields d) : d.malformed = true :=
  Bool.eq_true_of_not_eq_false fun hf => h ((malformed_eq_false_iff d).1 hf)

/-- The fixed fields of a message, in the statements' spelling. -/
theorem isMessage_iff (d : Desc) : d.isMessage = true ↔ MessageFields d := by
  unfold Desc.isMessage
  simp only [Bool.and_eq_true, decide_eq_true_eq, and_assoc]
  rfl

theorem sgpriRefuse_primary (d : Desc) : sgpriRefuse .primary d = if d.isMessage then none else some .sgMessageFields := rfl

section
variable {rule : CycleRule} {d : Desc} {c : Chan} {h : Half} {w : RawDesc} {s : State} (hs : s.seq = .fetched c h w)
  (hd : ValidFields d)
include hs hd

/-- A valid descriptor that its rule admits begins its period. -/
theorem runDescriptor_admitted (hadmit : rule.refuse h d = none) :
    runDescriptor rule d s = .next ((s.setRem c h (some ((s.rem c h).getD d.count))).setSeq
      (.period c h (d.periodLength ((s.rem c h).getD d.count)) w)) := by
  rw [runDescriptor_fetched hs]
  simp [admission, (malformed_eq_false_iff d).2 hd, hadmit]

/-- A valid descriptor that its rule refuses is refused. -/
theorem runDescriptor_refused {e : Refusal} (hrefuse : rule.refuse h d = some e) :
    runDescriptor rule d s = .refused e := by
  rw [runDescriptor_fetched hs]
  simp [admission, (malformed_eq_false_iff d).2 hd, hrefuse]

end

/-- Settles O20: each type is admitted in the halves it may stand in. -/
theorem admittedDescriptorStartsItsPeriod : Obligations.AdmittedDescriptorStartsItsPeriod := by
  intro s c h w d i hs hd hi
  obtain ⟨rule, hrule, hadmit⟩ : ∃ rule, RunsBy d i rule ∧ rule.refuse h d = none := by
    rcases hi with rfl | rfl | rfl | ⟨rfl, rfl⟩ | ⟨rfl, rfl, hmessage⟩
    · exact ⟨_, .basic, rfl⟩
    · exact ⟨_, .autoreq, rfl⟩
    · exact ⟨_, .pingpong, rfl⟩
    · exact ⟨_, .sgalt, rfl⟩
    · exact ⟨_, .sgpri, (sgpriRefuse_primary d).trans (if_pos ((isMessage_iff d).2 hmessage))⟩
  refine ⟨_, _, (hrule.exec_eq s).trans (runDescriptor_admitted hs hd hadmit), rfl, fun hidle => by rw [hidle]; rfl,
    fun n hn => by rw [hn]; rfl, fun e g => ?_, rfl⟩
  simp [eq_comm]

/-- Settles O21: the validity test comes first, then the half, then the message's fields. -/
theorem misplacedScatterGatherIsRefused : Obligations.MisplacedScatterGatherIsRefused := by
  refine fun s c h w d hs => ⟨fun hd => ⟨?_, ?_, ?_⟩, fun hd => ?_⟩
  · rintro rfl
    exact runDescriptor_refused hs hd (rule := sgpriRule) rfl
  · rintro rfl
    exact runDescriptor_refused hs hd (rule := sgaltRule) rfl
  · rintro rfl hmessage
    exact runDescriptor_refused hs hd (rule := sgpriRule)
      ((sgpriRefuse_primary d).trans (if_neg fun hm => hmessage ((isMessage_iff d).1 hm)))
  · have hevent := runDescriptor_malformed hs
    exact ⟨⟨_, hevent sgpriRule (malformed_of_not_validFields hd), raiseEvent_invDescRaised c s⟩,
      _, hevent sgaltRule (malformed_of_not_validFields hd), raiseEvent_invDescRaised c s⟩

/-! ### Units (41_channel_engine.md R221 to R223) -/

/-- A unit of a valid descriptor is at most a word. -/
theorem bytes_le_of_validFields {d : Desc} (hd : ValidFields d) : d.wid.bytes ≤ 4 := by
  obtain ⟨hw, -, -⟩ := hd
  revert hw
  cases d.wid <;> decide

section
variable {d : Desc} {i : Instr} {rule : CycleRule} {c : Chan} {h : Half} {k r : Nat} {w : RawDesc} {s : State}
  (hrule : RunsBy d i rule) (hr : s.rem c h = some r)
include hrule hr

/-- The read of a unit, by what the access to its source address answers. -/
theorem exec_unitRead (hs : s.seq = .period c h k w) (hk : 1 ≤ k) :
    (∀ v t, engineRead (srcOf d r) d.wid.bytes s = .ok v t → exec i s = .next { t with seq := .moving c h k w v }) ∧
    (∀ e, engineRead (srcOf d r) d.wid.bytes s = .refused e → exec i s = .refused e) ∧
    (BusErrorAccess s.cfg (srcOf d r) d.wid.bytes → exec i s = .next (raiseEvent .busErr c s)) := by
  have haddr : d.srcAddr ((s.rem c h).getD 0) = srcOf d r := by rw [hr]; rfl
  rw [hrule.exec_eq, runDescriptor_period hs (by omega), unitRead, haddr]
  refine ⟨fun v t hread => ?_, fun e hread => ?_, fun hbus => ?_⟩
  · rw [hread]; rfl
  · rw [hread]
  · rw [engineRead_of_busError hbus]

/-- The write of a unit, by what the access to its destination address answers. -/
theorem exec_unitWrite {v : Word} (hs : s.seq = .moving c h k w v) :
    (∀ u, engineWrite (dstOf i d r) d.wid.bytes v s = .ok () u →
      exec i s = .next ((u.setRem c h (some (r - 1))).setSeq (.period c h (k - 1) w))) ∧
    (∀ e, engineWrite (dstOf i d r) d.wid.bytes v s = .refused e → exec i s = .refused e) ∧
    (BusErrorAccess s.cfg (dstOf i d r) d.wid.bytes → exec i s = .next (raiseEvent .busErr c s)) := by
  have hunits : (s.rem c h).getD 0 = r := by rw [hr]; rfl
  rw [hrule.exec_eq, runDescriptor_moving hs, unitWrite, hunits, hrule.dstAddr_eq]
  refine ⟨fun u hwrite => ?_, fun e hwrite => ?_, fun hbus => ?_⟩
  · rw [hwrite]
  · rw [hwrite]
  · rw [engineWrite_of_busError hbus]

end

/-- What an engine write of RAM answers, byte by byte. -/
theorem engineWrite_ramAccess {s : State} {a v : Word} {n : Nat} (hn : n ≤ 4) (hram : RamAccess s.cfg a n) :
    ∃ m, engineWrite a n v s = .ok () { s with mem := m } ∧ Stored s.mem m a n v :=
  ⟨_, engineWrite_ram a n v s (isBusError_eq_false (not_busErrorAccess_of_ramAccess hram)) (allRam_of_ramAccess hram),
    stored_writeCells s.mem a v n (by omega)⟩

/-- Settles O22. -/
theorem unitReadTakesTheSourceValue : Obligations.UnitReadTakesTheSourceValue := by
  intro s c h k r w d i hs hk hr hd hi
  obtain ⟨rule, hrule⟩ := runsBy_of_movingType hi
  obtain ⟨hok, hrefused, -⟩ := exec_unitRead hrule hr hs hk
  refine ⟨hok, hrefused, fun hram => ?_⟩
  obtain ⟨v, m, hread, hfrom, hdraws⟩ := engineRead_ramAccess (bytes_le_of_validFields hd) hram
  exact ⟨_, v, hok v _ hread, rfl, hfrom, hdraws⟩

/-- Settles O23. -/
theorem unitWriteStoresTheUnit : Obligations.UnitWriteStoresTheUnit := by
  intro s c h k r w d i v hs hr hd hi
  obtain ⟨rule, hrule⟩ := runsBy_of_movingType hi
  obtain ⟨hok, hrefused, -⟩ := exec_unitWrite hrule hr hs
  have hrem (u : State) (e : Chan) (g : Half) :
      (u.setRem c h (some (r - 1))).rem e g = if e = c ∧ g = h then some (r - 1) else u.rem e g := by simp [eq_comm]
  refine ⟨fun u hwrite => ⟨_, hok u hwrite, rfl, fun e g => ?_⟩, hrefused, fun hram => ?_⟩
  · rw [State.rem_setSeq, hrem, (engineWrite_frame hwrite).rem_eq]
  · obtain ⟨m, hwrite, hstored⟩ := engineWrite_ramAccess (bytes_le_of_validFields hd) hram
    exact ⟨_, hok _ hwrite, rfl, hrem { s with mem := m }, hstored⟩

/-- Settles O24: the event, and nothing of the unit. -/
theorem unitBusErrorDisablesTheChannel : Obligations.UnitBusErrorDisablesTheChannel := by
  intro s c h k r w d i v hr hi hcase
  obtain ⟨rule, hrule⟩ := runsBy_of_movingType hi
  refine ⟨_, ?_, raiseEvent_busErrRaised c s⟩
  rcases hcase with ⟨hs, hk, hbus⟩ | ⟨hs, hbus⟩
  · obtain ⟨-, -, hevent⟩ := exec_unitRead hrule hr hs hk
    exact hevent hbus
  · obtain ⟨-, -, hevent⟩ := exec_unitWrite hrule hr hs
    exact hevent hbus

end Sys2Proof.Machine

/-! The family of 41_channel_engine.md: the period end (R224 to R232). -/

namespace Sys2Proof.Machine

open Sys2Proof.Spec

/-! ### The action before the clean-up (41_channel_engine.md R224) -/

/-- A period end but for its clean-up: the continuation action if units remain, else the counter back to `IDLE` and the
completion action. -/
def periodAction (rule : CycleRule) (c : Chan) (h : Half) (s : State) : State :=
  if 0 < (s.rem c h).getD 0 then rule.continuation c (s.setSeq .idle)
  else rule.completion c ((s.setSeq .idle).setRem c h none)

theorem periodEnd_eq_cleanUp (rule : CycleRule) (c : Chan) (h : Half) (s : State) :
    periodEnd rule c h s = cleanUp c (periodAction rule c h s) := by
  rw [periodEnd_eq, periodAction]
  split <;> rfl

section
variable {rule : CycleRule} {c : Chan} {h : Half} {s : State}

theorem periodAction_left {r : Nat} (hr : s.rem c h = some r) (hpos : 0 < r) :
    periodAction rule c h s = rule.continuation c (s.setSeq .idle) := by
  simp [periodAction, hr, hpos]

theorem periodAction_complete (hr : (s.rem c h).getD 0 = 0) :
    periodAction rule c h s = rule.completion c ((s.setSeq .idle).setRem c h none) := by
  simp [periodAction, hr]

/-- The action touches the channel's own bits, the sequencer's phase and the counter of the slot. -/
theorem periodAction_frame (hrule : rule.Framed) :
    ActionFrame c { s with seq := .idle, progress := (periodAction rule c h s).progress } (periodAction rule c h s) ∧
    ∀ d g, d ≠ c → (periodAction rule c h s).rem d g = s.rem d g := by
  unfold periodAction
  split
  · obtain ⟨hframe, -⟩ := hrule c (s.setSeq .idle)
    have hprogress : (rule.continuation c (s.setSeq .idle)).progress = s.progress := by rw [hframe.eq]; rfl
    exact ⟨by rw [hprogress]; exact hframe, fun d g _ => State.rem_congr hprogress d g⟩
  · obtain ⟨-, hframe⟩ := hrule c ((s.setSeq .idle).setRem c h none)
    have hprogress : (rule.completion c ((s.setSeq .idle).setRem c h none)).progress =
        (s.setRem c h none).progress := by rw [hframe.eq]; rfl
    refine ⟨by rw [hprogress]; exact hframe, fun d g hdc => (State.rem_congr hprogress d g).trans ?_⟩
    rw [State.rem_setRem, if_neg fun hcd => hdc hcd.1.symm]

end

@[simp] theorem awaitRequest_en (buys : RequestBuys) (c : Chan) (s : State) : (awaitRequest buys c s).en = s.en := by
  cases buys <;> simp

@[simp] theorem awaitRequest_alt (buys : RequestBuys) (c : Chan) (s : State) : (awaitRequest buys c s).alt = s.alt := by
  cases buys <;> simp

@[simp] theorem awaitRequest_done (buys : RequestBuys) (c : Chan) (s : State) : (awaitRequest buys c s).done = s.done := by
  cases buys <;> simp

@[simp] theorem awaitRequest_progress (buys : RequestBuys) (c : Chan) (s : State) :
    (awaitRequest buys c s).progress = s.progress := by
  cases buys <;> simp

@[simp] theorem completeAndStop_en (c : Chan) (s : State) : (completeAndStop c s).en = withoutBit s.en c := rfl

@[simp] theorem completeAndStop_done (c : Chan) (s : State) : (completeAndStop c s).done = withBit s.done c := rfl

@[simp] theorem completeAndSwitch_done (c : Chan) (s : State) : (completeAndSwitch c s).done = withBit s.done c := by
  simp [completeAndSwitch, raiseEvent]

theorem bitOf_setHalf_alt (s : State) (c : Chan) (h : Half) (e : Chan) :
    bitOf (s.setHalf c h).alt e = if e = c then decide (h = .alternate) else bitOf s.alt e := by
  by_cases hec : e = c
  · cases h <;> simp [State.setHalf, hec]
  · cases h <;> simp [State.setHalf, hec, Ne.symm hec]

theorem bitOf_linkTo_alt (h : Half) (c : Chan) (s : State) (e : Chan) :
    bitOf (linkTo h c s).alt e = if e = c then decide (h = .alternate) else bitOf s.alt e := by
  rw [linkTo, selfRequest_alt, bitOf_setHalf_alt]

theorem bitOf_completeAndSwitch_alt (c : Chan) (s : State) (e : Chan) :
    bitOf (completeAndSwitch c s).alt e = if e = c then !bitOf s.alt e else bitOf s.alt e := by
  have hswitch : decide (otherHalf (s.half c) = .alternate) = !bitOf s.alt c := by
    unfold State.half
    cases bitOf s.alt c <;> rfl
  refine (bitOf_setHalf_alt _ c _ e).trans ?_
  by_cases hec : e = c
  · rw [if_pos hec, if_pos hec, hec]
    exact hswitch
  · rw [if_neg hec, if_neg hec]
    rfl

/-! ### What the actions of the five types do to the enables, to Done and to `alt` -/

section
variable {d : Desc} {i : Instr} {rule : CycleRule} (hrule : RunsBy d i rule) (c : Chan) (s : State)
include hrule

/-- No continuation action disables a channel or reports Done. -/
theorem RunsBy.continuation_en_done :
    (rule.continuation c s).en = s.en ∧ (rule.continuation c s).done = s.done := by
  cases hrule with
  | basic | pingpong => exact ⟨awaitRequest_en _ c s, awaitRequest_done _ c s⟩
  | autoreq | sgalt => exact ⟨selfRequest_en s c, selfRequest_done s c⟩
  | sgpri => exact ⟨linkTo_en s _ c, linkTo_done s _ c⟩

/-- The completion of `BASIC` and `AUTOREQ` alone disables the channel. -/
theorem RunsBy.completion_en :
    (rule.completion c s).en = if i = .basic d ∨ i = .autoreq d then withoutBit s.en c else s.en := by
  cases hrule with
  | basic | autoreq => simp [basicRule, autoreqRule]
  | pingpong | sgpri | sgalt => simp [pingpongRule, sgpriRule, sgaltRule]

/-- The completion of all but the scatter-gather types reports Done. -/
theorem RunsBy.completion_done : (rule.completion c s).done =
    if i = .basic d ∨ i = .autoreq d ∨ i = .pingpong d then withBit s.done c else s.done := by
  cases hrule with
  | basic | autoreq | pingpong => simp [basicRule, autoreqRule, pingpongRule]
  | sgpri | sgalt => simp [sgpriRule, sgaltRule]

theorem RunsBy.bitOf_continuation_alt {r : Nat} (hpos : 0 < r) (e : Chan) : bitOf (rule.continuation c s).alt e =
    if e = c then altAfter i r (bitOf s.alt e) else bitOf s.alt e := by
  have hr : r ≠ 0 := by omega
  cases hrule with
  | basic | autoreq | pingpong | sgalt => simp [basicRule, autoreqRule, pingpongRule, sgaltRule, altAfter, hr]
  | sgpri => exact bitOf_linkTo_alt .alternate c s e

theorem RunsBy.bitOf_completion_alt (e : Chan) : bitOf (rule.completion c s).alt e =
    if e = c then altAfter i 0 (bitOf s.alt e) else bitOf s.alt e := by
  cases hrule with
  | basic | autoreq => simp [basicRule, autoreqRule, altAfter]
  | pingpong => exact bitOf_completeAndSwitch_alt c s e
  | sgpri => exact bitOf_linkTo_alt .alternate c s e
  | sgalt => exact bitOf_linkTo_alt .primary c s e

end

section
variable {d : Desc} {i : Instr} {rule : CycleRule} (hrule : RunsBy d i rule) {c : Chan} {h : Half} {s : State}
include hrule

/-- A period end clears an enable at the completion of `BASIC` and `AUTOREQ` only (41_channel_engine.md R230). -/
theorem RunsBy.periodAction_en : (periodAction rule c h s).en =
    if (s.rem c h).getD 0 = 0 ∧ (i = .basic d ∨ i = .autoreq d) then withoutBit s.en c else s.en := by
  by_cases hr : (s.rem c h).getD 0 = 0
  · rw [periodAction_complete hr, hrule.completion_en]
    simp [hr]
  · rw [periodAction, if_pos (Nat.pos_of_ne_zero hr), if_neg fun hand => hr hand.1]
    exact (hrule.continuation_en_done c _).1

/-- A period end reports Done at the completion of all but the scatter-gather types only. -/
theorem RunsBy.periodAction_done : (periodAction rule c h s).done =
    if (s.rem c h).getD 0 = 0 ∧ (i = .basic d ∨ i = .autoreq d ∨ i = .pingpong d) then withBit s.done c else s.done := by
  by_cases hr : (s.rem c h).getD 0 = 0
  · rw [periodAction_complete hr, hrule.completion_done]
    simp [hr]
  · rw [periodAction, if_pos (Nat.pos_of_ne_zero hr), if_neg fun hand => hr hand.1]
    exact (hrule.continuation_en_done c _).2

variable {r : Nat} (hr : s.rem c h = some r)
include hr

theorem RunsBy.bitOf_periodAction_done (e : Chan) : bitOf (periodAction rule c h s).done e =
    (bitOf s.done e || (decide (e = c) && decide (r = 0 ∧ (i = .basic d ∨ i = .autoreq d ∨ i = .pingpong d)))) := by
  rw [hrule.periodAction_done, hr, Option.getD_some]
  split
  · next hdone => simp [hdone, eq_comm]
  · next hdone => simp [hdone]

theorem RunsBy.bitOf_periodAction_alt (e : Chan) : bitOf (periodAction rule c h s).alt e =
    if e = c then altAfter i r (bitOf s.alt e) else bitOf s.alt e := by
  rcases Nat.eq_zero_or_pos r with rfl | hpos
  · rw [periodAction_complete (by rw [hr]; rfl)]
    exact hrule.bitOf_completion_alt c _ e
  · rw [periodAction_left hr hpos]
    exact hrule.bitOf_continuation_alt c _ hpos e

end

/-! ### The period end on an enabled channel (41_channel_engine.md R226, R227) -/

theorem RunsBy.exec_periodEnd {d : Desc} {i : Instr} {rule : CycleRule} (hrule : RunsBy d i rule) {s : State} {c : Chan}
    {h : Half} {w : RawDesc} (hs : s.seq = .period c h 0 w) : exec i s = .next (periodEnd rule c h s) :=
  (hrule.exec_eq s).trans (runDescriptor_end hs)

/-- With units left on an enabled channel the period end is the continuation action: there is nothing to clean up. -/
theorem RunsBy.periodEnd_left {d : Desc} {i : Instr} {rule : CycleRule} (hrule : RunsBy d i rule) {s : State} {c : Chan}
    {h : Half} {r : Nat} (hr : s.rem c h = some r) (hpos : 0 < r) (hen : bitOf s.en c = true) :
    periodEnd rule c h s = rule.continuation c (s.setSeq .idle) := by
  obtain ⟨hkeep, -⟩ := hrule.continuation_en_done c (s.setSeq .idle)
  rw [periodEnd_eq_cleanUp, periodAction_left hr hpos, cleanUp_enabled (by rw [hkeep]; exact hen)]

theorem selfRequest_enabled {c : Chan} {s : State} (hen : bitOf s.en c = true) :
    selfRequest c s = { s with pend := withBit s.pend c } := if_pos hen

/-- Completion by `completeAndStop`, written out with its clean-up. -/
theorem periodEnd_stop {rule : CycleRule} (hstop : rule.completion = completeAndStop) {s : State} {c : Chan} {h : Half}
    (hr : (s.rem c h).getD 0 = 0) :
    periodEnd rule c h s =
      { s with seq := .idle, done := withBit s.done c, en := withoutBit s.en c, pend := withoutBit s.pend c,
               run := withoutBit s.run c, progress := s.progress.set c.val Progress.idle } := by
  rw [periodEnd_eq_cleanUp, periodAction_complete hr, hstop, cleanUp_disabled (bitOf_withoutBit_self _ _)]
  simp [completeAndStop, raiseEvent, State.setRem, State.setSeq]

/-- The completion of `BASIC` and `AUTOREQ` in the statements' spelling. -/
theorem periodEnd_stop_effect {rule : CycleRule} (hstop : rule.completion = completeAndStop) {s : State} {c : Chan}
    {h : Half} (hr : s.rem c h = some 0) {t : State} (ht : t = periodEnd rule c h s) :
    DisabledByError c { s with done := t.done } t ∧ t.berr = s.berr ∧ t.inv = s.inv ∧
      ∀ e, bitOf t.done e = (bitOf s.done e || decide (e = c)) := by
  rw [periodEnd_stop hstop (by rw [hr]; rfl)] at ht
  subst ht
  refine ⟨⟨rfl, fun e => ?_, fun e => ?_, fun e => ?_, rem_of_clear rfl⟩, rfl, rfl, fun e => ?_⟩ <;> simp [eq_comm]

/-- Settles O25, by the units left and by what a request buys. -/
theorem basicAwaitsARequestOrCompletes : Obligations.BasicAwaitsARequestOrCompletes := by
  intro s c h r w d hs hr hen
  have hexec : exec (.basic d) s = .next (periodEnd basicRule c h s) := RunsBy.basic.exec_periodEnd hs
  have hleft (hpos : 0 < r) : periodEnd basicRule c h s = awaitRequest s.cfg.basicBuys c (s.setSeq .idle) :=
    (RunsBy.basic (d := d)).periodEnd_left hr hpos hen
  refine ⟨fun hpos hbuys => ?_, fun hpos hbuys => ?_, ?_⟩
  · rw [hexec, hleft hpos, hbuys]
    rfl
  · rw [hbuys, awaitRequest_cycle, selfRequest_enabled (s := s.setSeq .idle) hen] at hleft
    rw [hexec, hleft hpos]
    exact ⟨_, rfl, rfl, fun e => by simp [eq_comm]⟩
  · rintro rfl
    exact ⟨_, hexec, periodEnd_stop_effect rfl hr rfl⟩

/-- Settles O26, by the units left. -/
theorem autoRequestRequestsItselfOrCompletes : Obligations.AutoRequestRequestsItselfOrCompletes := by
  intro s c h r w d hs hr hen
  have hexec : exec (.autoreq d) s = .next (periodEnd autoreqRule c h s) := RunsBy.autoreq.exec_periodEnd hs
  refine ⟨fun hpos => ?_, ?_⟩
  · have hleft : periodEnd autoreqRule c h s = selfRequest c (s.setSeq .idle) :=
      (RunsBy.autoreq (d := d)).periodEnd_left hr hpos hen
    rw [hexec, hleft, selfRequest_enabled (s := s.setSeq .idle) hen]
    exact ⟨_, rfl, rfl, fun e => by simp [eq_comm]⟩
  · rintro rfl
    exact ⟨_, hexec, periodEnd_stop_effect rfl hr rfl⟩

/-! ### The period end on a disabled channel (41_channel_engine.md R231, R232) -/

/-- The clean-up of a channel that an action found disabled takes back its request; the action's `alt` and Done stay. -/
theorem cleanUp_of_actionFrame {c : Chan} {s t : State} (f : ActionFrame c s t) (hen : bitOf s.en c = false) :
    cleanUp c t = { s with alt := t.alt, done := t.done, pend := withoutBit s.pend c, run := withoutBit s.run c,
                           progress := s.progress.set c.val Progress.idle } := by
  have hten : t.en = s.en := word_ext fun e => by
    by_cases hec : e = c
    · rw [hec, hen]
      exact Bool.eq_false_of_not_eq_true fun ht => by simp [f.en_le c ht] at hen
    · exact f.en e hec
  have hpend : withoutBit t.pend c = withoutBit s.pend c := word_ext fun e => by
    by_cases hec : e = c
    · simp [hec]
    · simp [f.pend e hec]
  rw [cleanUp_disabled (by rw [hten]; exact hen), hpend, f.eq, hten]

/-- Settles O29: the action of the type, then the clean-up of a disabled channel. -/
theorem disabledPeriodEndClearsProgress : Obligations.DisabledPeriodEndClearsProgress := by
  intro s c h r w d i hs hr hen hi
  obtain ⟨rule, hrule⟩ := runsBy_of_movingType hi
  obtain ⟨hframe, hothers⟩ := periodAction_frame (c := c) (h := h) (s := s) hrule.framed
  have hexec := hrule.exec_periodEnd hs
  rw [periodEnd_eq_cleanUp, cleanUp_of_actionFrame hframe hen] at hexec
  refine ⟨_, hexec, rfl, hrule.bitOf_periodAction_done hr, hrule.bitOf_periodAction_alt hr, fun e => ?_, fun e => ?_,
    fun e g => ?_⟩
  · simp [eq_comm]
  · simp [eq_comm]
  · rw [rem_of_clear (s := periodAction rule c h s) rfl]
    exact ite_congr rfl (fun _ => rfl) fun hec => hothers e g hec

end Sys2Proof.Machine

/-! The family of 41_channel_engine.md: what the sequencer's step can do to the state (R230, R235), and a period that runs
to its end. -/

namespace Sys2Proof.Machine

open Sys2Proof.Spec

/-! ### The effects of the sequencer's turn -/

/-- The ways a turn of the sequencer can change the state: work that leaves the enables, `alt` and the status words alone,
an error event, or a period end. -/
inductive SeqEffect (s t : State) : Prop where
  | work (eq : t = { s with pend := t.pend, run := t.run, progress := t.progress, seq := t.seq, mem := t.mem,
                            fifos := t.fifos, sram := t.sram, draws := t.draws })
  | busErr (c : Chan) (draws : Nat) (eq : t = raiseEvent .busErr c { s with draws := draws })
  | invDesc (c : Chan) (fifos : Vector FifoChan 12) (draws : Nat)
      (eq : t = raiseEvent .invDesc c { s with fifos := fifos, draws := draws })
  | periodEnd (c : Chan) (g : Half) (w : RawDesc) (d : Desc) (rule : CycleRule) (phase : s.seq = .period c g 0 w)
      (runs : RunsBy d (decodeWords w.w0 w.w1 w.w2) rule) (eq : t = periodEnd rule c g s)

/-- The meaning of the descriptor just fetched, after what the last fetch read did: the period begun, or the event. -/
theorem seqEffect_fetched {s u t : State} {c : Chan} {g : Half} {w : RawDesc} {w0 w1 w2 : Word}
    (hu : u = { s with fifos := u.fifos, draws := u.draws })
    (hx : exec (decodeWords w0 w1 w2) (u.setSeq (.fetched c g w)) = .next t) : SeqEffect s t := by
  have hevent : SeqEffect s (raiseEvent .invDesc c u) :=
    .invDesc c u.fifos u.draws (congrArg (raiseEvent .invDesc c) hu)
  obtain ⟨d, rule, hrule⟩ | hinvalid := decodeWords_runsBy w0 w1 w2
  · rw [hrule.exec_eq, runDescriptor_fetched rfl] at hx
    obtain ⟨-, rfl⟩ | ⟨-, -, rfl⟩ := admit_cases hx
    · exact hevent
    · exact .work (by rw [hu]; rfl)
  · rw [hinvalid, runInvalid_fetched rfl] at hx
    cases hx
    exact hevent

/-- A turn of the sequencer that answers a next state has one of these effects. -/
theorem seqTurn_effect {s t : State} (hx : seqTurn s = .next t) : SeqEffect s t := by
  cases hs : s.seq with
  | idle =>
    cases hc : arbitrate s with
    | none =>
      rw [seqTurn_idle hs, grant_none hc] at hx
      cases hx
      exact .work rfl
    | some c =>
      rw [seqTurn_grant hs hc] at hx
      obtain ⟨v, u, hread, -, hu⟩ | ⟨-, rfl⟩ := fetchRead_cases hx
      · cases hu
        exact .work (by rw [engineRead_fields hread]; rfl)
      · exact .busErr c _ (raiseEvent_busErr_granted c s)
  | fetch1 c g a w0 =>
    rw [seqTurn_fetch1 hs] at hx
    obtain ⟨v, u, hread, -, hu⟩ | ⟨-, rfl⟩ := fetchRead_cases hx
    · cases hu
      exact .work (by rw [engineRead_fields hread]; rfl)
    · exact .busErr c s.draws rfl
  | fetch2 c g a w0 w1 =>
    rw [seqTurn_fetch2 hs] at hx
    obtain ⟨v, u, hread, -, hu⟩ | ⟨-, rfl⟩ := fetchRead_cases hx
    · exact seqEffect_fetched (engineRead_fields hread) hu
    · exact .busErr c s.draws rfl
  | fetched c g w =>
    have hsame : s.setSeq (.fetched c g w) = s := by rw [← hs]; rfl
    unfold seqTurn at hx
    rw [hs] at hx
    exact seqEffect_fetched (u := s) rfl (by rw [hsame]; exact hx)
  | period c g k w =>
    rw [seqTurn_period hs] at hx
    obtain ⟨d, rule, hrule⟩ | hinvalid := decodeWords_runsBy w.w0 w.w1 w.w2
    · by_cases hk : k = 0
      · subst hk
        rw [hrule.exec_periodEnd hs] at hx
        cases hx
        exact .periodEnd c g w d rule hs hrule rfl
      · rw [hrule.exec_eq, runDescriptor_period hs hk] at hx
        obtain ⟨v, u, hread, -, rfl⟩ | ⟨-, rfl⟩ := unitRead_cases hx
        · exact .work (by rw [engineRead_fields hread]; rfl)
        · exact .busErr c s.draws rfl
    · rw [hinvalid, runInvalid, hs] at hx
      cases hx
      exact .work rfl
  | moving c g k w v =>
    rw [seqTurn_moving hs] at hx
    obtain ⟨d, rule, hrule⟩ | hinvalid := decodeWords_runsBy w.w0 w.w1 w.w2
    · rw [hrule.exec_eq, runDescriptor_moving hs] at hx
      obtain ⟨u, hwrite, -, rfl⟩ | ⟨-, rfl⟩ := unitWrite_cases hx
      · exact .work (by rw [engineWrite_fields hwrite]; rfl)
      · exact .busErr c s.draws rfl
    · rw [hinvalid, runInvalid, hs] at hx
      cases hx
      exact .work rfl

/-! ### What the sequencer never does (41_channel_engine.md R235) -/

/-- What every turn of the sequencer keeps: the host's controls and data, every disabled channel disabled, every status
bit that is set. -/
structure SequencerFrame (s t : State) : Prop where
  eq : t = { s with en := t.en, alt := t.alt, berr := t.berr, inv := t.inv, done := t.done, pend := t.pend, run := t.run,
                    progress := t.progress, seq := t.seq, mem := t.mem, fifos := t.fifos, sram := t.sram,
                    draws := t.draws }
  en_le : ∀ c, bitOf t.en c = true → bitOf s.en c = true
  done_ge : ∀ c, bitOf s.done c = true → bitOf t.done c = true
  berr_ge : ∀ c, bitOf s.berr c = true → bitOf t.berr c = true
  inv_ge : ∀ c, bitOf s.inv c = true → bitOf t.inv c = true

theorem cleanUp_fields (c : Chan) (s : State) :
    cleanUp c s = { s with pend := (cleanUp c s).pend, run := (cleanUp c s).run, progress := (cleanUp c s).progress } := by
  unfold cleanUp
  split <;> rfl

theorem bitOf_of_bitOf_withoutBit {x : Word} {c d : Chan} (h : bitOf (withoutBit x c) d = true) : bitOf x d = true := by
  rw [bitOf_withoutBit, Bool.and_eq_true] at h
  exact h.1

theorem SeqEffect.frame {s t : State} (h : SeqEffect s t) : SequencerFrame s t := by
  cases h with
  | work eq =>
    rw [eq]
    exact ⟨rfl, fun _ => id, fun _ => id, fun _ => id, fun _ => id⟩
  | busErr c draws eq =>
    rw [eq, raiseEvent_busErr]
    exact ⟨rfl, fun _ => bitOf_of_bitOf_withoutBit, fun _ => id, fun d hd => by simp [hd], fun _ => id⟩
  | invDesc c fifos draws eq =>
    rw [eq, raiseEvent_invDesc]
    exact ⟨rfl, fun _ => bitOf_of_bitOf_withoutBit, fun _ => id, fun _ => id, fun d hd => by simp [hd]⟩
  | periodEnd c g w d rule phase runs eq =>
    obtain ⟨hframe, -⟩ := periodAction_frame (c := c) (h := g) (s := s) runs.framed
    have hberr : (periodAction rule c g s).berr = s.berr := by rw [hframe.eq]
    have hinv : (periodAction rule c g s).inv = s.inv := by rw [hframe.eq]
    rw [eq, periodEnd_eq_cleanUp]
    refine ⟨?_, fun d hd => ?_, fun d hd => ?_, fun d hd => ?_, fun d hd => ?_⟩
    · rw [cleanUp_fields, hframe.eq]
    · rw [cleanUp_en] at hd
      exact hframe.en_le d hd
    · rw [cleanUp_done]
      exact hframe.done_ge d hd
    · rwa [cleanUp_berr, hberr]
    · rwa [cleanUp_inv, hinv]

/-- Settles O35. -/
theorem sequencerNeverTouchesHostControl : Obligations.SequencerNeverTouchesHostControl := by
  intro s t rest hmoves hx
  rw [step_of_seqMoves hmoves] at hx
  have hframe := (seqTurn_effect hx).frame
  refine ⟨?_, ?_, ?_, ?_, ?_, ?_, ?_, ?_, ?_, ?_, ?_,
    fun c => ⟨hframe.en_le c, hframe.done_ge c, hframe.berr_ge c, hframe.inv_ge c⟩⟩
  all_goals rw [hframe.eq]

/-! ### When the sequencer disables a channel (41_channel_engine.md R230) -/

/-- A clean-up of a disabled channel, at rest, leaves nothing of its progress (41_channel_engine.md R231). -/
theorem cleanUp_cleared {c : Chan} {s : State} (hen : bitOf s.en c = false) (hs : s.seq = .idle) :
    (cleanUp c s).seq = .idle ∧ bitOf (cleanUp c s).pend c = false ∧ bitOf (cleanUp c s).run c = false ∧
      ∀ g, (cleanUp c s).rem c g = none := by
  refine ⟨by rw [cleanUp_seq, hs], ?_, ?_, fun g => by rw [cleanUp_rem, if_pos ⟨hen, rfl⟩]⟩
  · rw [cleanUp_disabled hen]
    exact bitOf_withoutBit_self _ _
  · rw [cleanUp_disabled hen]
    exact bitOf_withoutBit_self _ _

/-- An error event too leaves nothing of the channel's progress (60_exceptions.md R372, R373). -/
theorem cleared_of_disabledByError {c : Chan} {s t : State} (h : DisabledByError c s t) :
    t.seq = .idle ∧ bitOf t.pend c = false ∧ bitOf t.run c = false ∧ ∀ g, t.rem c g = none := by
  obtain ⟨heq, -, hpend, hrun, hrem⟩ := h
  exact ⟨by rw [heq], by simp [hpend], by simp [hrun], fun g => by simp [hrem]⟩

/-- The channel whose bit is lost is the one whose bit is cleared. -/
theorem eq_of_bitOf_withoutBit {x : Word} {c d : Chan} (hbefore : bitOf x d = true)
    (hafter : bitOf (withoutBit x c) d = false) : c = d := by
  rw [bitOf_withoutBit, hbefore, Bool.true_and] at hafter
  simpa using hafter

/-- Settles O36, by the effect of the turn: only an error event and a completion clear an enable. -/
theorem hardwareDisablesOnlyAtCompletionOrError : Obligations.HardwareDisablesOnlyAtCompletionOrError := by
  intro s t rest c hmoves hx hbefore hafter
  rw [step_of_seqMoves hmoves] at hx
  cases seqTurn_effect hx with
  | work eq =>
    rw [eq] at hafter
    exact absurd (hbefore.symm.trans hafter) (by simp)
  | busErr c' draws eq =>
    subst eq
    obtain rfl : c' = c := by
      rw [raiseEvent_busErr] at hafter
      exact eq_of_bitOf_withoutBit hbefore hafter
    have hraised := raiseEvent_busErrRaised c' { s with agenda := rest, draws := draws }
    obtain ⟨hseq, hpend, hrun, hrem⟩ := cleared_of_disabledByError hraised.1
    refine ⟨hseq, hpend, hrun, hrem, .inr (.inl ?_)⟩
    rwa [raiseEvent_draws]
  | invDesc c' fifos draws eq =>
    subst eq
    obtain rfl : c' = c := by
      rw [raiseEvent_invDesc] at hafter
      exact eq_of_bitOf_withoutBit hbefore hafter
    have hraised := raiseEvent_invDescRaised c' { s with agenda := rest, draws := draws, fifos := fifos }
    obtain ⟨hseq, hpend, hrun, hrem⟩ := cleared_of_disabledByError hraised.1
    refine ⟨hseq, hpend, hrun, hrem, .inr (.inr ?_)⟩
    rwa [raiseEvent_draws, raiseEvent_fifos]
  | periodEnd c' g w d rule phase runs eq =>
    have hen := runs.periodAction_en (c := c') (h := g) (s := { s with agenda := rest })
    obtain ⟨hframe, -⟩ := periodAction_frame (c := c') (h := g) (s := { s with agenda := rest }) runs.framed
    rw [periodEnd_eq_cleanUp] at eq
    subst eq
    rw [cleanUp_en] at hafter
    split at hen
    · next hstop =>
      obtain ⟨hr, htype⟩ := hstop
      obtain rfl : c' = c := eq_of_bitOf_withoutBit hbefore (hen ▸ hafter)
      obtain ⟨hseq, hpend, hrun, hrem⟩ := cleanUp_cleared hafter hframe.seq_eq
      refine ⟨hseq, hpend, hrun, hrem, .inl ⟨?_, g, w, d, phase, hr, htype⟩⟩
      rw [cleanUp_done, runs.periodAction_done, if_pos ⟨hr, htype.imp_right .inl⟩, bitOf_withBit]
      simp
    · rw [hen] at hafter
      exact absurd (hbefore.symm.trans hafter) (by simp)

/-! ### A period left alone (41_channel_engine.md R222, R224, R226) -/

/-- A run of one step more. -/
theorem core_run_succ {s u : State} (n : Nat) (h : step s = .next u) :
    Sys2Proof.core.run (n + 1) s = Sys2Proof.core.run n u := by
  have hcore : Sys2Proof.core.step s = .next u := h
  simp only [Host.Core.run, hcore]

section
variable {s : State} {c : Chan} {h : Half} {k r : Nat} {w : RawDesc} {d : Desc} (hagenda : s.agenda = [])
  (hdecode : decodeWords w.w0 w.w1 w.w2 = .basic d)
include hagenda hdecode

/-- With nobody else to move, the engine moves one unit between RAM addresses in two steps. -/
theorem basic_unit_moved (hs : s.seq = .period c h (k + 1) w) (hr : s.rem c h = some r) (hd : ValidFields d)
    (hsrc : RamAccess s.cfg (srcOf d r) d.wid.bytes) (hdst : RamAccess s.cfg (dstOf (.basic d) d r) d.wid.bytes) :
    ∃ u, (∀ n, Sys2Proof.core.run (n + 2) s = Sys2Proof.core.run n u) ∧
      u = { s with mem := u.mem, progress := u.progress, draws := u.draws, seq := .period c h k w } ∧
      u.rem c h = some (r - 1) := by
  obtain ⟨-, -, hread⟩ := unitReadTakesTheSourceValue s c h (k + 1) r w d _ hs (by omega) hr hd (.inl rfl)
  obtain ⟨t, v, hxt, ht, -, -⟩ := hread hsrc
  have htrem : t.rem c h = some r := by rw [ht]; exact hr
  have htseq : t.seq = .moving c h (k + 1) w v := by rw [ht]
  have hcfg : t.cfg = s.cfg := by rw [ht]
  obtain ⟨-, -, hwrite⟩ := unitWriteStoresTheUnit t c h (k + 1) r w d _ v htseq htrem hd (.inl rfl)
  obtain ⟨u, hxu, hu, hurem, -⟩ := hwrite (hcfg ▸ hdst)
  have hstep : step s = .next t := by rw [step_empty hagenda, seqTurn_period hs, hdecode, hxt]
  have hstep' : step t = .next u := by
    rw [step_empty (by rw [ht]; exact hagenda), seqTurn_moving htseq, hdecode, hxu]
  refine ⟨u, fun n => (core_run_succ _ hstep).trans (core_run_succ _ hstep'), ?_, by rw [hurem, if_pos ⟨rfl, rfl⟩]⟩
  rw [hu, ht]
  rfl

/-- The period end of `BASIC`: the cycle is complete, or the units left stay for the next request. -/
theorem basic_period_ended (hs : s.seq = .period c h 0 w) (hr : s.rem c h = some r) :
    ∃ t, step s = .next t ∧ t.seq = .idle ∧
      (r = 0 → bitOf t.done c = true ∧ bitOf t.en c = false ∧ t.rem c h = none) ∧
      (0 < r → bitOf s.en c = true → t.rem c h = some r ∧ t.en = s.en ∧ t.done = s.done) := by
  have hrule : RunsBy d (.basic d) basicRule := .basic
  have hstep : step s = .next (periodEnd basicRule c h s) := by
    rw [step_empty hagenda, seqTurn_period hs, hdecode, hrule.exec_periodEnd hs]
  obtain ⟨hframe, -⟩ := periodAction_frame (c := c) (h := h) (s := s) hrule.framed
  refine ⟨_, hstep, ?_, ?_, fun hpos hen => ?_⟩
  · rw [periodEnd_eq_cleanUp, cleanUp_seq, hframe.seq_eq]
  · rintro rfl
    obtain ⟨⟨-, hen, -, -, hrem⟩, -, -, hdone⟩ := periodEnd_stop_effect (rule := basicRule) rfl hr rfl
    exact ⟨by simp [hdone], by simp [hen], by simp [hrem]⟩
  · rw [hrule.periodEnd_left hr hpos hen]
    refine ⟨?_, awaitRequest_en _ c _, awaitRequest_done _ c _⟩
    exact (State.rem_congr (awaitRequest_progress _ c _) c h).trans hr

end

/-- Settles O37, by induction on the units of the period. -/
theorem periodLeftAloneRunsToItsEnd : Obligations.PeriodLeftAloneRunsToItsEnd := by
  intro s c h k r w d hagenda hs hr hkr hdecode hd hram
  induction k generalizing s r with
  | zero =>
    obtain ⟨t, hstep, hseq, hdone, hleft⟩ := basic_period_ended hagenda hdecode hs hr
    exact ⟨t, core_run_succ 0 hstep, hseq, hdone, hleft⟩
  | succ k ih =>
    obtain ⟨hsrc, hdst⟩ := hram r (by omega) (le_refl r)
    obtain ⟨u, hrun, hu, hurem⟩ := basic_unit_moved hagenda hdecode hs hr hd hsrc hdst
    have hcfg : u.cfg = s.cfg := by rw [hu]
    have hen : u.en = s.en := by rw [hu]
    have hdone : u.done = s.done := by rw [hu]
    obtain ⟨t, hend, hseq, hcomplete, hleft⟩ := ih u (r - 1) (by rw [hu]; exact hagenda) (by rw [hu]) hurem (by omega)
      fun n hlow hhigh => hcfg ▸ hram n (by omega) (by omega)
    refine ⟨t, (hrun (2 * k + 1)).trans hend, hseq, fun hk => hcomplete (by omega), fun hk hens => ?_⟩
    obtain ⟨hrem, hten, htdone⟩ := hleft (by omega) (hen ▸ hens)
    exact ⟨by rw [hrem]; congr 1; omega, hten.trans hen, htdone.trans hdone⟩

end Sys2Proof.Machine

/-! The family of 42_ping_pong.md: the period end of `PINGPONG` on an enabled channel (R251, R252). -/

namespace Sys2Proof.Machine

open Sys2Proof.Spec

theorem setHalf_eq (s : State) (c : Chan) (h : Half) : s.setHalf c h = { s with alt := (s.setHalf c h).alt } := by
  cases h <;> rfl

/-- The completion of `PINGPONG` touches Done and `alt` only. -/
theorem completeAndSwitch_eq (c : Chan) (s : State) :
    completeAndSwitch c s = { s with done := withBit s.done c, alt := (completeAndSwitch c s).alt } :=
  setHalf_eq _ c _

/-- Completion by `completeAndSwitch` keeps the enable, so there is nothing to clean up: only Done, the half and the
counter of the slot move. -/
theorem periodEnd_switch {rule : CycleRule} (hswitch : rule.completion = completeAndSwitch) {s : State} {c : Chan}
    {h : Half} (hr : (s.rem c h).getD 0 = 0) (hen : bitOf s.en c = true) :
    periodEnd rule c h s = completeAndSwitch c ((s.setSeq .idle).setRem c h none) := by
  rw [periodEnd_eq_cleanUp, periodAction_complete hr, hswitch, cleanUp_enabled (by simpa using hen)]

/-- The completion of `PINGPONG` in the statements' spelling. -/
theorem periodEnd_switch_effect {rule : CycleRule} (hswitch : rule.completion = completeAndSwitch) {s : State} {c : Chan}
    {h : Half} (hr : s.rem c h = some 0) (hen : bitOf s.en c = true) {t : State} (ht : t = periodEnd rule c h s) :
    t = { s with seq := .idle, done := t.done, alt := t.alt, progress := t.progress } ∧
    (∀ e, bitOf t.done e = (bitOf s.done e || decide (e = c))) ∧
    (∀ e, bitOf t.alt e = (bitOf s.alt e ^^ decide (e = c))) ∧
    ∀ e g, t.rem e g = if e = c ∧ g = h then none else s.rem e g := by
  rw [periodEnd_switch hswitch (by rw [hr]; rfl) hen] at ht
  subst ht
  refine ⟨?_, fun e => ?_, fun e => ?_, fun e g => ?_⟩
  · rw [completeAndSwitch_eq]
    rfl
  · simp [eq_comm]
  · rw [bitOf_completeAndSwitch_alt]
    by_cases hec : e = c <;> simp [hec]
  · rw [State.rem_congr (completeAndSwitch_progress _ c)]
    simp [eq_comm]

/-- Settles O27, by the units left and by what a request buys. -/
theorem pingPongSwitchesHalvesAtCompletion : Obligations.PingPongSwitchesHalvesAtCompletion := by
  intro s c h r w d hs hr hen
  have hexec : exec (.pingpong d) s = .next (periodEnd pingpongRule c h s) := RunsBy.pingpong.exec_periodEnd hs
  have hleft (hpos : 0 < r) : periodEnd pingpongRule c h s = awaitRequest s.cfg.pingpongBuys c (s.setSeq .idle) :=
    (RunsBy.pingpong (d := d)).periodEnd_left hr hpos hen
  refine ⟨fun hpos hbuys => ?_, fun hpos hbuys => ?_, ?_⟩
  · rw [hexec, hleft hpos, hbuys]
    rfl
  · rw [hexec, hleft hpos, hbuys, awaitRequest_cycle, selfRequest_enabled (s := s.setSeq .idle) hen]
    exact ⟨_, rfl, rfl, fun e => by simp [eq_comm]⟩
  · rintro rfl
    exact ⟨_, hexec, periodEnd_switch_effect rfl hr hen rfl⟩

end Sys2Proof.Machine

/-! The family of 43_scatter_gather.md: the period end of `SGPRI` and `SGALT` on an enabled channel (R272, R274). -/

namespace Sys2Proof.Machine

open Sys2Proof.Spec

/-- `t` is `s` after an action that requests the channel itself and may move its half: the actions of
43_scatter_gather.md R272 and R274 on an enabled channel. -/
def SelfRequested (c : Chan) (s t : State) : Prop := t = { s with alt := t.alt, pend := withBit s.pend c }

theorem selfRequest_selfRequested {c : Chan} {s : State} (hen : bitOf s.en c = true) :
    SelfRequested c s (selfRequest c s) := by
  rw [selfRequest_enabled hen]
  rfl

theorem linkTo_selfRequested {c : Chan} {s : State} (h : Half) (hen : bitOf s.en c = true) :
    SelfRequested c s (linkTo h c s) := by
  rw [linkTo, selfRequest_enabled (by rwa [State.setHalf_en]), setHalf_eq]
  rfl

theorem SelfRequested.en_eq {c : Chan} {s t : State} (a : SelfRequested c s t) : t.en = s.en := by rw [a]

theorem SelfRequested.rem_eq {c : Chan} {s t : State} (a : SelfRequested c s t) (e : Chan) (g : Half) :
    t.rem e g = s.rem e g := State.rem_congr (by rw [a]) e g

theorem SelfRequested.bitOf_pend {c : Chan} {s t : State} (a : SelfRequested c s t) (e : Chan) :
    bitOf t.pend e = (bitOf s.pend e || decide (e = c)) := by
  rw [a]
  simp [eq_comm]

/-- Both actions of a cycle rule request the channel itself, if it is enabled. -/
def CycleRule.SelfRequests (rule : CycleRule) : Prop :=
  ∀ c s, bitOf s.en c = true →
    SelfRequested c s (rule.continuation c s) ∧ SelfRequested c s (rule.completion c s)

theorem sgpriRule_selfRequests : sgpriRule.SelfRequests := fun _ _ hen =>
  ⟨linkTo_selfRequested .alternate hen, linkTo_selfRequested .alternate hen⟩

theorem sgaltRule_selfRequests : sgaltRule.SelfRequests := fun _ _ hen =>
  ⟨selfRequest_selfRequested hen, linkTo_selfRequested .primary hen⟩

/-- The action at the period end finds the sequencer idle, and the counter of the half `IDLE` where no unit remains. -/
theorem periodAction_selfRequested {rule : CycleRule} (hself : rule.SelfRequests) {s : State} {c : Chan} {h : Half}
    {r : Nat} (hr : s.rem c h = some r) (hen : bitOf s.en c = true) :
    SelfRequested c { s with seq := .idle, progress := (periodAction rule c h s).progress }
      (periodAction rule c h s) ∧
    ∀ e g, (periodAction rule c h s).rem e g = if e = c ∧ g = h ∧ r = 0 then none else s.rem e g := by
  rcases Nat.eq_zero_or_pos r with rfl | hpos
  · rw [periodAction_complete (by rw [hr]; rfl)]
    obtain ⟨-, haction⟩ := hself c ((s.setSeq .idle).setRem c h none) hen
    refine ⟨?_, fun e g => ?_⟩
    · rw [SelfRequested, haction]
      rfl
    · rw [haction.rem_eq]
      simp [eq_comm]
  · rw [periodAction_left hr hpos]
    obtain ⟨haction, -⟩ := hself c (s.setSeq .idle) hen
    refine ⟨?_, fun e g => ?_⟩
    · rw [SelfRequested, haction]
      rfl
    · rw [haction.rem_eq, State.rem_setSeq, if_neg fun hcomplete => hpos.ne' hcomplete.2.2]

/-- The period end of a type whose actions request the channel itself, in the statements' spelling. -/
theorem RunsBy.exec_periodEnd_selfRequests {d : Desc} {i : Instr} {rule : CycleRule} (hrule : RunsBy d i rule)
    (hself : rule.SelfRequests) {s : State} {c : Chan} {h : Half} {r : Nat} {w : RawDesc}
    (hs : s.seq = .period c h 0 w) (hr : s.rem c h = some r) (hen : bitOf s.en c = true) :
    ∃ t, exec i s = .next t ∧
      t = { s with seq := .idle, alt := t.alt, pend := t.pend, progress := t.progress } ∧
      (∀ e, bitOf t.alt e = if e = c then altAfter i r (bitOf s.alt e) else bitOf s.alt e) ∧
      (∀ e, bitOf t.pend e = (bitOf s.pend e || decide (e = c))) ∧
      ∀ e g, t.rem e g = if e = c ∧ g = h ∧ r = 0 then none else s.rem e g := by
  obtain ⟨haction, hrem⟩ := periodAction_selfRequested hself hr hen
  have hexec := hrule.exec_periodEnd hs
  rw [periodEnd_eq_cleanUp, cleanUp_enabled (by rw [haction.en_eq]; exact hen)] at hexec
  refine ⟨_, hexec, ?_, hrule.bitOf_periodAction_alt hr, haction.bitOf_pend, hrem⟩
  rw [haction]

/-- Settles O28: both types request themselves at every period end, and `altAfter` says where control goes. -/
theorem scatterGatherHandsControlOver : Obligations.ScatterGatherHandsControlOver := by
  intro s c h r w d hs hr hen
  obtain ⟨t, hexec, hframe, halt, hrest⟩ :=
    RunsBy.sgpri.exec_periodEnd_selfRequests (d := d) sgpriRule_selfRequests hs hr hen
  obtain ⟨t', hexec', hframe', halt', hrest'⟩ :=
    RunsBy.sgalt.exec_periodEnd_selfRequests (d := d) sgaltRule_selfRequests hs hr hen
  refine ⟨⟨t, hexec, hframe, fun e => ?_, hrest⟩, t', hexec', hframe', fun e => ?_, hrest'⟩
  · rw [halt]
    by_cases hec : e = c <;> simp [hec, altAfter]
  · rw [halt']
    by_cases hec : e = c <;> by_cases hcomplete : r = 0 <;> simp [hec, hcomplete, altAfter]

end Sys2Proof.Machine

/-! The family of 44_fifo_ring.md: the registers of a FIFO channel (R305, R310, R327 to R337). -/

namespace Sys2Proof.Machine

open Sys2Proof.Spec

/-! ### Updates of one FIFO channel -/

theorem onlyFifo_setFifo (s : State) (id : FifoId) (f : FifoChan) : OnlyFifo id s (s.setFifo id f) :=
  ⟨rfl, fun x hx => by simp [Ne.symm hx]⟩

/-- An instruction that sets one FIFO channel, in the statements' spelling. -/
theorem exec_sets_fifo {i : Instr} {s : State} {id : FifoId} {f : FifoChan} (h : exec i s = .next (s.setFifo id f)) :
    ∃ t, exec i s = .next t ∧ OnlyFifo id s t ∧ t.fifo id = f :=
  ⟨_, h, onlyFifo_setFifo s id f, by simp⟩

/-! ### Modes (10_state.md R53) -/

theorem mode_eq_fifo_iff (f : FifoChan) : f.mode = .fifo ↔ f.fen = true ∧ f.dlen = false := by
  cases hfen : f.fen <;> cases hdlen : f.dlen <;> simp [FifoChan.mode, hfen, hdlen]

theorem mode_eq_both_iff (f : FifoChan) : f.mode = .both ↔ f.fen = true ∧ f.dlen = true := by
  cases hfen : f.fen <;> cases hdlen : f.dlen <;> simp [FifoChan.mode, hfen, hdlen]

/-! ### Words read from the registers (30_encoding.md R151, R152, R155) -/

/-- A field all of whose bits are 0. -/
theorem extractLsb'_eq_zero {x : Word} {lo n : Nat} (h : ∀ i, i < n → x.getLsbD (lo + i) = false) :
    x.extractLsb' lo n = 0#n :=
  BitVec.eq_of_getLsbD_eq fun i hi => by
    simp only [BitVec.getLsbD_extractLsb', h i hi, BitVec.getLsbD_zero, Bool.and_false]

theorem getLsbD_initWord (f : FifoChan) {i : Nat} (hi : i < 32) : f.initWord.getLsbD i =
    (f.boff.getLsbD i || (!decide (i < 8) && f.lenm1.getLsbD (i - 8)) || (f.w32 && decide (i = 24))) := by
  simp only [FifoChan.initWord, BitVec.getLsbD_or, BitVec.getLsbD_setWidth, BitVec.getLsbD_shiftLeft, getLsbD_flagBit,
    Nat.reduceLT, hi, show i - 8 < 32 by omega, decide_true, Bool.true_and]

/-- The offset, the length, the width and the rest of what `FIFO_INIT` reads. -/
theorem initWord_fields (f : FifoChan) :
    f.initWord.extractLsb' 0 8 = f.boff ∧ f.initWord.extractLsb' 8 16 = f.lenm1 ∧ f.initWord.getLsbD 24 = f.w32 ∧
    f.initWord.extractLsb' 25 7 = 0#7 := by
  refine ⟨BitVec.eq_of_getLsbD_eq fun i hi => ?_, BitVec.eq_of_getLsbD_eq fun i hi => ?_, ?_,
    extractLsb'_eq_zero fun i hi => ?_⟩
  · rw [BitVec.getLsbD_extractLsb', getLsbD_initWord f (by omega)]
    simp [hi, show i ≠ 24 by omega]
  · rw [BitVec.getLsbD_extractLsb', getLsbD_initWord f (by omega)]
    simp [hi, show 8 + i ≠ 24 by omega]
  · have hboff : f.boff.getLsbD 24 = false := BitVec.getLsbD_of_ge _ _ (by omega)
    have hlen : f.lenm1.getLsbD 16 = false := BitVec.getLsbD_of_ge _ _ (by omega)
    rw [getLsbD_initWord f (by omega), hboff, show 24 - 8 = 16 from rfl, hlen]
    simp
  · have hboff : f.boff.getLsbD (25 + i) = false := BitVec.getLsbD_of_ge _ _ (by omega)
    have hlen : f.lenm1.getLsbD (25 + i - 8) = false := BitVec.getLsbD_of_ge _ _ (by omega)
    rw [getLsbD_initWord f (by omega), hboff, hlen]
    simp; omega

theorem getLsbD_ctrlWord (f : FifoChan) (i : Nat) : f.ctrlWord.getLsbD i =
    ((f.fen && decide (i = 0)) || (f.dlen && decide (i = 1)) || (f.afien && decide (i = 8)) ||
      (f.aeien && decide (i = 9)) || (f.errien && decide (i = 10))) := by
  simp only [FifoChan.ctrlWord, BitVec.getLsbD_or, getLsbD_flagBit, Nat.reduceLT]

/-- The five bits and the rest of what `FIFO_CTRL` reads. -/
theorem ctrlWord_fields (f : FifoChan) :
    f.ctrlWord.getLsbD 0 = f.fen ∧ f.ctrlWord.getLsbD 1 = f.dlen ∧ f.ctrlWord.getLsbD 8 = f.afien ∧
    f.ctrlWord.getLsbD 9 = f.aeien ∧ f.ctrlWord.getLsbD 10 = f.errien ∧ f.ctrlWord.extractLsb' 2 6 = 0#6 ∧
    f.ctrlWord.extractLsb' 11 21 = 0#21 := by
  refine ⟨?_, ?_, ?_, ?_, ?_, extractLsb'_eq_zero fun i hi => ?_, extractLsb'_eq_zero fun i hi => ?_⟩
  all_goals rw [getLsbD_ctrlWord]; simp; try omega

theorem getLsbD_levelBits (f : FifoChan) (i : Nat) : f.levelBits.getLsbD i =
    ((f.af && decide (i = 0)) || (f.ae && decide (i = 1)) || (f.full && decide (i = 4)) ||
      (f.empty && decide (i = 5))) := by
  simp only [FifoChan.levelBits, BitVec.getLsbD_or, getLsbD_flagBit, Nat.reduceLT]

theorem getLsbD_stickyBits (f : FifoChan) (i : Nat) :
    f.stickyBits.getLsbD i = ((f.ovf && decide (i = 2)) || (f.unf && decide (i = 3))) := by
  simp only [FifoChan.stickyBits, BitVec.getLsbD_or, getLsbD_flagBit, Nat.reduceLT]

/-- In no mode is a level flag seen outside the places of the four. -/
theorem getLsbD_seenLevels_eq_false (f : FifoChan) (draws : Nat) {i : Nat} (hi : i = 2 ∨ i = 3 ∨ 6 ≤ i) :
    (f.seenLevels draws).getLsbD i = false := by
  unfold FifoChan.seenLevels
  split
  · have hmask : (0x33#32).getLsbD i = false := by
      rcases hi with rfl | rfl | hi
      · rfl
      · rfl
      · exact (BitVec.getLsbD_ofNat 32 0x33 i).trans (by
          rw [Nat.testBit_lt_two_pow (Nat.lt_of_lt_of_le (by decide) (Nat.pow_le_pow_right (n := 2) (by decide) hi))]
          simp)
    simp [hmask]
  · rw [getLsbD_levelBits]
    rcases hi with rfl | rfl | hi
    · simp
    · simp
    · simp; omega

/-- The sticky flags and the rest of what `FIFO_STAT` reads, in every mode. -/
theorem statWord_sticky (f : FifoChan) (draws : Nat) :
    (f.statWord draws).getLsbD 2 = f.ovf ∧ (f.statWord draws).getLsbD 3 = f.unf ∧
    (f.statWord draws).extractLsb' 6 26 = 0#26 := by
  have hbit : ∀ i, (i = 2 ∨ i = 3 ∨ 6 ≤ i) → (f.statWord draws).getLsbD i = f.stickyBits.getLsbD i := by
    intro i hi
    rw [FifoChan.statWord, BitVec.getLsbD_or, getLsbD_seenLevels_eq_false f draws hi, Bool.false_or]
  refine ⟨?_, ?_, extractLsb'_eq_zero fun i hi => ?_⟩
  all_goals rw [hbit _ (by omega), getLsbD_stickyBits]; simp; try omega

/-! ### Pointers (assumption log 31) -/

/-- A distance at most the capacity behind a pointer, as the model computes it in natural numbers. -/
theorem natSub_mod_eq_intSub_emod {w c d : Nat} (hd : d ≤ c) :
    (((w + c - d) % c : Nat) : Int) = ((w : Int) - d) % c := by
  rw [show w + c - d = w + (c - d) by omega]
  push_cast [Nat.cast_sub hd]
  rw [show (w : Int) + (c - d) = w - d + c by ring, Int.add_emod_right]

/-- The re-based read pointer of a channel in bounds (44_fifo_ring.md R333, R335). -/
theorem rebased_rd_toNat {f : FifoChan} {b : Fin 3} (hbounds : f.boff.toNat + f.len ≤ Config.blockSections b)
    (hlen : f.dllen.toNat ≤ f.len) :
    (f.rebased.rd.toNat : Int) = ((f.wr.toNat : Int) - (f.dllen.toNat : Int) * 256) % (f.cap : Int) := by
  have hcap : f.dllen.toNat * 256 ≤ f.cap := Nat.mul_le_mul_right 256 hlen
  change ((f.wrap _).toNat : Int) = _
  rw [f.wrap_toNat _ (f.cap_le b hbounds), natSub_mod_eq_intSub_emod hcap]
  push_cast
  rfl

theorem delayLegal_iff (f : FifoChan) : f.delayLegal = true ↔ 1 ≤ f.dllen.toNat ∧ f.dllen.toNat ≤ f.len := by
  simp [FifoChan.delayLegal]

/-- What `FIFO_USED` reads on a delay line in bounds (44_fifo_ring.md R337). -/
theorem usedWord_delayLine {f : FifoChan} {b : Fin 3} (hmode : f.mode = .delayLine)
    (hbounds : f.boff.toNat + f.len ≤ Config.blockSections b) :
    (f.usedWord.toNat : Int) = ((f.wr.toNat : Int) - (f.rd.toNat : Int)) % (f.cap : Int) := by
  have hle : f.rd.toNat % f.cap ≤ f.cap := (Nat.mod_lt _ f.cap_pos).le
  have hword : f.usedWord.toNat = (f.wr.toNat + f.cap - f.rd.toNat % f.cap) % f.cap := by
    rw [FifoChan.usedWord, if_pos hmode, BitVec.toNat_setWidth_of_le (by decide),
      f.wrap_toNat _ (f.cap_le b hbounds)]
  rw [hword, natSub_mod_eq_intSub_emod hle]
  push_cast
  exact Int.sub_emod_emod ..

theorem usedWord_of_not_delayLine {f : FifoChan} (hmode : f.mode ≠ .delayLine) :
    f.usedWord = f.used.setWidth 32 := if_neg hmode

/-! ### The registers -/

/-- An instruction that reads a register field, in the statements' spelling. -/
theorem exec_reads_field {i : Instr} {s : State} {n : Nat} {x : BitVec n}
    (h : exec i s = .next (s.toHost (x.setWidth 32))) :
    exec i s = .next { s with hostData := BitVec.ofNat 32 x.toNat } := by
  rw [BitVec.ofNat_toNat]
  exact h

/-- Settles O43, by the test of the mode bits. -/
theorem fifoInitLoadsAndEmpties : Obligations.FifoInitLoadsAndEmpties := by
  refine fun s id v => ⟨fun ⟨hfen, hdlen⟩ => ?_, fun hactive => ?_, _, rfl, initWord_fields (s.fifo id)⟩
  · refine exec_sets_fifo (show (fifoInitWrite id v s).written s = _ from ?_)
    rw [fifoInitWrite, if_neg (by simp [hfen, hdlen])]
    rfl
  · change (fifoInitWrite id v s).written s = _
    rw [fifoInitWrite, if_pos (by simpa using hactive)]
    rfl

/-- A FIFO channel whose read pointer is re-based, in the statements' spelling. -/
theorem exec_rebases_fifo {i : Instr} {s : State} {id : FifoId} {g : FifoChan}
    (h : exec i s = .next (s.setFifo id g.rebased)) (hlen : g.dllen.toNat ≤ g.len) :
    ∃ t, exec i s = .next t ∧ OnlyFifo id s t ∧ t.fifo id = { g with rd := (t.fifo id).rd } ∧
      (g.boff.toNat + g.len ≤ Config.blockSections id.blk →
        ((t.fifo id).rd.toNat : Int) = ((g.wr.toNat : Int) - (g.dllen.toNat : Int) * 256) % (g.cap : Int)) := by
  obtain ⟨t, hexec, hframe, hfifo⟩ := exec_sets_fifo h
  refine ⟨t, hexec, hframe, ?_, fun hbounds => ?_⟩
  · rw [hfifo]; rfl
  · rw [hfifo]; exact rebased_rd_toNat hbounds hlen

/-- A FIFO channel with the five bits of a `FIFO_CTRL` write loaded (44_fifo_ring.md R310). -/
def FifoChan.withCtrl (f : FifoChan) (v : Word) : FifoChan :=
  { f with fen := v.getLsbD 0, dlen := v.getLsbD 1, afien := v.getLsbD 8, aeien := v.getLsbD 9, errien := v.getLsbD 10 }

section
variable {s : State} {id : FifoId} {v : Word}

theorem fifoCtrlWrite_both (h0 : v.getLsbD 0 = true) (h1 : v.getLsbD 1 = true) :
    fifoCtrlWrite id v s = .refused .bothFifoModes := if_pos ((mode_eq_both_iff _).2 ⟨h0, h1⟩)

/-- Delay-line mode is left off, or is on already. -/
theorem fifoCtrlWrite_loads (h : v.getLsbD 1 = false ∨ (v.getLsbD 0 = false ∧ (s.fifo id).dlen = true)) :
    fifoCtrlWrite id v s = .ok () (s.setFifo id ((s.fifo id).withCtrl v)) := by
  rw [fifoCtrlWrite, if_neg, if_neg]
  · rfl
  · simp only [Bool.and_eq_true, Bool.not_eq_true']
    rintro ⟨hnew, hold⟩
    rcases h with h | ⟨-, h⟩
    · cases h.symm.trans hnew
    · cases h.symm.trans hold
  · rw [mode_eq_both_iff]
    rintro ⟨h0, h1⟩
    rcases h with h | ⟨h, -⟩
    · cases h.symm.trans h1
    · cases h.symm.trans h0

/-- Delay-line mode is entered. -/
theorem fifoCtrlWrite_enters (h0 : v.getLsbD 0 = false) (h1 : v.getLsbD 1 = true) (hdlen : (s.fifo id).dlen = false) :
    fifoCtrlWrite id v s = if (s.fifo id).delayLegal then .ok () (s.setFifo id ((s.fifo id).withCtrl v).rebased)
      else .refused .delayLength := by
  rw [fifoCtrlWrite, if_neg, if_pos]
  · rfl
  · simp only [h1, hdlen, Bool.not_false, Bool.and_self]
  · exact fun h => Bool.false_ne_true (h0.symm.trans ((mode_eq_both_iff _).1 h).1)

theorem fifoDlLenWrite_stores (h : (s.fifo id).mode ≠ .delayLine) :
    fifoDlLenWrite id v s = .ok () (s.setFifo id { s.fifo id with dllen := v.extractLsb' 0 16 }) := if_neg h

theorem fifoDlLenWrite_delayLine (h : (s.fifo id).mode = .delayLine) :
    fifoDlLenWrite id v s = if FifoChan.delayLegal { s.fifo id with dllen := v.extractLsb' 0 16 } then
        .ok () (s.setFifo id (FifoChan.rebased { s.fifo id with dllen := v.extractLsb' 0 16 }))
      else .refused .delayLength := if_pos h

end

/-- Settles O44, by the cases of `fifoCtrlWrite`: both modes, delay-line mode entered, and the rest. -/
theorem fifoControlSwitchesModes : Obligations.FifoControlSwitchesModes := by
  intro s id v
  have hwrite : exec (.fifoCtrlW id v) s = (fifoCtrlWrite id v s).written s := rfl
  refine ⟨fun ⟨h0, h1⟩ => ?_, fun h => exec_sets_fifo ?_, fun ⟨h0, h1, hdlen⟩ => ⟨fun hlegal => ?_, fun hlegal => ?_⟩,
    _, rfl, ctrlWord_fields (s.fifo id)⟩
  · rw [hwrite, fifoCtrlWrite_both h0 h1]; rfl
  · rw [hwrite, fifoCtrlWrite_loads h]; rfl
  · refine exec_rebases_fifo (g := (s.fifo id).withCtrl v) ?_ hlegal.2
    rw [hwrite, fifoCtrlWrite_enters h0 h1 hdlen, if_pos ((delayLegal_iff _).2 hlegal)]; rfl
  · rw [hwrite, fifoCtrlWrite_enters h0 h1 hdlen, if_neg fun h => hlegal ((delayLegal_iff _).1 h)]; rfl

/-- Settles O46, by the mode and, in delay-line mode, the length. -/
theorem delayLengthRebasesTheReadPointer : Obligations.DelayLengthRebasesTheReadPointer := by
  intro s id v
  have hwrite : exec (.fifoDlLenW id v) s = (fifoDlLenWrite id v s).written s := rfl
  refine ⟨fun hmode => exec_sets_fifo ?_, fun hmode hlegal => ?_, fun hmode hlegal => ?_, ?_⟩
  · rw [hwrite, fifoDlLenWrite_stores hmode]; rfl
  · refine exec_rebases_fifo (g := { s.fifo id with dllen := v.extractLsb' 0 16 }) ?_ hlegal.2
    rw [hwrite, fifoDlLenWrite_delayLine hmode, if_pos ((delayLegal_iff _).2 hlegal)]; rfl
  · rw [hwrite, fifoDlLenWrite_delayLine hmode, if_neg fun h => hlegal ((delayLegal_iff _).1 h)]; rfl
  · exact exec_reads_field (exec_fifoReadInstr id .dlLen s)

/-- Settles O45: the host's word access to a threshold has the effect of the engine's. -/
theorem fifoThresholdsAreStored : Obligations.FifoThresholdsAreStored := fun s id v =>
  ⟨exec_sets_fifo (exec_fifoWriteInstr id .afThr v s), exec_sets_fifo (exec_fifoWriteInstr id .aeThr v s),
   exec_reads_field (exec_fifoReadInstr id .afThr s), exec_reads_field (exec_fifoReadInstr id .aeThr s)⟩

/-- Settles O47: the host's word access to the three registers has the effect of the engine's. -/
theorem fifoPointersAreReadOnly : Obligations.FifoPointersAreReadOnly := by
  intro s id v
  have hused : exec (.fifoUsedR id) s = .next (s.toHost (s.fifo id).usedWord) := exec_fifoReadInstr id .used s
  refine ⟨exec_reads_field (exec_fifoReadInstr id .rdptr s), exec_reads_field (exec_fifoReadInstr id .wrptr s),
    fun hmode => ?_, fun hmode hbounds => ?_, exec_fifoWriteInstr id .rdptr v s, exec_fifoWriteInstr id .wrptr v s,
    exec_fifoWriteInstr id .used v s⟩
  · exact exec_reads_field (usedWord_of_not_delayLine hmode ▸ hused)
  · exact ⟨_, hused, usedWord_delayLine hmode hbounds⟩

/-- Settles O48: the sticky flags are read in every mode, the levels are the true ones outside delay-line mode. -/
theorem fifoStatusReadsAndClears : Obligations.FifoStatusReadsAndClears := by
  intro s id v
  have hread : exec (.fifoStatR id) s = .next { s with hostData := (s.fifo id).statWord s.draws,
                                                       draws := (s.fifo id).levelDraws s.draws } :=
    exec_fifoReadInstr id .stat s
  obtain ⟨hovf, hunf, hzero⟩ := statWord_sticky (s.fifo id) s.draws
  refine ⟨exec_sets_fifo (exec_fifoWriteInstr id .stat v s), fun hmode => ?_, fun hmode => ?_⟩
  · have hbit : ∀ i, i ≠ 2 ∧ i ≠ 3 → ((s.fifo id).statWord s.draws).getLsbD i = (s.fifo id).levelBits.getLsbD i := by
      intro i hi
      rw [FifoChan.statWord, seenLevels_of_not_delayLine hmode, BitVec.getLsbD_or, getLsbD_stickyBits]
      simp [hi]
    refine ⟨_, hread.trans (by rw [FifoChan.levelDraws, if_neg hmode]), ?_, ?_, hovf, hunf, ?_, ?_, hzero⟩
    all_goals
      rw [hbit _ (by omega), getLsbD_levelBits]
      simp [FifoChan.af, FifoChan.ae, FifoChan.full, FifoChan.empty]
  · exact ⟨_, hread.trans (by rw [FifoChan.levelDraws, if_pos hmode]), hovf, hunf, hzero⟩

end Sys2Proof.Machine

/-! The port of a FIFO channel (44_fifo_ring.md R320 to R324, R334), reached by the host and by movers (R343). -/

namespace Sys2Proof.Machine

open Sys2Proof.Spec

/-! ### Units stored and taken -/

/-- A unit stored at the write pointer: its bytes are in the block there, and nothing else of the block has changed. -/
theorem storeUnit_unitStored (id : FifoId) (v : Word) (u : BitVec 17) (s : State) :
    UnitStored (s.fifo id) (s.fifo id).wr v (s.block id.blk) ((storeUnit id v u s).block id.blk) := by
  have hblock : (storeUnit id v u s).block id.blk =
      (s.block id.blk).writeCells (cellsOf ((s.fifo id).unitAddrs (s.fifo id).wr) v) := by simp [storeUnit]
  rw [hblock]
  refine ⟨fun k hk => ?_, fun b hb => ?_⟩
  · exact readByte_store_inside _ _ v (unitAddrs_nodup _ _) k _ (getElem?_unitAddrs _ _ k hk)
  · refine readByte_store_outside _ _ v b fun hmem => ?_
    obtain ⟨k, hk, hat⟩ := (mem_unitAddrs _ _ b).1 hmem
    exact hb k hk hat.symm

theorem storeUnit_fifo (id : FifoId) (v : Word) (u : BitVec 17) (s : State) : (storeUnit id v u s).fifo id =
    { s.fifo id with wr := (s.fifo id).wrap ((s.fifo id).wr.toNat + (s.fifo id).unit), used := u } := by
  simp [storeUnit]

theorem storeUnit_onlyFifoAndBlock (id : FifoId) (v : Word) (u : BitVec 17) (s : State) :
    OnlyFifoAndBlock id s (storeUnit id v u s) := by
  refine ⟨rfl, fun x hx => ?_, fun b hb => ?_⟩
  · simp [storeUnit, Ne.symm hx]
  · simp [storeUnit, Ne.symm hb]

/-- A stored unit is the value's low bytes: the 16-bit view stores what a word's low half is (44_fifo_ring.md R320). -/
theorem storeUnit_low16 {id : FifoId} {s : State} (hw : (s.fifo id).w32 = false) (v : Word) (u : BitVec 17) :
    storeUnit id ((v.setWidth 16).setWidth 32) u s = storeUnit id v u s := by
  have hunit : (s.fifo id).unit = 2 := by simp [FifoChan.unit, hw]
  have hbytes : bytesOfWord 2 ((v.setWidth 16).setWidth 32) = bytesOfWord 2 v := by
    refine List.ext_getElem? fun j => ?_
    by_cases hj : j < 2
    · rw [getElem?_bytesOfWord _ _ _ hj, getElem?_bytesOfWord _ _ _ hj]
      refine congrArg some (BitVec.eq_of_getLsbD_eq fun i hi => ?_)
      simp [hi, show 8 * j + i < 16 by omega, show 8 * j + i < 32 by omega]
    · rw [List.getElem?_eq_none (by simp; omega), List.getElem?_eq_none (by simp; omega)]
  simp only [storeUnit, cellsOf, unitAddrs_length, hunit, hbytes]

/-- The unit at the read pointer is read there, byte for byte. -/
theorem unitAt_unitReads (id : FifoId) (s : State) :
    UnitReads (s.fifo id) (s.fifo id).rd (s.block id.blk) (unitAt id s) := by
  have hunit : (s.fifo id).unit ≤ 4 := by
    rcases (s.fifo id).unit_cases with ⟨-, h⟩ | ⟨-, h⟩ <;> omega
  refine ⟨?_, fun k hk b hb => ?_⟩
  · have hlt := loadValue_lt (s.block id.blk).readByte ((s.fifo id).unitAddrs (s.fifo id).rd) s.draws
    rwa [unitAddrs_length] at hlt
  · have hbyte := byte_loadValue (s.block id.blk).readByte _ s.draws k _ (by omega)
      (getElem?_unitAddrs (s.fifo id) (s.fifo id).rd k hk)
    rw [show (s.fifo id).pbase + (s.fifo id).rd.toNat + k = unitByte (s.fifo id) (s.fifo id).rd k from rfl, hb] at hbyte
    exact hbyte

theorem takeUnit_fifo (id : FifoId) (u : BitVec 17) (s : State) : (takeUnit id u s).fifo id =
    { s.fifo id with rd := (s.fifo id).wrap ((s.fifo id).rd.toNat + (s.fifo id).unit), used := u } :=
  (State.fifo_congr rfl id).trans (State.fifo_setFifo ..) |>.trans (if_pos rfl)

theorem takeUnit_fifo_of_ne {id x : FifoId} (hx : x ≠ id) (u : BitVec 17) (s : State) :
    (takeUnit id u s).fifo x = s.fifo x :=
  (State.fifo_congr rfl x).trans (State.fifo_setFifo ..) |>.trans (if_neg hx.symm)

/-! ### What a port access does, by the mode -/

section
variable {s : State} {id : FifoId} {v : Word}

/-- The wrong view is refused (U10). -/
theorem portRefusal_view {n : Nat} (hn : n ≠ (s.fifo id).unit) : portRefusal id n s = some .wrongPortView := if_pos hn

/-- The right view of a channel out of bounds is refused (U8). -/
theorem portRefusal_outOfBounds (hbounds : Config.blockSections id.blk < (s.fifo id).boff.toNat + (s.fifo id).len) :
    portRefusal id (s.fifo id).unit s = some .fifoOutOfBounds := by
  have hout : (s.fifo id).inBounds id.blk = false := by simpa [FifoChan.inBounds] using hbounds
  simp [portRefusal, hout]

/-- A refused port access, as the host makes it. -/
theorem port_refused {n : Nat} {r : Refusal} (h : portRefusal id n s = some r) :
    (portWrite id n v s).written s = .refused r ∧ (portRead id n s).returned s = .refused r := by
  simp [portWrite, portRead, h, Acc.written, Acc.returned]

variable (hbounds : (s.fifo id).boff.toNat + (s.fifo id).len ≤ Config.blockSections id.blk)
include hbounds

theorem portRefusal_none : portRefusal id (s.fifo id).unit s = none := by
  simp [portRefusal, ((s.fifo id).inBounds_iff id.blk).2 hbounds]

theorem portWrite_disabled (hmode : (s.fifo id).mode = .disabled) : portWrite id (s.fifo id).unit v s = .ok () s := by
  simp [portWrite, portRefusal_none hbounds, hmode]

theorem portWrite_fits (hmode : (s.fifo id).mode = .fifo)
    (hfits : (s.fifo id).used.toNat + (s.fifo id).unit ≤ (s.fifo id).cap) : portWrite id (s.fifo id).unit v s =
      .ok () (storeUnit id v ((s.fifo id).used + BitVec.ofNat 17 (s.fifo id).unit) s) := by
  simp [portWrite, portRefusal_none hbounds, hmode, Nat.not_lt.2 hfits]

theorem portWrite_overflows (hmode : (s.fifo id).mode = .fifo)
    (hfull : (s.fifo id).cap < (s.fifo id).used.toNat + (s.fifo id).unit) :
    portWrite id (s.fifo id).unit v s = .ok () (raiseOverflow id s) := by
  simp [portWrite, portRefusal_none hbounds, hmode, hfull]

theorem portWrite_delayLine (hmode : (s.fifo id).mode = .delayLine) :
    portWrite id (s.fifo id).unit v s = .ok () (storeUnit id v (s.fifo id).used s) := by
  simp [portWrite, portRefusal_none hbounds, hmode]

theorem portRead_disabled (hmode : (s.fifo id).mode = .disabled) : portRead id (s.fifo id).unit s =
    .ok (drawnValue (s.fifo id).unit s.draws) { s with draws := s.draws + (s.fifo id).unit } := by
  simp [portRead, portRefusal_none hbounds, hmode]

theorem portRead_takes (hmode : (s.fifo id).mode = .fifo) (hheld : (s.fifo id).unit ≤ (s.fifo id).used.toNat) :
    portRead id (s.fifo id).unit s =
      .ok (unitAt id s) (takeUnit id ((s.fifo id).used - BitVec.ofNat 17 (s.fifo id).unit) s) := by
  simp [portRead, portRefusal_none hbounds, hmode, Nat.not_lt.2 hheld]

theorem portRead_underflows (hmode : (s.fifo id).mode = .fifo) (hempty : (s.fifo id).used.toNat < (s.fifo id).unit) :
    portRead id (s.fifo id).unit s =
      .ok (drawnValue (s.fifo id).unit s.draws) { raiseUnderflow id s with draws := s.draws + (s.fifo id).unit } := by
  simp [portRead, portRefusal_none hbounds, hmode, hempty]

theorem portRead_delayLine (hmode : (s.fifo id).mode = .delayLine) :
    portRead id (s.fifo id).unit s = .ok (unitAt id s) (takeUnit id (s.fifo id).used s) := by
  simp [portRead, portRefusal_none hbounds, hmode]

end

/-! ### The views (30_encoding.md R156) -/

theorem unit_of_w32 {f : FifoChan} (h : f.w32 = true) : f.unit = 4 := by simp [FifoChan.unit, h]

theorem unit_of_not_w32 {f : FifoChan} (h : f.w32 = false) : f.unit = 2 := by simp [FifoChan.unit, h]

/-- A write through the view of the configured width is the port write of a unit. -/
theorem exec_portWrite_view {s : State} {id : FifoId} {v x : Word} {h : Half16} {i : Instr}
    (hi : (i = .portW32 id v ∧ (s.fifo id).w32 = true ∧ x = v) ∨
      (i = .portW16 id h ∧ (s.fifo id).w32 = false ∧ x = h.setWidth 32)) :
    exec i s = (portWrite id (s.fifo id).unit x s).written s := by
  rcases hi with ⟨rfl, hw, rfl⟩ | ⟨rfl, hw, rfl⟩
  · rw [unit_of_w32 hw]; rfl
  · rw [unit_of_not_w32 hw]; rfl

/-- A read through the view of the configured width is the port read of a unit. -/
theorem exec_portRead_view {s : State} {id : FifoId} {i : Instr}
    (hi : (i = .portR32 id ∧ (s.fifo id).w32 = true) ∨ (i = .portR16 id ∧ (s.fifo id).w32 = false)) :
    exec i s = (portRead id (s.fifo id).unit s).returned s := by
  rcases hi with ⟨rfl, hw⟩ | ⟨rfl, hw⟩
  · rw [unit_of_w32 hw]; rfl
  · rw [unit_of_not_w32 hw]; rfl

/-- A unit stored through either view, in the statements' spelling. -/
theorem exec_stores_unit {i : Instr} {s : State} {id : FifoId} {x : Word} {u : BitVec 17}
    (hexec : exec i s = .next (storeUnit id x u s)) : ∃ t, exec i s = .next t ∧ OnlyFifoAndBlock id s t ∧
      t.fifo id = { s.fifo id with wr := BitVec.ofNat 17 (((s.fifo id).wr.toNat + (s.fifo id).unit) % (s.fifo id).cap),
                                   used := u } ∧
      UnitStored (s.fifo id) (s.fifo id).wr x (s.block id.blk) (t.block id.blk) :=
  ⟨_, hexec, storeUnit_onlyFifoAndBlock id x u s, storeUnit_fifo id x u s, storeUnit_unitStored id x u s⟩

/-- A unit taken through either view, in the statements' spelling. -/
theorem exec_takes_unit {i : Instr} {s : State} {id : FifoId} {u : BitVec 17}
    (hexec : exec i s = .next ((takeUnit id u s).toHost (unitAt id s))) :
    ∃ t v, exec i s = .next t ∧ t = { s with fifos := t.fifos, hostData := v, draws := t.draws } ∧
      (∀ x, x ≠ id → t.fifo x = s.fifo x) ∧ UnitReads (s.fifo id) (s.fifo id).rd (s.block id.blk) v ∧
      t.fifo id = { s.fifo id with rd := BitVec.ofNat 17 (((s.fifo id).rd.toNat + (s.fifo id).unit) % (s.fifo id).cap),
                                   used := u } :=
  ⟨_, _, hexec, rfl, fun _ hx => takeUnit_fifo_of_ne hx u s, unitAt_unitReads id s, takeUnit_fifo id u s⟩

/-- Settles O49, by whether the unit fits. -/
theorem pushStoresOrOverflows : Obligations.PushStoresOrOverflows := by
  intro s id v h _ hmode hbounds i x hi
  have hwrite := exec_portWrite_view hi
  refine ⟨fun hfits => exec_stores_unit ?_, fun hfull => exec_sets_fifo ?_⟩
  · rw [hwrite, portWrite_fits hbounds hmode hfits]; rfl
  · rw [hwrite, portWrite_overflows hbounds hmode hfull]; rfl

/-- Settles O50, by whether a unit is held. -/
theorem popReturnsOrUnderflows : Obligations.PopReturnsOrUnderflows := by
  intro s id _ hmode hbounds i hi
  have hread := exec_portRead_view hi
  refine ⟨fun hheld => exec_takes_unit ?_, fun hempty => ?_⟩
  · rw [hread, portRead_takes hbounds hmode hheld]; rfl
  · obtain ⟨-, hothers⟩ := onlyFifo_setFifo s id { s.fifo id with unf := true }
    rw [hread, portRead_underflows hbounds hmode hempty]
    exact ⟨_, rfl, rfl, hothers, (State.fifo_setFifo ..).trans (if_pos rfl)⟩

/-- Settles O51, view by view. -/
theorem disabledPortDiscardsAndDraws : Obligations.DisabledPortDiscardsAndDraws := by
  intro s id v h _ hmode hbounds
  refine ⟨fun hw => ⟨?_, drawnValue 4 s.draws, ?_⟩, fun hw => ⟨?_, drawnValue 2 s.draws, ?_⟩⟩
  · rw [exec_portWrite_view (h := h) (.inl ⟨rfl, hw, rfl⟩), portWrite_disabled hbounds hmode]; rfl
  · rw [exec_portRead_view (.inl ⟨rfl, hw⟩), portRead_disabled hbounds hmode, unit_of_w32 hw]; rfl
  · rw [exec_portWrite_view (v := v) (.inr ⟨rfl, hw, rfl⟩), portWrite_disabled hbounds hmode]; rfl
  · rw [exec_portRead_view (.inr ⟨rfl, hw⟩), portRead_disabled hbounds hmode, unit_of_not_w32 hw]; rfl

/-- Settles O52: the unit is stored or taken as in FIFO mode, with `used` as it was. -/
theorem delayLinePortMovesPointersOnly : Obligations.DelayLinePortMovesPointersOnly := by
  intro s id v h _ hmode hbounds
  refine ⟨fun i x hi => exec_stores_unit (u := (s.fifo id).used) ?_,
    fun i hi => exec_takes_unit (u := (s.fifo id).used) ?_⟩
  · rw [exec_portWrite_view hi, portWrite_delayLine hbounds hmode]; rfl
  · rw [exec_portRead_view hi, portRead_delayLine hbounds hmode]; rfl

/-- Settles O53: the two tests of `portRefusal`, in their order. -/
theorem wrongViewAndOutOfBoundsAreRefused : Obligations.WrongViewAndOutOfBoundsAreRefused := by
  refine fun s id v h => ⟨fun hw => port_refused (portRefusal_view ?_), fun hw => port_refused (portRefusal_view ?_),
    fun hbounds => ?_⟩
  · simp [unit_of_w32 hw]
  · simp [unit_of_not_w32 hw]
  · have hrefusal := portRefusal_outOfBounds hbounds
    exact ⟨fun hw => port_refused (unit_of_w32 hw ▸ hrefusal), fun hw => port_refused (unit_of_not_w32 hw ▸ hrefusal)⟩

/-! ### Movers (44_fifo_ring.md R343) -/

/-- Storing a word through the configured view: the 16-bit one takes the low half. -/
theorem exec_portWrite_configured (id : FifoId) (v : Word) (s : State) :
    exec (if (s.fifo id).w32 then .portW32 id v else .portW16 id (v.setWidth 16)) s =
      (portWrite id (s.fifo id).unit v s).written s := by
  cases hw : (s.fifo id).w32 with
  | true => rw [unit_of_w32 hw]; rfl
  | false =>
    have hlow : portWrite id 2 ((v.setWidth 16).setWidth 32) s = portWrite id 2 v s := by
      simp only [portWrite, storeUnit_low16 hw]
    rw [unit_of_not_w32 hw, ← hlow]; rfl

theorem exec_portRead_configured (id : FifoId) (s : State) :
    exec (if (s.fifo id).w32 then .portR32 id else .portR16 id) s = (portRead id (s.fifo id).unit s).returned s := by
  cases hw : (s.fifo id).w32
  · exact exec_portRead_view (.inr ⟨rfl, hw⟩)
  · exact exec_portRead_view (.inl ⟨rfl, hw⟩)

theorem moverAssigned_iff (p : Platform) (m : Nat) (id : FifoId) :
    moverAssigned p m id = true ↔ id ∈ p.movers.getD m [] ∧ id.blk.val < p.nblk := by
  simp [moverAssigned]

theorem moverTurn_pop {s : State} {m : Nat} {id : FifoId} (hassigned : moverAssigned s.cfg m id = true) :
    (∃ v t, portRead id (s.fifo id).unit s = .ok v t ∧ moverTurn m (.pop id) s = .next { t with moverData := v }) ∨
    ∃ r, portRead id (s.fifo id).unit s = .refused r ∧ moverTurn m (.pop id) s = .refused r := by
  simp only [moverTurn, hassigned, if_true]
  cases hread : portRead id (s.fifo id).unit s with
  | ok v t => exact .inl ⟨v, t, rfl, rfl⟩
  | busErr => exact absurd hread (portRead_ne_busErr _ _ _)
  | refused r => exact .inr ⟨r, rfl, rfl⟩

/-- Settles O19: the mover's turn and the host's instruction are the same port access, and a port access touches neither
the host's data nor the mover's. -/
theorem moverStepIsAPortAccess : Obligations.MoverStepIsAPortAccess := by
  intro s m id v rest _ u
  refine ⟨fun hmem hblk => ?_, fun hnot hagenda => ?_⟩
  · have hassigned : moverAssigned u.cfg m id = true := (moverAssigned_iff s.cfg m id).2 ⟨hmem, hblk⟩
    refine ⟨fun hagenda => ?_, fun hagenda => ?_⟩
    · calc step s = moverTurn m (.push id v) u := step_turn hagenda
        _ = (portWrite id (u.fifo id).unit v u).written u := if_pos hassigned
        _ = _ := (exec_portWrite_configured id v u).symm
    · have hstep : step s = moverTurn m (.pop id) u := step_turn hagenda
      have hexec := exec_portRead_configured id u
      rcases moverTurn_pop hassigned with ⟨x, t, hread, hpop⟩ | ⟨r, hread, hpop⟩
      · have hframe := portRead_fields hread
        rw [hread] at hexec
        refine ⟨fun t' ht' => ?_, fun e he => ?_⟩
        · cases hexec.symm.trans ht'
          rw [hstep, hpop, hframe]
          rfl
        · cases hexec.symm.trans he
      · rw [hread] at hexec
        refine ⟨fun t' ht' => ?_, fun e he => ?_⟩
        · cases hexec.symm.trans ht'
        · cases hexec.symm.trans he
          exact hstep.trans hpop
  · have hassigned : ¬ moverAssigned u.cfg m id = true := fun h => hnot ((moverAssigned_iff s.cfg m id).1 h)
    rcases hagenda with hagenda | hagenda
    · exact (step_turn hagenda).trans (if_neg hassigned)
    · exact (step_turn hagenda).trans (if_neg hassigned)

end Sys2Proof.Machine

/-! A FIFO channel as a queue of units (44_fifo_ring.md R338): the ring invariant and what the channel holds. -/

namespace Sys2Proof.Machine

open Sys2Proof.Spec

/-! ### The ring (10_state.md R56) -/

section
variable {f : FifoChan}

theorem FifoChan.unit_dvd_cap (f : FifoChan) : f.unit ∣ f.cap := Nat.dvd_of_mod_eq_zero f.cap_mod_unit

/-- The place of the `j`-th unit after the read pointer, as `contents` reads it. -/
def FifoChan.slot (f : FifoChan) (j : Nat) : Nat := (f.rd.toNat + j * f.unit) % f.cap

theorem FifoChan.Ring.unit_dvd_slot (h : f.Ring) (j : Nat) : f.unit ∣ f.slot j :=
  (Nat.dvd_mod_iff f.unit_dvd_cap).2 (Nat.dvd_add (Nat.dvd_of_mod_eq_zero h.rd_unit) (Nat.dvd_mul_left _ _))

/-- Places of different units of one round are different. -/
theorem FifoChan.slot_ne {i j : Nat} (hij : i < j) (hj : j * f.unit < f.cap) : f.slot i ≠ f.slot j := by
  intro h
  have hi : i * f.unit < j * f.unit := Nat.mul_lt_mul_of_pos_right hij f.unit_pos
  have hmod : i * f.unit ≡ j * f.unit [MOD f.cap] := Nat.ModEq.add_left_cancel' _ h
  exact hi.ne (hmod.eq_of_lt_of_lt (hi.trans hj) hj)

/-- Places of different units of one round share no byte. -/
theorem FifoChan.Ring.slot_disjoint (h : f.Ring) {i j k l : Nat} (hij : i < j) (hj : j * f.unit < f.cap)
    (hk : k < f.unit) (hl : l < f.unit) : f.slot i + k ≠ f.slot j + l := by
  intro heq
  obtain ⟨a, ha⟩ := h.unit_dvd_slot i
  obtain ⟨b, hb⟩ := h.unit_dvd_slot j
  have hab : a = b := by
    have ha' : (f.unit * a + k) / f.unit = a := by rw [Nat.mul_add_div f.unit_pos, Nat.div_eq_of_lt hk, Nat.add_zero]
    have hb' : (f.unit * b + l) / f.unit = b := by rw [Nat.mul_add_div f.unit_pos, Nat.div_eq_of_lt hl, Nat.add_zero]
    rw [← ha', ← hb', ← ha, ← hb, heq]
  exact f.slot_ne hij hj (by rw [ha, hb, hab])

/-- The units held, as a number. -/
theorem FifoChan.Ring.held_mul_unit (h : f.Ring) : f.used.toNat / f.unit * f.unit = f.used.toNat :=
  Nat.div_mul_cancel (Nat.dvd_of_mod_eq_zero h.used_unit)

/-- The write pointer is the place after the last unit held. -/
theorem FifoChan.Ring.wr_eq_slot (h : f.Ring) : f.wr.toNat = f.slot (f.used.toNat / f.unit) := by
  rw [FifoChan.slot, h.held_mul_unit, h.wr_eq]

/-- The read pointer is the place of the first unit held. -/
theorem FifoChan.Ring.rd_eq_slot (h : f.Ring) : f.rd.toNat = f.slot 0 := by
  rw [FifoChan.slot, Nat.zero_mul, Nat.add_zero, Nat.mod_eq_of_lt h.rd_lt]

/-- A FIFO channel after a push of a unit (44_fifo_ring.md R320). -/
def FifoChan.pushed (f : FifoChan) : FifoChan :=
  { f with wr := f.wrap (f.wr.toNat + f.unit), used := f.used + BitVec.ofNat 17 f.unit }

/-- A FIFO channel after a pop of a unit (44_fifo_ring.md R322). -/
def FifoChan.popped (f : FifoChan) : FifoChan :=
  { f with rd := f.wrap (f.rd.toNat + f.unit), used := f.used - BitVec.ofNat 17 f.unit }

variable (hcap : f.cap ≤ 65536)
include hcap

theorem FifoChan.pushed_used_toNat (hfits : f.used.toNat + f.unit ≤ f.cap) :
    f.pushed.used.toNat = f.used.toNat + f.unit := by
  change (f.used + BitVec.ofNat 17 f.unit).toNat = _
  rw [BitVec.toNat_add, BitVec.toNat_ofNat]
  omega

theorem FifoChan.popped_used_toNat (hle : f.used.toNat ≤ f.cap) (hheld : f.unit ≤ f.used.toNat) :
    f.popped.used.toNat = f.used.toNat - f.unit := by
  change (f.used - BitVec.ofNat 17 f.unit).toNat = _
  rw [BitVec.toNat_sub, BitVec.toNat_ofNat]
  omega

/-- A push that fits keeps the ring invariant. -/
theorem FifoChan.Ring.pushed (h : f.Ring) (hfits : f.used.toNat + f.unit ≤ f.cap) : f.pushed.Ring := by
  have hused := f.pushed_used_toNat hcap hfits
  have hwr : f.pushed.wr.toNat = (f.wr.toNat + f.unit) % f.cap := f.wrap_toNat _ hcap
  exact
  { used_le := hused ▸ hfits
    used_unit := by rw [hused]; exact (Nat.add_mod_right _ _).trans h.used_unit
    rd_lt := h.rd_lt
    wr_lt := hwr ▸ Nat.mod_lt _ f.cap_pos
    rd_unit := h.rd_unit
    wr_eq := by
      rw [hwr, hused, h.wr_eq, Nat.mod_add_mod, Nat.add_assoc]
      rfl }

/-- A pop of a unit that is there keeps the ring invariant. -/
theorem FifoChan.Ring.popped (h : f.Ring) (hheld : f.unit ≤ f.used.toNat) : f.popped.Ring := by
  have hused := f.popped_used_toNat hcap h.used_le hheld
  have hrd : f.popped.rd.toNat = (f.rd.toNat + f.unit) % f.cap := f.wrap_toNat _ hcap
  exact
  { used_le := hused ▸ (Nat.sub_le _ _).trans h.used_le
    used_unit := by
      rw [hused]
      exact Nat.mod_eq_zero_of_dvd (Nat.dvd_sub (Nat.dvd_of_mod_eq_zero h.used_unit) (Nat.dvd_refl _))
    rd_lt := hrd ▸ Nat.mod_lt _ f.cap_pos
    wr_lt := h.wr_lt
    rd_unit := by
      rw [hrd]
      exact (Nat.mod_mod_of_dvd _ f.unit_dvd_cap).trans ((Nat.add_mod_right _ _).trans h.rd_unit)
    wr_eq := by
      rw [hrd, hused]
      change f.wr.toNat = ((f.rd.toNat + f.unit) % f.cap + (f.used.toNat - f.unit)) % f.cap
      rw [Nat.mod_add_mod, h.wr_eq, Nat.add_assoc, Nat.add_sub_cancel' hheld] }

/-- After a pop the places are counted from the next unit on. -/
theorem FifoChan.popped_slot (j : Nat) : f.popped.slot j = f.slot (j + 1) := by
  have hrd : f.popped.rd.toNat = (f.rd.toNat + f.unit) % f.cap := f.wrap_toNat _ hcap
  change (f.popped.rd.toNat + j * f.unit) % f.cap = _
  rw [hrd, Nat.mod_add_mod, FifoChan.slot, Nat.add_one_mul, Nat.add_assoc, Nat.add_comm f.unit]

end

/-! ### What the channel holds -/

/-- The bytes of the unit at a place. -/
def FifoChan.unitBytes (f : FifoChan) (m : Memory) (place : Nat) : List (Option Byte) :=
  (List.range f.unit).map fun k => m.readByte (f.pbase + place + k)

theorem FifoChan.getElem?_unitBytes {f : FifoChan} (m : Memory) (place : Nat) {k : Nat} (hk : k < f.unit) :
    (f.unitBytes m place)[k]? = some (m.readByte (f.pbase + place + k)) := by simp [FifoChan.unitBytes, hk]

/-- A push and a pop move no unit. -/
@[simp] theorem FifoChan.pushed_slot (f : FifoChan) (j : Nat) : f.pushed.slot j = f.slot j := rfl

@[simp] theorem FifoChan.pushed_unitBytes (f : FifoChan) (m : Memory) (place : Nat) :
    f.pushed.unitBytes m place = f.unitBytes m place := rfl

@[simp] theorem FifoChan.popped_unitBytes (f : FifoChan) (m : Memory) (place : Nat) :
    f.popped.unitBytes m place = f.unitBytes m place := rfl

/-- The units a channel holds, by their places. -/
theorem contents_eq {s : State} {id : FifoId} {f : FifoChan} {n : Nat} (hf : s.fifo id = f)
    (hn : f.used.toNat / f.unit = n) :
    contents s id = (List.range n).map fun j => f.unitBytes (s.block id.blk) (f.slot j) := by
  subst hf hn
  rfl

/-- Where a unit has been stored, its bytes are. -/
theorem unitBytes_of_unitStored {f : FifoChan} {ptr : BitVec 17} {v : Word} {m m' : Memory}
    (h : UnitStored f ptr v m m') : f.unitBytes m' ptr.toNat = (List.range f.unit).map fun k => some (byteAt v k) :=
  List.map_congr_left fun k hk => h.1 k (List.mem_range.1 hk)

/-- A unit stored at the write pointer touches no unit held. -/
theorem unitBytes_of_held {f : FifoChan} (hring : f.Ring) (hfits : f.used.toNat + f.unit ≤ f.cap) {v : Word}
    {m m' : Memory} (h : UnitStored f f.wr v m m') {j : Nat} (hj : j < f.used.toNat / f.unit) :
    f.unitBytes m' (f.slot j) = f.unitBytes m (f.slot j) := by
  refine List.map_congr_left fun k hk => h.2 _ fun l hl => ?_
  have hlast : f.used.toNat / f.unit * f.unit < f.cap := by
    have hpos := f.unit_pos
    rw [hring.held_mul_unit]
    omega
  have hdisjoint := hring.slot_disjoint hj hlast (List.mem_range.1 hk) hl
  rw [unitByte, hring.wr_eq_slot, Nat.add_assoc, Nat.add_assoc]
  exact fun heq => hdisjoint (Nat.add_left_cancel heq)

section
variable {s : State} {id : FifoId} (hring : (s.fifo id).Ring) (hcap : (s.fifo id).cap ≤ 65536)
include hring hcap

/-- A push appends: it writes the place after the last unit held, which no unit held shares a byte with. -/
theorem contents_storeUnit (v : Word) (hfits : (s.fifo id).used.toNat + (s.fifo id).unit ≤ (s.fifo id).cap) :
    contents (storeUnit id v ((s.fifo id).used + BitVec.ofNat 17 (s.fifo id).unit) s) id =
      contents s id ++ [(List.range (s.fifo id).unit).map fun k => some (byteAt v k)] := by
  have hstored := storeUnit_unitStored id v ((s.fifo id).used + BitVec.ofNat 17 (s.fifo id).unit) s
  have hcount : (s.fifo id).pushed.used.toNat / (s.fifo id).unit = (s.fifo id).used.toNat / (s.fifo id).unit + 1 := by
    rw [FifoChan.pushed_used_toNat hcap hfits, Nat.add_div_right _ (s.fifo id).unit_pos]
  rw [contents_eq (f := (s.fifo id).pushed) (storeUnit_fifo id v _ s) hcount, contents_eq rfl rfl, List.range_succ,
    List.map_append, List.map_singleton, FifoChan.pushed_slot, ← hring.wr_eq_slot, FifoChan.pushed_unitBytes,
    unitBytes_of_unitStored hstored]
  congr 1
  exact List.map_congr_left fun j hj => unitBytes_of_held hring hfits hstored (List.mem_range.1 hj)

/-- A pop takes the first unit off: the places are counted from the second one on. -/
theorem contents_takeUnit (hheld : (s.fifo id).unit ≤ (s.fifo id).used.toNat) : contents s id =
    (s.fifo id).unitBytes (s.block id.blk) (s.fifo id).rd.toNat ::
      contents (takeUnit id ((s.fifo id).used - BitVec.ofNat 17 (s.fifo id).unit) s) id := by
  have hcount : (s.fifo id).used.toNat / (s.fifo id).unit = (s.fifo id).popped.used.toNat / (s.fifo id).unit + 1 := by
    rw [FifoChan.popped_used_toNat hcap hring.used_le hheld, ← Nat.add_div_right _ (s.fifo id).unit_pos,
      Nat.sub_add_cancel hheld]
  rw [contents_eq (f := (s.fifo id).popped) (takeUnit_fifo id _ s) rfl, contents_eq rfl hcount, List.range_succ_eq_map,
    List.map_cons, List.map_map, ← hring.rd_eq_slot]
  congr 1
  exact List.map_congr_left fun j _ => by
    rw [FifoChan.popped_slot hcap, FifoChan.popped_unitBytes]
    rfl

end

/-- Settles O54: the port access of each case keeps the ring invariant and has its effect on what the channel holds. -/
theorem fifoRefinesAQueue : Obligations.FifoRefinesAQueue := by
  intro s id v f hmode hbounds hring
  have hcap : f.cap ≤ 65536 := f.cap_le id.blk hbounds
  refine ⟨fun hfits => ?_, fun hheld => ?_⟩
  · exact ⟨_, portWrite_fits hbounds hmode hfits, storeUnit_fifo id v _ s ▸ hring.pushed hcap hfits,
      contents_storeUnit hring hcap v hfits⟩
  · refine ⟨_, _, _, portRead_takes hbounds hmode hheld, takeUnit_fifo id _ s ▸ hring.popped hcap hheld,
      contents_takeUnit hring hcap hheld, fun k hk b hb => ?_⟩
    rw [FifoChan.getElem?_unitBytes _ _ hk] at hb
    exact (unitAt_unitReads id s).2 k hk b (Option.some.inj hb)

end Sys2Proof.Machine

/-! The commands of 44_fifo_ring.md R301 to R328 (`fifo_init`, the mode switches, `push`), run as programs of host
accesses with no other agent between two of them. -/

namespace Sys2Proof.Machine

open Sys2Proof.Spec

theorem fifoCommand_existing {α : Type} {p : Platform} {id : FifoId} (hblk : id.blk.val < p.nblk)
    (k : FifoId → Prog α) :
    fifoCommand p true id.blk.val id.chan.val k = k id := by
  simp [fifoCommand, Prog.check, hblk]

@[simp] theorem Prog.check_true {α : Type} (e : SwError) (k : Prog α) : Prog.check true e k = k := rfl

@[simp] theorem Prog.check_false {α : Type} (e : SwError) (k : Prog α) : Prog.check false e k = .done (.error e) := rfl

theorem Prog.andThen_rd32 {α β : Type} (a : Word) (k : Word → Prog α) (f : α → Prog β) :
    (Prog.rd32 a k).andThen f = Prog.rd32 a fun x => (k x).andThen f := rfl

/-! ### `fifo_init` (44_fifo_ring.md R301, R302) -/

/-- The three fields of the init word share no bit, so their union is their sum. -/
theorem initWordOf_toNat {boff len width : Nat} (hboff : boff ≤ 255) (hlen : len ≤ 256) :
    (initWordOf boff len width).toNat = boff + (len - 1) * 256 + (if width = 32 then 2 ^ 24 else 0) := by
  have hlow : boff ||| (len - 1) * 256 = boff + (len - 1) * 256 := by
    rw [Nat.or_comm, show (len - 1) * 256 = 2 ^ 8 * (len - 1) by omega,
      ← Nat.two_pow_add_eq_or_of_lt (by omega : boff < 2 ^ 8), Nat.add_comm]
  have hfields : (boff ||| (len - 1) * 256) % 2 ^ 32 = boff + (len - 1) * 256 := by
    rw [hlow]; omega
  have hword : (BitVec.ofNat 32 boff ||| BitVec.ofNat 32 ((len - 1) * 256)).toNat = boff + (len - 1) * 256 := by
    rw [← BitVec.ofNat_or, BitVec.toNat_ofNat, hfields]
  rw [initWordOf, BitVec.toNat_or, hword]
  by_cases hw : width = 32
  · have hflag : (flagBit (decide (width = 32)) 24).toNat = 2 ^ 24 * 1 := by simp [flagBit, hw]
    rw [hflag, if_pos hw, Nat.or_comm,
      ← Nat.two_pow_add_eq_or_of_lt (by omega : boff + (len - 1) * 256 < 2 ^ 24), Nat.add_comm, Nat.mul_one]
  · have hflag : (flagBit (decide (width = 32)) 24).toNat = 0 := by simp [flagBit, hw]
    rw [hflag, if_neg hw, Nat.or_zero, Nat.add_zero]

/-- Settles O58: the checks of `fifoInit` in their order. -/
theorem fifoInitCommandChecksBounds : Obligations.FifoInitCommandChecksBounds := by
  intro p b f boff len width hblk hwidth hboff
  have hargs : ((decide (width = 16) || decide (width = 32)) && decide (boff ≤ 255)) = true := by simp [hwidth, hboff]
  simp only [fifoInit, fifoCommand_existing (id := ⟨b, f⟩) hblk, hargs, Prog.check_true]
  refine ⟨fun hout => ?_, fun ⟨hlen, hin⟩ => ⟨initWordOf boff len width, ?_, initWordOf_toNat hboff ?_⟩,
    fun mode hmode => ?_⟩
  · have hcheck : (decide (1 ≤ len) && decide (boff + len ≤ Config.blockSections b)) = false :=
      Bool.eq_false_iff.2 fun h => hout (by simpa using h)
    rw [hcheck]
    rfl
  · have hcheck : (decide (1 ≤ len) && decide (boff + len ≤ Config.blockSections b)) = true := by simp [hlen, hin]
    rw [hcheck]
    rfl
  · exact (Nat.le_add_left len boff).trans (hin.trans (blockSections_le b))
  · rw [decide_eq_false hmode]
    rfl

/-! ### Runs of host programs -/

theorem State.fifo_toHost (s : State) (x : Word) (id : FifoId) : (s.toHost x).fifo id = s.fifo id := rfl

theorem run_access {α : Type} {op : HostOp} {k : Word → Prog α} {s t : State} (h : hostStep op s = .next t) :
    (Prog.access op k).run [] s = (k t.hostData).run [] t := by
  simp [Prog.run, runTurns, h]

/-- `id` is an existing channel of the well-formed platform `p`, and `s` is a state on `p`. -/
structure FifoOn (p : Platform) (id : FifoId) (s : State) : Prop where
  cfg : s.cfg = p
  platform : p.wf = true
  block : id.blk.val < p.nblk

section
variable {α : Type} {p : Platform} {id : FifoId} {s : State} (h : FifoOn p id s)
include h

theorem FifoOn.toHost (x : Word) : FifoOn p id (s.toHost x) := ⟨h.cfg, h.platform, h.block⟩

theorem FifoOn.stored (x : Word) (u : BitVec 17) : FifoOn p id (storeUnit id x u s) := ⟨h.cfg, h.platform, h.block⟩

/-- A word read of a register that changes nothing, as an access of a program. -/
theorem FifoOn.run_rd32 {r : FifoRegister} {x : Word} (hread : fifoRead32 id r s = .ok x s) (k : Word → Prog α) :
    (Prog.rd32 (p.fifoReg id r) k).run [] s = (k x).run [] (s.toHost x) := by
  obtain ⟨rfl, hwf, hblk⟩ := h
  have hstep : hostStep (.rd32 (s.cfg.fifoReg id r)) s = .next (s.toHost x) :=
    calc hostStep (.rd32 (s.cfg.fifoReg id r)) s
      _ = exec (fifoReadInstr id r) s := hostTurn_of_decodeAccess (decodeAccess_fifoReg hwf hblk 0#32).2
      _ = (fifoRead32 id r s).returned s := exec_fifoReadInstr id r s
      _ = .next (s.toHost x) := by rw [hread]; rfl
  exact run_access hstep

/-- What the host's halfword write to the port of an existing channel decodes to. -/
theorem FifoOn.decodeAccess_port16 (v : Half16) :
    decodeAccess s.cfg (.wr16 (p.fifoReg id .port) v) = .ok (.portW16 id v) := by
  obtain ⟨rfl, hwf, hblk⟩ := h
  obtain ⟨hdma, hoff, -⟩ := fifoReg_located (r := .port) hwf hblk
  simp [decodeAccess, decode16, hdma, hoff, fifoHalfAt]

/-- A port write of a word through the configured view, as an access of a program. -/
theorem FifoOn.hostStep_port (v : Word) :
    hostStep (if (s.fifo id).unit = 4 then .wr32 (p.fifoReg id .port) v
      else .wr16 (p.fifoReg id .port) (v.setWidth 16)) s =
      (portWrite id (s.fifo id).unit v s).written s := by
  rw [← exec_portWrite_configured]
  cases hw : (s.fifo id).w32 with
  | true =>
    obtain ⟨rfl, hwf, hblk⟩ := h
    rw [if_pos (unit_of_w32 hw), if_pos rfl]
    exact hostTurn_of_decodeAccess (decodeAccess_fifoReg (r := .port) hwf hblk v).1
  | false =>
    rw [if_neg (by simp [unit_of_not_w32 hw]), if_neg Bool.false_ne_true]
    exact hostTurn_of_decodeAccess (h.decodeAccess_port16 _)

end

/-! ### The mode switches (44_fifo_ring.md R311, R312) -/

/-- Settles O59: the one access of either command is the read of `FIFO_CTRL` that finds the other mode on. -/
theorem modeConflictWritesNothing : Obligations.ModeConflictWritesNothing := by
  intro s b f hwf hblk
  have hon : FifoOn s.cfg ⟨b, f⟩ s := ⟨rfl, hwf, hblk⟩
  obtain ⟨hfenBit, hdlenBit, -⟩ := ctrlWord_fields (s.fifo ⟨b, f⟩)
  refine ⟨fun hfen => ⟨s.toHost (s.fifo ⟨b, f⟩).ctrlWord, ?_, rfl⟩,
    fun hdlen => ⟨s.toHost (s.fifo ⟨b, f⟩).ctrlWord, ?_, rfl⟩⟩
  · rw [enableDelayLine, fifoCommand_existing (id := ⟨b, f⟩) hblk, if_pos rfl, hon.run_rd32 rfl, hfenBit, hfen]
    rfl
  · rw [enableFifo, fifoCommand_existing (id := ⟨b, f⟩) hblk, if_pos rfl, hon.run_rd32 rfl, hdlenBit, hdlen]
    rfl

/-! ### `push` (44_fifo_ring.md R325, R328) -/

theorem capOfInit_initWord (f : FifoChan) : lenOfInit f.initWord * Config.sectionBytes = f.cap := by
  obtain ⟨-, hlen, -⟩ := initWord_fields f
  rw [lenOfInit, hlen]
  rfl

theorem unitOfInit_initWord (f : FifoChan) : unitOfInit f.initWord = f.unit := by
  obtain ⟨-, -, hw32, -⟩ := initWord_fields f
  rw [unitOfInit, hw32]
  rfl

section
variable {α : Type} {p : Platform} {id : FifoId} {s : State} (h : FifoOn p id s) (hmode : (s.fifo id).mode = .fifo)
include h hmode

/-- The checks of `push` and `pop` pass in FIFO mode with the view of the configured width. -/
theorem FifoOn.run_portCommand (k : FifoId → Nat → Prog α) :
    (portCommand p true id.blk.val id.chan.val (8 * (s.fifo id).unit) k).run [] s =
      (k id (s.fifo id).unit).run [] ((s.toHost (s.fifo id).initWord).toHost (s.fifo id).ctrlWord) := by
  obtain ⟨hfen, hdlen⟩ := (mode_eq_fifo_iff _).1 hmode
  obtain ⟨hfenBit, hdlenBit, -⟩ := ctrlWord_fields (s.fifo id)
  have hcheck : ((s.fifo id).ctrlWord.getLsbD 0 && !(s.fifo id).ctrlWord.getLsbD 1) = true := by
    rw [hfenBit, hdlenBit, hfen, hdlen]
    rfl
  rw [portCommand, fifoCommand_existing h.block, h.run_rd32 rfl, unitOfInit_initWord, decide_eq_true rfl,
    Prog.check_true, (h.toHost (s.fifo id).initWord).run_rd32 (x := (s.fifo id).ctrlWord) rfl, hcheck, Prog.check_true]

/-- `free_size()` in FIFO mode. -/
theorem FifoOn.run_freeSize (hused : (s.fifo id).used.toNat ≤ (s.fifo id).cap) (k : Nat → Prog α) :
    ((freeSize p true id.blk.val id.chan.val).andThen k).run [] s =
      (k ((s.fifo id).cap - (s.fifo id).used.toNat)).run []
        ((s.toHost (s.fifo id).usedWord).toHost (s.fifo id).initWord) := by
  have hword : (s.fifo id).usedWord.toNat = (s.fifo id).used.toNat := by
    rw [usedWord_of_not_delayLine (by simp [hmode]), BitVec.toNat_setWidth_of_le (by decide)]
  rw [freeSize, fifoCommand_existing h.block, Prog.andThen_rd32,
    h.run_rd32 (r := .used) (x := (s.fifo id).usedWord) rfl, Prog.andThen_rd32,
    (h.toHost (s.fifo id).usedWord).run_rd32 (r := .init) (x := (s.fifo id).initWord) rfl]
  dsimp only
  rw [capOfInit_initWord, hword, if_neg (Nat.not_lt.2 hused)]
  rfl

end

/-- The port writes of `push`: each finds room, so each is stored and counted. -/
theorem FifoOn.run_pushWords {p : Platform} {id : FifoId} (n : Nat) (ws : List Word) {s : State} (h : FifoOn p id s)
    (hmode : (s.fifo id).mode = .fifo)
    (hbounds : (s.fifo id).boff.toNat + (s.fifo id).len ≤ Config.blockSections id.blk)
    (hfits : (s.fifo id).used.toNat + ws.length * (s.fifo id).unit ≤ (s.fifo id).cap) :
    ∃ t, (pushWords (p.fifoReg id .port) (s.fifo id).unit ws n).run [] s = .next (t, .ok n) ∧
      (t.fifo id).used.toNat = (s.fifo id).used.toNat + ws.length * (s.fifo id).unit ∧
      (t.fifo id).ovf = (s.fifo id).ovf ∧ (t.fifo id).rd = (s.fifo id).rd := by
  induction ws generalizing s with
  | nil => exact ⟨s, rfl, by simp, rfl, rfl⟩
  | cons v ws ih =>
    rw [List.length_cons, Nat.add_one_mul] at hfits
    have hroom : (s.fifo id).used.toNat + (s.fifo id).unit ≤ (s.fifo id).cap := by omega
    have hused := FifoChan.pushed_used_toNat ((s.fifo id).cap_le id.blk hbounds) hroom
    have hstep := h.hostStep_port v
    rw [portWrite_fits hbounds hmode hroom] at hstep
    have hnext := h.stored v ((s.fifo id).used + BitVec.ofNat 17 (s.fifo id).unit)
    have hfifo : (storeUnit id v _ s).fifo id = (s.fifo id).pushed := storeUnit_fifo id v _ s
    obtain ⟨t, hrun, htused, htovf, htrd⟩ := ih hnext (hfifo ▸ hmode) (hfifo ▸ hbounds) (by
      rw [hfifo, hused, Nat.add_assoc, Nat.add_comm (s.fifo id).unit]
      exact hfits)
    rw [hfifo] at hrun htused htovf htrd
    refine ⟨t, (run_access hstep).trans hrun, ?_, htovf, htrd⟩
    rw [htused, hused, List.length_cons, Nat.add_one_mul, Nat.add_assoc, Nat.add_comm (s.fifo id).unit]
    rfl

/-- `push` clamps to the free size: the free size is read once, and the words it lets through all find room. -/
theorem FifoOn.run_push {p : Platform} {id : FifoId} {s : State} (h : FifoOn p id s) (ws : List Word)
    (hmode : (s.fifo id).mode = .fifo)
    (hbounds : (s.fifo id).boff.toNat + (s.fifo id).len ≤ Config.blockSections id.blk)
    (hheld : (s.fifo id).used.toNat ≤ (s.fifo id).cap) {m : Nat}
    (hm : min ws.length (((s.fifo id).cap - (s.fifo id).used.toNat) / (s.fifo id).unit) = m) :
    ∃ t, (push p true id.blk.val id.chan.val ws (8 * (s.fifo id).unit)).run [] s = .next (t, .ok m) ∧
      (t.fifo id).used.toNat = (s.fifo id).used.toNat + m * (s.fifo id).unit ∧
      (t.fifo id).ovf = (s.fifo id).ovf ∧ (t.fifo id).rd = (s.fifo id).rd := by
  have hlength : (ws.take m).length = m := by rw [List.length_take]; omega
  have hfits : (s.fifo id).used.toNat + (ws.take m).length * (s.fifo id).unit ≤ (s.fifo id).cap := by
    have hle : m * (s.fifo id).unit ≤ (s.fifo id).cap - (s.fifo id).used.toNat :=
      (Nat.mul_le_mul_right _ (hm ▸ Nat.min_le_right _ _)).trans (Nat.div_mul_le_self _ _)
    rw [hlength]
    omega
  have hchecked := (h.toHost (s.fifo id).initWord).toHost (s.fifo id).ctrlWord
  have hsized := (hchecked.toHost (s.fifo id).usedWord).toHost (s.fifo id).initWord
  have hrun := hsized.run_pushWords m (ws.take m)
  simp only [State.fifo_toHost, hlength] at hrun hfits
  rw [push, h.run_portCommand hmode, hchecked.run_freeSize hmode hheld]
  simp only [State.fifo_toHost, hm]
  exact hrun hmode hbounds hfits

/-- Settles O60: `push` clamps, and the ring invariant bounds the count by the capacity. -/
theorem pushClampsToTheFreeSize : Obligations.PushClampsToTheFreeSize := fun s b g ws hwf hblk hmode hbounds hring =>
  FifoOn.run_push (p := s.cfg) (id := ⟨b, g⟩) ⟨rfl, hwf, hblk⟩ ws hmode hbounds hring.used_le rfl

end Sys2Proof.Machine

/-! The family of 60_exceptions.md: the delivery of an interrupt line. -/

namespace Sys2Proof.Machine

/-- Whose turn comes next makes no difference to an interrupt line. -/
@[simp] theorem State.line_withAgenda (s : State) (rest : List Turn) (l : IrqLine) :
    ({ s with agenda := rest }).line l = s.line l := by
  cases l <;> rfl

/-- The handler is entered for a line that is 1. -/
theorem deliverLine_of_one {s : State} {l : IrqLine} (h : s.line l = true) :
    deliverLine l s = { s with handler := some l, draws := s.lineDraws l } :=
  if_pos h

/-- The handler is not entered for a line that is 0; the line has been looked at all the same. -/
theorem deliverLine_of_zero {s : State} {l : IrqLine} (h : s.line l = false) :
    deliverLine l s = { s with draws := s.lineDraws l } :=
  if_neg (Bool.eq_false_iff.1 h)

/-- Settles O57, by the level of the line: the agenda it is delivered from does not move it. -/
theorem interruptDeliveredOnlyWhileLineIsOne : Obligations.InterruptDeliveredOnlyWhileLineIsOne := by
  intro s l rest hagenda
  have hstep : step s = .next (deliverLine l { s with agenda := rest }) := step_turn hagenda
  refine ⟨_, hstep, ?_⟩
  have hline := s.line_withAgenda rest l
  cases hlevel : s.line l with
  | false => rw [deliverLine_of_zero (hline.trans hlevel)]; exact ⟨rfl, fun _ => rfl, nofun⟩
  | true => rw [deliverLine_of_one (hline.trans hlevel)]; exact ⟨rfl, nofun, fun _ => rfl⟩

end Sys2Proof.Machine
